-- ==== Sys2Proof/Word.lean ====
section
/-!
DEFINITION. The word types of the core (spec 00_scope R7, R9; 30_encoding R90, R94). Arithmetic on a
`Word` is modulo 2^64 by the type.
-/

namespace Sys2Proof

/-- A 64-bit register, pc or address value (R9, R21, R24, R50). -/
abbrev Word := BitVec 64

/-- One memory byte (R26). -/
abbrev Byte := BitVec 8

/-- One raw 32-bit instruction word, bit 0 the least significant (R90). -/
abbrev InstrWord := BitVec 32

/-- A register field: a 5-bit index 0..31 into `x` (R94). -/
abbrev RegIdx := BitVec 5

end Sys2Proof
end

