-- ==== Sys2Proof/Config.lean ====
section
/-!
DEFINITION. What the host fixes when it constructs a hart (spec 00_scope R7, 10_state R37): the OPEN
parameters the cycle reads. They are plain data held in `State.cfg`, so every statement over all states
quantifies over them. The OPEN parameter `decoder`, a function, is an argument of the cycle
(`Machine/Effect.lean`). Log entries 1, 2, 3 and 22.
-/

namespace Sys2Proof

/-- The mnemonic tags `d.mn` (R29): the `mnemonic` column of the opcode table, its `(empty-fetch)` and
`(illegal)` rows among them, and the names a replacement decoder gives variants of its own (R2, D14). -/
inductive Mnemonic where
  | emptyFetch
  | lui | auipc
  | addi | slti | sltiu | xori | ori | andi | slli | srli | srai
  | add | sub | sll | slt | sltu | xor | srl | sra | or | and
  | addiw | slliw | srliw | sraiw
  | addw | subw | sllw | srlw | sraw
  | jal | jalr
  | beq | bne | blt | bge | bltu | bgeu
  | lb | lh | lw | ld | lbu | lhu | lwu
  | sb | sh | sw | sd
  | fence | ecall | ebreak
  | illegal
  /-- A variant of a replacement decoder that the reference profile has no name for; no row of the opcode
  table and no instruction of the profile has such a tag. -/
  | other (name : String)
  deriving DecidableEq, Repr

/-- The construction-time parameters of R7 and R37 that the machine reads while it runs. -/
structure Config where
  /-- `loadBase`, subtracted from every virtual address (R50); OPEN. -/
  loadBase : Word
  /-- `capacity`, the size of the memory image in bytes (R26); OPEN. -/
  capacity : Nat
  /-- `pageSize`, the granularity of installation (R64); OPEN. -/
  pageSize : Nat
  /-- `haltClass`, the mnemonics whose effect calls `finish()` (R141); reference value {ECALL}. -/
  haltClass : List Mnemonic
  /-- `callReturnClass`, the mnemonics before which a snapshot is emitted (R137); reference {JAL, JALR}. -/
  callReturnClass : List Mnemonic
  deriving DecidableEq, Repr

/-- The parameter values of the spec's tests (95_test_vectors section 0; D11, D15, D16).
DESIGN CHOICE, log entry 2: the source gives no load base, capacity or page size. -/
def Config.reference : Config where
  loadBase := 0x10000
  capacity := 0x10000
  pageSize := 0x1000
  haltClass := [.ecall]
  callReturnClass := [.jal, .jalr]

/-- The constraints R8 puts on the parameters. The two classes may hold any mnemonics. -/
abbrev Config.Valid (c : Config) : Prop :=
  8 ≤ c.capacity ∧ c.capacity ≤ 2 ^ 64 ∧ 1 ≤ c.pageSize

end Sys2Proof
end

