-- ==== Sys2Proof/Syntax.lean ====
section
/-!
DEFINITION. The instructions of the core with its reference decoder profile: one constructor for each row
of spec/opcode_table.json, carrying the decoded fields (R29, R94, R95). Register fields, immediates and
shift amounts are the encoded fields themselves; `Operands.lean` extends them.
-/

namespace Sys2Proof

/-- One constructor per row of the opcode table. -/
inductive Instr where
  /-- The all-zero word: no decode, a bubble (R91, R134). Table row `(empty-fetch)`. -/
  | emptyFetch
  /-- LUI rd, imm20 (R174); imm20 is `w[31:12]`. -/
  | lui (rd : RegIdx) (imm20 : BitVec 20)
  /-- AUIPC rd, imm20 (R175); imm20 is `w[31:12]`. -/
  | auipc (rd : RegIdx) (imm20 : BitVec 20)
  /-- ADDI rd, rs1, imm12 (R176). -/
  | addi (rd rs1 : RegIdx) (imm : BitVec 12)
  /-- SLTI rd, rs1, imm12 (R177). -/
  | slti (rd rs1 : RegIdx) (imm : BitVec 12)
  /-- SLTIU rd, rs1, imm12 (R178). -/
  | sltiu (rd rs1 : RegIdx) (imm : BitVec 12)
  /-- XORI rd, rs1, imm12 (R179). -/
  | xori (rd rs1 : RegIdx) (imm : BitVec 12)
  /-- ORI rd, rs1, imm12 (R180). -/
  | ori (rd rs1 : RegIdx) (imm : BitVec 12)
  /-- ANDI rd, rs1, imm12 (R181). -/
  | andi (rd rs1 : RegIdx) (imm : BitVec 12)
  /-- SLLI rd, rs1, shamt6 (R182). -/
  | slli (rd rs1 : RegIdx) (shamt : BitVec 6)
  /-- SRLI rd, rs1, shamt6 (R183). -/
  | srli (rd rs1 : RegIdx) (shamt : BitVec 6)
  /-- SRAI rd, rs1, shamt6 (R184). -/
  | srai (rd rs1 : RegIdx) (shamt : BitVec 6)
  /-- ADD rd, rs1, rs2 (R185). -/
  | add (rd rs1 rs2 : RegIdx)
  /-- SUB rd, rs1, rs2 (R186). -/
  | sub (rd rs1 rs2 : RegIdx)
  /-- SLL rd, rs1, rs2 (R187). -/
  | sll (rd rs1 rs2 : RegIdx)
  /-- SLT rd, rs1, rs2 (R188). -/
  | slt (rd rs1 rs2 : RegIdx)
  /-- SLTU rd, rs1, rs2 (R189). -/
  | sltu (rd rs1 rs2 : RegIdx)
  /-- XOR rd, rs1, rs2 (R190). -/
  | xor (rd rs1 rs2 : RegIdx)
  /-- SRL rd, rs1, rs2 (R191). -/
  | srl (rd rs1 rs2 : RegIdx)
  /-- SRA rd, rs1, rs2 (R192). -/
  | sra (rd rs1 rs2 : RegIdx)
  /-- OR rd, rs1, rs2 (R193). -/
  | or (rd rs1 rs2 : RegIdx)
  /-- AND rd, rs1, rs2 (R194). -/
  | and (rd rs1 rs2 : RegIdx)
  /-- ADDIW rd, rs1, imm12 (R195). -/
  | addiw (rd rs1 : RegIdx) (imm : BitVec 12)
  /-- SLLIW rd, rs1, shamt5 (R196). -/
  | slliw (rd rs1 : RegIdx) (shamt : BitVec 5)
  /-- SRLIW rd, rs1, shamt5 (R197). -/
  | srliw (rd rs1 : RegIdx) (shamt : BitVec 5)
  /-- SRAIW rd, rs1, shamt5 (R198). -/
  | sraiw (rd rs1 : RegIdx) (shamt : BitVec 5)
  /-- ADDW rd, rs1, rs2 (R199). -/
  | addw (rd rs1 rs2 : RegIdx)
  /-- SUBW rd, rs1, rs2 (R200). -/
  | subw (rd rs1 rs2 : RegIdx)
  /-- SLLW rd, rs1, rs2 (R201). -/
  | sllw (rd rs1 rs2 : RegIdx)
  /-- SRLW rd, rs1, rs2 (R202). -/
  | srlw (rd rs1 rs2 : RegIdx)
  /-- SRAW rd, rs1, rs2 (R203). -/
  | sraw (rd rs1 rs2 : RegIdx)
  /-- JAL rd, offset21 (R231); the offset is a signed even number of bytes (R100). -/
  | jal (rd : RegIdx) (offset : BitVec 21)
  /-- JALR rd, imm12(rs1) (R232). -/
  | jalr (rd rs1 : RegIdx) (imm : BitVec 12)
  /-- BEQ rs1, rs2, offset13 (R233); the offset is a signed even number of bytes (R98). -/
  | beq (rs1 rs2 : RegIdx) (offset : BitVec 13)
  /-- BNE rs1, rs2, offset13 (R234); the offset is a signed even number of bytes (R98). -/
  | bne (rs1 rs2 : RegIdx) (offset : BitVec 13)
  /-- BLT rs1, rs2, offset13 (R235); the offset is a signed even number of bytes (R98). -/
  | blt (rs1 rs2 : RegIdx) (offset : BitVec 13)
  /-- BGE rs1, rs2, offset13 (R236); the offset is a signed even number of bytes (R98). -/
  | bge (rs1 rs2 : RegIdx) (offset : BitVec 13)
  /-- BLTU rs1, rs2, offset13 (R237); the offset is a signed even number of bytes (R98). -/
  | bltu (rs1 rs2 : RegIdx) (offset : BitVec 13)
  /-- BGEU rs1, rs2, offset13 (R238); the offset is a signed even number of bytes (R98). -/
  | bgeu (rs1 rs2 : RegIdx) (offset : BitVec 13)
  /-- LB rd, imm12(rs1) (R261). -/
  | lb (rd rs1 : RegIdx) (imm : BitVec 12)
  /-- LH rd, imm12(rs1) (R262). -/
  | lh (rd rs1 : RegIdx) (imm : BitVec 12)
  /-- LW rd, imm12(rs1) (R263). -/
  | lw (rd rs1 : RegIdx) (imm : BitVec 12)
  /-- LD rd, imm12(rs1) (R264). -/
  | ld (rd rs1 : RegIdx) (imm : BitVec 12)
  /-- LBU rd, imm12(rs1) (R265). -/
  | lbu (rd rs1 : RegIdx) (imm : BitVec 12)
  /-- LHU rd, imm12(rs1) (R266). -/
  | lhu (rd rs1 : RegIdx) (imm : BitVec 12)
  /-- LWU rd, imm12(rs1) (R267). -/
  | lwu (rd rs1 : RegIdx) (imm : BitVec 12)
  /-- SB rs2, imm12(rs1) (R268); the base register comes first here. -/
  | sb (rs1 rs2 : RegIdx) (imm : BitVec 12)
  /-- SH rs2, imm12(rs1) (R269); the base register comes first here. -/
  | sh (rs1 rs2 : RegIdx) (imm : BitVec 12)
  /-- SW rs2, imm12(rs1) (R270); the base register comes first here. -/
  | sw (rs1 rs2 : RegIdx) (imm : BitVec 12)
  /-- SD rs2, imm12(rs1) (R271); the base register comes first here. -/
  | sd (rs1 rs2 : RegIdx) (imm : BitVec 12)
  /-- FENCE with every field the word carries (R105, R290). -/
  | fence (fm pred succ : BitVec 4) (rs1 rd : RegIdx)
  /-- ECALL (R291). -/
  | ecall
  /-- EBREAK (R292). -/
  | ebreak
  /-- ILLEGAL, the descriptor of a word no row matches, with `d.word` (R293). -/
  | illegal (word : InstrWord)
  deriving DecidableEq, Repr

end Sys2Proof
end

