-- ==== Sys2Proof/Decode.lean ====
section
/-!
DEFINITION. The decoder and the encoder of the reference profile RV64I (spec 30_encoding R90 to R105).
The decoder is total and reads nothing but the word (R92): a non-zero word no row matches is `illegal`
by name, and the all-zero word is the empty fetch, which the core filters out before the decoder (R91).
The profile is the reference value of the OPEN parameter `decoder` (R2, R7), which `Machine/Cycle.lean` takes
as an argument: PRESUMED (unsafe), log entry 10.
-/

namespace Sys2Proof

/-! ### Fields of the word (R94, R95) -/

/-- `opcode = w[6:0]`. -/
def opcodeOf (w : InstrWord) : BitVec 7 := w.extractLsb' 0 7
/-- `rd = w[11:7]`. -/
def rdOf (w : InstrWord) : RegIdx := w.extractLsb' 7 5
/-- `funct3 = w[14:12]`. -/
def funct3Of (w : InstrWord) : BitVec 3 := w.extractLsb' 12 3
/-- `rs1 = w[19:15]`. -/
def rs1Of (w : InstrWord) : RegIdx := w.extractLsb' 15 5
/-- `rs2 = w[24:20]`. -/
def rs2Of (w : InstrWord) : RegIdx := w.extractLsb' 20 5
/-- `funct7 = w[31:25]`. -/
def funct7Of (w : InstrWord) : BitVec 7 := w.extractLsb' 25 7
/-- `funct6 = w[31:26]`. -/
def funct6Of (w : InstrWord) : BitVec 6 := w.extractLsb' 26 6
/-- `shamt6 = w[25:20]` (R101). -/
def shamt6Of (w : InstrWord) : BitVec 6 := w.extractLsb' 20 6
/-- `shamt5 = w[24:20]` (R101). -/
def shamt5Of (w : InstrWord) : BitVec 5 := w.extractLsb' 20 5
/-- The I-immediate field `w[31:20]` (R96). -/
def imm12IOf (w : InstrWord) : BitVec 12 := w.extractLsb' 20 12
/-- The S-immediate field `{w[31:25], w[11:7]}` (R97). -/
def imm12SOf (w : InstrWord) : BitVec 12 := w.extractLsb' 25 7 ++ w.extractLsb' 7 5
/-- The B-offset `{w[31], w[7], w[30:25], w[11:8], 0}` (R98). -/
def offset13Of (w : InstrWord) : BitVec 13 :=
  w.extractLsb' 31 1 ++ w.extractLsb' 7 1 ++ w.extractLsb' 25 6 ++ w.extractLsb' 8 4 ++ 0#1
/-- The U-immediate field `w[31:12]` (R99). -/
def imm20Of (w : InstrWord) : BitVec 20 := w.extractLsb' 12 20
/-- The J-offset `{w[31], w[19:12], w[20], w[30:21], 0}` (R100). -/
def offset21Of (w : InstrWord) : BitVec 21 :=
  w.extractLsb' 31 1 ++ w.extractLsb' 12 8 ++ w.extractLsb' 20 1 ++ w.extractLsb' 21 10 ++ 0#1
/-- FENCE's `fm = w[31:28]` (R95). -/
def fmOf (w : InstrWord) : BitVec 4 := w.extractLsb' 28 4
/-- FENCE's `pred = w[27:24]` (R95). -/
def predOf (w : InstrWord) : BitVec 4 := w.extractLsb' 24 4
/-- FENCE's `succ = w[23:20]` (R95). -/
def succOf (w : InstrWord) : BitVec 4 := w.extractLsb' 20 4

/-! ### Minor selection inside each major opcode (R103); `none` is ILLEGAL -/

/-- An instruction with the I-format fields of `w`. -/
def iForm (mk : RegIdx → RegIdx → BitVec 12 → Instr) (w : InstrWord) : Instr :=
  mk (rdOf w) (rs1Of w) (imm12IOf w)
/-- An instruction with the R-format fields of `w`. -/
def rForm (mk : RegIdx → RegIdx → RegIdx → Instr) (w : InstrWord) : Instr :=
  mk (rdOf w) (rs1Of w) (rs2Of w)
/-- An instruction with the I-shift64 fields of `w`. -/
def shift6Form (mk : RegIdx → RegIdx → BitVec 6 → Instr) (w : InstrWord) : Instr :=
  mk (rdOf w) (rs1Of w) (shamt6Of w)
/-- An instruction with the I-shift32 fields of `w`. -/
def shift5Form (mk : RegIdx → RegIdx → BitVec 5 → Instr) (w : InstrWord) : Instr :=
  mk (rdOf w) (rs1Of w) (shamt5Of w)
/-- An instruction with the S-format fields of `w`. -/
def sForm (mk : RegIdx → RegIdx → BitVec 12 → Instr) (w : InstrWord) : Instr :=
  mk (rs1Of w) (rs2Of w) (imm12SOf w)
/-- An instruction with the B-format fields of `w`. -/
def bForm (mk : RegIdx → RegIdx → BitVec 13 → Instr) (w : InstrWord) : Instr :=
  mk (rs1Of w) (rs2Of w) (offset13Of w)

/-- Major opcode LOAD. -/
def decodeLoad (w : InstrWord) : Option Instr :=
  match funct3Of w with
  | 0b000#3 => some (iForm .lb w)
  | 0b001#3 => some (iForm .lh w)
  | 0b010#3 => some (iForm .lw w)
  | 0b011#3 => some (iForm .ld w)
  | 0b100#3 => some (iForm .lbu w)
  | 0b101#3 => some (iForm .lhu w)
  | 0b110#3 => some (iForm .lwu w)
  | _ => none

/-- Major opcode MISC-MEM: FENCE accepts any fm, pred, succ, rs1 and rd (R105). -/
def decodeMiscMem (w : InstrWord) : Option Instr :=
  match funct3Of w with
  | 0b000#3 => some (.fence (fmOf w) (predOf w) (succOf w) (rs1Of w) (rdOf w))
  | _ => none

/-- Major opcode OP-IMM; the shifts' funct6 is checked exactly (R101). -/
def decodeOpImm (w : InstrWord) : Option Instr :=
  match funct3Of w with
  | 0b000#3 => some (iForm .addi w)
  | 0b010#3 => some (iForm .slti w)
  | 0b011#3 => some (iForm .sltiu w)
  | 0b100#3 => some (iForm .xori w)
  | 0b110#3 => some (iForm .ori w)
  | 0b111#3 => some (iForm .andi w)
  | 0b001#3 =>
    match funct6Of w with
    | 0b000000#6 => some (shift6Form .slli w)
    | _ => none
  | 0b101#3 =>
    match funct6Of w with
    | 0b000000#6 => some (shift6Form .srli w)
    | 0b010000#6 => some (shift6Form .srai w)
    | _ => none
  | _ => none

/-- Major opcode OP-IMM-32; the shifts' funct7 is checked exactly (R101). -/
def decodeOpImm32 (w : InstrWord) : Option Instr :=
  match funct3Of w with
  | 0b000#3 => some (iForm .addiw w)
  | 0b001#3 =>
    match funct7Of w with
    | 0b0000000#7 => some (shift5Form .slliw w)
    | _ => none
  | 0b101#3 =>
    match funct7Of w with
    | 0b0000000#7 => some (shift5Form .srliw w)
    | 0b0100000#7 => some (shift5Form .sraiw w)
    | _ => none
  | _ => none

/-- Major opcode STORE. -/
def decodeStore (w : InstrWord) : Option Instr :=
  match funct3Of w with
  | 0b000#3 => some (sForm .sb w)
  | 0b001#3 => some (sForm .sh w)
  | 0b010#3 => some (sForm .sw w)
  | 0b011#3 => some (sForm .sd w)
  | _ => none

/-- Major opcode OP. -/
def decodeOp (w : InstrWord) : Option Instr :=
  match funct7Of w with
  | 0b0000000#7 =>
    match funct3Of w with
    | 0b000#3 => some (rForm .add w)
    | 0b001#3 => some (rForm .sll w)
    | 0b010#3 => some (rForm .slt w)
    | 0b011#3 => some (rForm .sltu w)
    | 0b100#3 => some (rForm .xor w)
    | 0b101#3 => some (rForm .srl w)
    | 0b110#3 => some (rForm .or w)
    | 0b111#3 => some (rForm .and w)
    | _ => none
  | 0b0100000#7 =>
    match funct3Of w with
    | 0b000#3 => some (rForm .sub w)
    | 0b101#3 => some (rForm .sra w)
    | _ => none
  | _ => none

/-- Major opcode OP-32. -/
def decodeOp32 (w : InstrWord) : Option Instr :=
  match funct7Of w with
  | 0b0000000#7 =>
    match funct3Of w with
    | 0b000#3 => some (rForm .addw w)
    | 0b001#3 => some (rForm .sllw w)
    | 0b101#3 => some (rForm .srlw w)
    | _ => none
  | 0b0100000#7 =>
    match funct3Of w with
    | 0b000#3 => some (rForm .subw w)
    | 0b101#3 => some (rForm .sraw w)
    | _ => none
  | _ => none

/-- Major opcode BRANCH. -/
def decodeBranch (w : InstrWord) : Option Instr :=
  match funct3Of w with
  | 0b000#3 => some (bForm .beq w)
  | 0b001#3 => some (bForm .bne w)
  | 0b100#3 => some (bForm .blt w)
  | 0b101#3 => some (bForm .bge w)
  | 0b110#3 => some (bForm .bltu w)
  | 0b111#3 => some (bForm .bgeu w)
  | _ => none

/-- Major opcode JALR. -/
def decodeJalr (w : InstrWord) : Option Instr :=
  match funct3Of w with
  | 0b000#3 => some (iForm .jalr w)
  | _ => none

/-- Major opcode SYSTEM: exactly two words (R103). -/
def decodeSystem (w : InstrWord) : Option Instr :=
  match w with
  | 0x00000073#32 => some .ecall
  | 0x00100073#32 => some .ebreak
  | _ => none

/-- The row of the opcode table that `w` matches, or `none` (R102). -/
def decodeRow (w : InstrWord) : Option Instr :=
  match opcodeOf w with
  | 0b0000011#7 => decodeLoad w
  | 0b0001111#7 => decodeMiscMem w
  | 0b0010011#7 => decodeOpImm w
  | 0b0010111#7 => some (.auipc (rdOf w) (imm20Of w))
  | 0b0011011#7 => decodeOpImm32 w
  | 0b0100011#7 => decodeStore w
  | 0b0110011#7 => decodeOp w
  | 0b0110111#7 => some (.lui (rdOf w) (imm20Of w))
  | 0b0111011#7 => decodeOp32 w
  | 0b1100011#7 => decodeBranch w
  | 0b1100111#7 => decodeJalr w
  | 0b1101111#7 => some (.jal (rdOf w) (offset21Of w))
  | 0b1110011#7 => decodeSystem w
  | _ => none

/-- The Decoder of the reference profile: total, and ILLEGAL where no row matches (R92). -/
def decoder (w : InstrWord) : Instr :=
  match decodeRow w with
  | some i => i
  | none => .illegal w

/-- What the core makes of a word (R91, R93): the empty word never reaches the decoder. -/
def decode (w : InstrWord) : Instr :=
  match w with
  | 0#32 => .emptyFetch
  | w => decoder w

/-! ### Bytes: the first byte is bits 7:0 (R90, R58) -/

/-- The word whose little-endian bytes are `b0 b1 b2 b3`. -/
def wordOfBytes (b0 b1 b2 b3 : Byte) : InstrWord := b3 ++ b2 ++ b1 ++ b0

/-- The little-endian bytes of a word, lowest address first. -/
def bytesOfWord (w : InstrWord) : List Byte :=
  [w.extractLsb' 0 8, w.extractLsb' 8 8, w.extractLsb' 16 8, w.extractLsb' 24 8]

/-- Reads one instruction from a list of bytes and returns the rest; `none` only when fewer than the
four bytes of an instruction are there. -/
def decodeBytes : List Byte → Option (Instr × List Byte)
  | b0 :: b1 :: b2 :: b3 :: rest => some (decode (wordOfBytes b0 b1 b2 b3), rest)
  | _ => none

/-- The instruction the decoder reads from the `nbits` low bits of `w`, every bit above them zero, laid
out in memory as the hardware stores it. -/
def decodeTableWord (nbits w : Nat) : Option Instr :=
  (decodeBytes (bytesOfWord (BitVec.ofNat 32 (w % 2 ^ nbits)))).map Prod.fst

/-! ### The encoder (R95, with the selectors of R102 and R103) -/

/-- R-format, and I-shift32 with the shift amount in the `rs2` place. -/
def encR (f7 : BitVec 7) (rs2 rs1 : BitVec 5) (f3 : BitVec 3) (rd : BitVec 5) (op : BitVec 7) : InstrWord :=
  f7 ++ rs2 ++ rs1 ++ f3 ++ rd ++ op
/-- I-format. -/
def encI (imm : BitVec 12) (rs1 : BitVec 5) (f3 : BitVec 3) (rd : BitVec 5) (op : BitVec 7) : InstrWord :=
  imm ++ rs1 ++ f3 ++ rd ++ op
/-- I-shift64 format. -/
def encShift6 (f6 : BitVec 6) (shamt : BitVec 6) (rs1 : BitVec 5) (f3 : BitVec 3) (rd : BitVec 5)
    (op : BitVec 7) : InstrWord :=
  f6 ++ shamt ++ rs1 ++ f3 ++ rd ++ op
/-- I-fence format. -/
def encFence (fm pred succ : BitVec 4) (rs1 : BitVec 5) (f3 : BitVec 3) (rd : BitVec 5) (op : BitVec 7) :
    InstrWord :=
  fm ++ pred ++ succ ++ rs1 ++ f3 ++ rd ++ op
/-- S-format. -/
def encS (imm : BitVec 12) (rs2 rs1 : BitVec 5) (f3 : BitVec 3) (op : BitVec 7) : InstrWord :=
  imm.extractLsb' 5 7 ++ rs2 ++ rs1 ++ f3 ++ imm.extractLsb' 0 5 ++ op
/-- B-format. -/
def encB (off : BitVec 13) (rs2 rs1 : BitVec 5) (f3 : BitVec 3) (op : BitVec 7) : InstrWord :=
  off.extractLsb' 12 1 ++ off.extractLsb' 5 6 ++ rs2 ++ rs1 ++ f3 ++ off.extractLsb' 1 4 ++
    off.extractLsb' 11 1 ++ op
/-- U-format. -/
def encU (imm : BitVec 20) (rd : BitVec 5) (op : BitVec 7) : InstrWord := imm ++ rd ++ op
/-- J-format. -/
def encJ (off : BitVec 21) (rd : BitVec 5) (op : BitVec 7) : InstrWord :=
  off.extractLsb' 20 1 ++ off.extractLsb' 1 10 ++ off.extractLsb' 11 1 ++ off.extractLsb' 12 8 ++ rd ++ op

/-- The word of an instruction. -/
def encode : Instr → InstrWord
  | .emptyFetch => 0#32
  | .lui rd i => encU i rd 0b0110111#7
  | .auipc rd i => encU i rd 0b0010111#7
  | .addi rd rs1 i => encI i rs1 0b000#3 rd 0b0010011#7
  | .slti rd rs1 i => encI i rs1 0b010#3 rd 0b0010011#7
  | .sltiu rd rs1 i => encI i rs1 0b011#3 rd 0b0010011#7
  | .xori rd rs1 i => encI i rs1 0b100#3 rd 0b0010011#7
  | .ori rd rs1 i => encI i rs1 0b110#3 rd 0b0010011#7
  | .andi rd rs1 i => encI i rs1 0b111#3 rd 0b0010011#7
  | .slli rd rs1 sh => encShift6 0b000000#6 sh rs1 0b001#3 rd 0b0010011#7
  | .srli rd rs1 sh => encShift6 0b000000#6 sh rs1 0b101#3 rd 0b0010011#7
  | .srai rd rs1 sh => encShift6 0b010000#6 sh rs1 0b101#3 rd 0b0010011#7
  | .add rd rs1 rs2 => encR 0b0000000#7 rs2 rs1 0b000#3 rd 0b0110011#7
  | .sub rd rs1 rs2 => encR 0b0100000#7 rs2 rs1 0b000#3 rd 0b0110011#7
  | .sll rd rs1 rs2 => encR 0b0000000#7 rs2 rs1 0b001#3 rd 0b0110011#7
  | .slt rd rs1 rs2 => encR 0b0000000#7 rs2 rs1 0b010#3 rd 0b0110011#7
  | .sltu rd rs1 rs2 => encR 0b0000000#7 rs2 rs1 0b011#3 rd 0b0110011#7
  | .xor rd rs1 rs2 => encR 0b0000000#7 rs2 rs1 0b100#3 rd 0b0110011#7
  | .srl rd rs1 rs2 => encR 0b0000000#7 rs2 rs1 0b101#3 rd 0b0110011#7
  | .sra rd rs1 rs2 => encR 0b0100000#7 rs2 rs1 0b101#3 rd 0b0110011#7
  | .or rd rs1 rs2 => encR 0b0000000#7 rs2 rs1 0b110#3 rd 0b0110011#7
  | .and rd rs1 rs2 => encR 0b0000000#7 rs2 rs1 0b111#3 rd 0b0110011#7
  | .addiw rd rs1 i => encI i rs1 0b000#3 rd 0b0011011#7
  | .slliw rd rs1 sh => encR 0b0000000#7 sh rs1 0b001#3 rd 0b0011011#7
  | .srliw rd rs1 sh => encR 0b0000000#7 sh rs1 0b101#3 rd 0b0011011#7
  | .sraiw rd rs1 sh => encR 0b0100000#7 sh rs1 0b101#3 rd 0b0011011#7
  | .addw rd rs1 rs2 => encR 0b0000000#7 rs2 rs1 0b000#3 rd 0b0111011#7
  | .subw rd rs1 rs2 => encR 0b0100000#7 rs2 rs1 0b000#3 rd 0b0111011#7
  | .sllw rd rs1 rs2 => encR 0b0000000#7 rs2 rs1 0b001#3 rd 0b0111011#7
  | .srlw rd rs1 rs2 => encR 0b0000000#7 rs2 rs1 0b101#3 rd 0b0111011#7
  | .sraw rd rs1 rs2 => encR 0b0100000#7 rs2 rs1 0b101#3 rd 0b0111011#7
  | .jal rd off => encJ off rd 0b1101111#7
  | .jalr rd rs1 i => encI i rs1 0b000#3 rd 0b1100111#7
  | .beq rs1 rs2 off => encB off rs2 rs1 0b000#3 0b1100011#7
  | .bne rs1 rs2 off => encB off rs2 rs1 0b001#3 0b1100011#7
  | .blt rs1 rs2 off => encB off rs2 rs1 0b100#3 0b1100011#7
  | .bge rs1 rs2 off => encB off rs2 rs1 0b101#3 0b1100011#7
  | .bltu rs1 rs2 off => encB off rs2 rs1 0b110#3 0b1100011#7
  | .bgeu rs1 rs2 off => encB off rs2 rs1 0b111#3 0b1100011#7
  | .lb rd rs1 i => encI i rs1 0b000#3 rd 0b0000011#7
  | .lh rd rs1 i => encI i rs1 0b001#3 rd 0b0000011#7
  | .lw rd rs1 i => encI i rs1 0b010#3 rd 0b0000011#7
  | .ld rd rs1 i => encI i rs1 0b011#3 rd 0b0000011#7
  | .lbu rd rs1 i => encI i rs1 0b100#3 rd 0b0000011#7
  | .lhu rd rs1 i => encI i rs1 0b101#3 rd 0b0000011#7
  | .lwu rd rs1 i => encI i rs1 0b110#3 rd 0b0000011#7
  | .sb rs1 rs2 i => encS i rs2 rs1 0b000#3 0b0100011#7
  | .sh rs1 rs2 i => encS i rs2 rs1 0b001#3 0b0100011#7
  | .sw rs1 rs2 i => encS i rs2 rs1 0b010#3 0b0100011#7
  | .sd rs1 rs2 i => encS i rs2 rs1 0b011#3 0b0100011#7
  | .fence fm pred succ rs1 rd => encFence fm pred succ rs1 0b000#3 rd 0b0001111#7
  | .ecall => 0x00000073#32
  | .ebreak => 0x00100073#32
  | .illegal w => w

/-! ### The mnemonic tag and the opcode table's rows -/

/-- The mnemonic tag `d.mn` of an instruction (R29). -/
def Instr.mnemonic : Instr → Mnemonic
  | .emptyFetch => .emptyFetch
  | .lui _ _ => .lui
  | .auipc _ _ => .auipc
  | .addi _ _ _ => .addi
  | .slti _ _ _ => .slti
  | .sltiu _ _ _ => .sltiu
  | .xori _ _ _ => .xori
  | .ori _ _ _ => .ori
  | .andi _ _ _ => .andi
  | .slli _ _ _ => .slli
  | .srli _ _ _ => .srli
  | .srai _ _ _ => .srai
  | .add _ _ _ => .add
  | .sub _ _ _ => .sub
  | .sll _ _ _ => .sll
  | .slt _ _ _ => .slt
  | .sltu _ _ _ => .sltu
  | .xor _ _ _ => .xor
  | .srl _ _ _ => .srl
  | .sra _ _ _ => .sra
  | .or _ _ _ => .or
  | .and _ _ _ => .and
  | .addiw _ _ _ => .addiw
  | .slliw _ _ _ => .slliw
  | .srliw _ _ _ => .srliw
  | .sraiw _ _ _ => .sraiw
  | .addw _ _ _ => .addw
  | .subw _ _ _ => .subw
  | .sllw _ _ _ => .sllw
  | .srlw _ _ _ => .srlw
  | .sraw _ _ _ => .sraw
  | .jal _ _ => .jal
  | .jalr _ _ _ => .jalr
  | .beq _ _ _ => .beq
  | .bne _ _ _ => .bne
  | .blt _ _ _ => .blt
  | .bge _ _ _ => .bge
  | .bltu _ _ _ => .bltu
  | .bgeu _ _ _ => .bgeu
  | .lb _ _ _ => .lb
  | .lh _ _ _ => .lh
  | .lw _ _ _ => .lw
  | .ld _ _ _ => .ld
  | .lbu _ _ _ => .lbu
  | .lhu _ _ _ => .lhu
  | .lwu _ _ _ => .lwu
  | .sb _ _ _ => .sb
  | .sh _ _ _ => .sh
  | .sw _ _ _ => .sw
  | .sd _ _ _ => .sd
  | .fence _ _ _ _ _ => .fence
  | .ecall => .ecall
  | .ebreak => .ebreak
  | .illegal _ => .illegal

/-- The opcode table's row of a mnemonic, as (mask, match): `w` is in the row when `w & mask = match`
(R93). ILLEGAL has no row: it is the complement of all of them. A tag outside the profile has none either. -/
def Mnemonic.row : Mnemonic → Option (InstrWord × InstrWord)
  | .emptyFetch => some (0xffffffff#32, 0x00000000#32)
  | .lui => some (0x0000007f#32, 0x00000037#32)
  | .auipc => some (0x0000007f#32, 0x00000017#32)
  | .addi => some (0x0000707f#32, 0x00000013#32)
  | .slti => some (0x0000707f#32, 0x00002013#32)
  | .sltiu => some (0x0000707f#32, 0x00003013#32)
  | .xori => some (0x0000707f#32, 0x00004013#32)
  | .ori => some (0x0000707f#32, 0x00006013#32)
  | .andi => some (0x0000707f#32, 0x00007013#32)
  | .slli => some (0xfc00707f#32, 0x00001013#32)
  | .srli => some (0xfc00707f#32, 0x00005013#32)
  | .srai => some (0xfc00707f#32, 0x40005013#32)
  | .add => some (0xfe00707f#32, 0x00000033#32)
  | .sub => some (0xfe00707f#32, 0x40000033#32)
  | .sll => some (0xfe00707f#32, 0x00001033#32)
  | .slt => some (0xfe00707f#32, 0x00002033#32)
  | .sltu => some (0xfe00707f#32, 0x00003033#32)
  | .xor => some (0xfe00707f#32, 0x00004033#32)
  | .srl => some (0xfe00707f#32, 0x00005033#32)
  | .sra => some (0xfe00707f#32, 0x40005033#32)
  | .or => some (0xfe00707f#32, 0x00006033#32)
  | .and => some (0xfe00707f#32, 0x00007033#32)
  | .addiw => some (0x0000707f#32, 0x0000001b#32)
  | .slliw => some (0xfe00707f#32, 0x0000101b#32)
  | .srliw => some (0xfe00707f#32, 0x0000501b#32)
  | .sraiw => some (0xfe00707f#32, 0x4000501b#32)
  | .addw => some (0xfe00707f#32, 0x0000003b#32)
  | .subw => some (0xfe00707f#32, 0x4000003b#32)
  | .sllw => some (0xfe00707f#32, 0x0000103b#32)
  | .srlw => some (0xfe00707f#32, 0x0000503b#32)
  | .sraw => some (0xfe00707f#32, 0x4000503b#32)
  | .jal => some (0x0000007f#32, 0x0000006f#32)
  | .jalr => some (0x0000707f#32, 0x00000067#32)
  | .beq => some (0x0000707f#32, 0x00000063#32)
  | .bne => some (0x0000707f#32, 0x00001063#32)
  | .blt => some (0x0000707f#32, 0x00004063#32)
  | .bge => some (0x0000707f#32, 0x00005063#32)
  | .bltu => some (0x0000707f#32, 0x00006063#32)
  | .bgeu => some (0x0000707f#32, 0x00007063#32)
  | .lb => some (0x0000707f#32, 0x00000003#32)
  | .lh => some (0x0000707f#32, 0x00001003#32)
  | .lw => some (0x0000707f#32, 0x00002003#32)
  | .ld => some (0x0000707f#32, 0x00003003#32)
  | .lbu => some (0x0000707f#32, 0x00004003#32)
  | .lhu => some (0x0000707f#32, 0x00005003#32)
  | .lwu => some (0x0000707f#32, 0x00006003#32)
  | .sb => some (0x0000707f#32, 0x00000023#32)
  | .sh => some (0x0000707f#32, 0x00001023#32)
  | .sw => some (0x0000707f#32, 0x00002023#32)
  | .sd => some (0x0000707f#32, 0x00003023#32)
  | .fence => some (0x0000707f#32, 0x0000000f#32)
  | .ecall => some (0xffffffff#32, 0x00000073#32)
  | .ebreak => some (0xffffffff#32, 0x00100073#32)
  | .illegal => none
  | .other _ => none

/-- `w` is in the row of the mnemonic `m`. -/
def Mnemonic.matchesWord (m : Mnemonic) (w : InstrWord) : Bool :=
  match m.row with
  | some (mask, pat) => w &&& mask == pat
  | none => false

end Sys2Proof
end

