-- ==== Sys2Proof/Machine/State.lean ====
section
/-!
DEFINITION. The state of the hart as plain data (spec 10_state R20 to R39), the reasons a run stops, and the
machine right after construction.
-/

namespace Sys2Proof.Machine

/-- The memory image `mem[0..capacity-1]` (R26) as the list of the offsets that do not hold
`Memory.unlisted`, offsets strictly rising. The key is the offset `va - loadBase`, not the virtual address.
DESIGN CHOICE (safe), log entry 13. -/
abbrev Memory := List Host.Cell

/-- What an offset that is not listed reads as. DESIGN CHOICE (unsafe), log entry 5: the spec leaves the
contents of memory no segment writes open (`initMem`, D10); this is the value of its ZeroMem premise. -/
def Memory.unlisted : Byte := 0

/-- Strictly rising offsets above `lo`, and no entry equal to `Memory.unlisted`. -/
def Memory.wfAbove : Option Nat → Memory → Bool
  | _, [] => true
  | none, (k, b) :: m => b != Memory.unlisted && Memory.wfAbove (some k) m
  | some lo, (k, b) :: m => decide (lo < k) && b != Memory.unlisted && Memory.wfAbove (some k) m

/-- The canonical form: equal memories are equal lists. -/
def Memory.wf (m : Memory) : Bool := Memory.wfAbove none m

/-- The fault kinds of R311. Raising one (R312) records it in `State.fault` and ends the cycle in a next
state; a step of a state that holds one is `Outcome.fault` of it, since such a state has no cycle (R35, R312;
DEDUCED, safe, log entry 11).
All are safe: the hardware they stand for stops (R310), or silently reads outside its image (D2). -/
inductive Fault where
  /-- An access whose size is not 1, 2, 4 or 8 (R51); raised by the load/store unit for an effect of a
  replacement decoder. No instruction of the reference profile names such a size. Safe. -/
  | badSize (va : Word) (n : Nat)
  /-- An access whose virtual address is not a multiple of its size (R52); raised by fetch and by LH, LHU,
  LW, LWU, LD, SH, SW, SD. Safe. -/
  | misaligned (va : Word) (n : Nat)
  /-- An access or an installation copy outside the memory image (R53, R68); raised by fetch, every load
  and store, and installation. Safe. -/
  | outOfBounds (va : Word) (n : Nat)
  /-- The effect of the descriptor ILLEGAL (R293). Safe. -/
  | illegalInstruction (word : InstrWord) (addr : Word)
  /-- The effect of EBREAK (R292). Safe. -/
  | unmodelled (mn : Mnemonic) (addr : Word)
  deriving DecidableEq, Repr

/-- Refusals of a step. No step of this model answers one: every instruction has its meaning. -/
inductive Refusal where
  /-- An instruction the dispatch rejects by its name; no arm does. Safe. -/
  | notModelled (mnemonic : String)
  deriving DecidableEq, Repr

/-- The fetch latch's contents: the raw word and the address it was fetched from (R27). -/
structure FetchLatch where
  word : InstrWord
  addr : Word
  deriving DecidableEq, Repr

/-- An instruction descriptor (R29): the mnemonic tag, the originating address, and the raw word from which
its effect reads its fields (D14). Its bound effect is the one the hart's decoder gives the word, which is the
same whenever it is asked, since the decoder is pure (D4; DEDUCED, safe, log entry 20). -/
structure Descriptor where
  mn : Mnemonic
  addr : Word
  word : InstrWord
  deriving DecidableEq, Repr

/-- The host-visible output events (R36). -/
inductive Event where
  /-- A trace snapshot: the pc and all registers (R137). -/
  | snapshot (pc : Word) (x : Vector Word 32)
  /-- The termination report: elapsed seconds, `count` and MIPS (R148). -/
  | report (elapsed : Rat) (count : Nat) (mips : Rat)
  deriving DecidableEq, Repr

/-- The hart state of R20, with the construction-time parameters (R37) and the trace flag of the run. -/
structure State where
  /-- The parameters the host constructed the hart with (R37); no step changes them. -/
  cfg : Config
  /-- The trace flag of `run(trace)`, fixed for one run (R37, D35). -/
  trace : Bool
  /-- The register file `x[0..31]` (R21); `x[0]` is an ordinary cell (R22). -/
  x : Vector Word 32
  /-- The program counter (R24). -/
  pc : Word
  /-- The memory image by offset (R26). -/
  mem : Memory
  /-- The fetch latch (R27). -/
  fl : FetchLatch
  /-- The decode latch: Empty or one live descriptor (R28). -/
  dl : Option Descriptor
  /-- The halt flag (R30). -/
  halted : Bool
  /-- The executed-instruction counter, unbounded (R31). -/
  count : Nat
  /-- The fault that ended the run (R35). -/
  fault : Option Fault
  /-- The output events, oldest first (R36). -/
  events : List Event
  deriving DecidableEq, Repr

/-- What one step or one effect answers. -/
abbrev Result := Host.Outcome State Fault Refusal

/-- The hart right after boot (R39, R340) with the spec's test parameters and premises (95 section 0): no
segment installed, `x[2] = loadBase + capacity` (R342), `pc = entryPc = loadBase`, latch empty, not halted,
count 0, no fault, no events. The values the spec leaves open are log entries 2, 4, 5, 6, 7 and 8. -/
def State.reset : State where
  cfg := Config.reference
  trace := false
  x := (Vector.replicate 32 0).set 2 0x20000
  pc := 0x10000
  mem := []
  fl := { word := 0, addr := 0 }
  dl := none
  halted := false
  count := 0
  fault := none
  events := []

end Sys2Proof.Machine
end

