-- ==== Sys2Proof/Machine/Memory.lean ====
section
/-!
DEFINITION. Reading and writing the bytes of the memory image, and the one place where byte order is
decided (spec 20_memory R26, R55, R56, R58).
-/

namespace Sys2Proof.Machine

/-- The byte at an offset. -/
def Memory.read : Memory → Nat → Byte
  | [], _ => Memory.unlisted
  | (k, b) :: m, a => if a = k then b else Memory.read m a

/-- Puts `b` in front of `m` at an offset below every offset of `m`, unless it is what an unlisted offset
reads as. -/
def Memory.cons (a : Nat) (b : Byte) (m : Memory) : Memory :=
  if b = Memory.unlisted then m else (a, b) :: m

/-- The memory with the byte at `a` replaced, in canonical form. -/
def Memory.write : Memory → Nat → Byte → Memory
  | [], a, b => Memory.cons a b []
  | (k, c) :: m, a, b =>
    if a < k then Memory.cons a b ((k, c) :: m)
    else if a = k then Memory.cons a b m
    else (k, c) :: Memory.write m a b

/-- The `n` bytes from offset `off`, little-endian, as a number below `2^(8n)` (R55, R58). -/
def Memory.readLE (m : Memory) (off : Nat) : Nat → Nat
  | 0 => 0
  | n + 1 => (m.read off).toNat + 256 * Memory.readLE m (off + 1) n

/-- Byte `k` of a value: `v[8k+7:8k]`. -/
def byteOf (v : Word) (k : Nat) : Byte := v.extractLsb' (8 * k) 8

/-- The memory with bytes `k`, `k+1`, ... (`n` of them) of `v` stored from offset `off` up (R56, R58). -/
def Memory.writeFrom (m : Memory) (off : Nat) (v : Word) (k : Nat) : Nat → Memory
  | 0 => m
  | n + 1 => (m.write off (byteOf v k)).writeFrom (off + 1) v (k + 1) n

/-- The memory with the low `8n` bits of `v` stored at `off`, bits 7:0 at the lowest offset (R56). -/
def Memory.writeLE (m : Memory) (off n : Nat) (v : Word) : Memory := m.writeFrom off v 0 n

/-- The memory with a list of bytes copied to `off`, `off + 1`, ... (R69 CopyBytes). -/
def Memory.copy (m : Memory) (off : Nat) : List Byte → Memory
  | [] => m
  | b :: bs => (m.write off b).copy (off + 1) bs

end Sys2Proof.Machine
end

