-- ==== Sys2Proof/Machine/Ops.lean ====
section
/-!
DEFINITION. The named operations over the hart state that the spec's pseudocode uses (spec 00_scope R10):
register and pc access, the address translator, the load/store unit, `raise` and `finish`.
-/

namespace Sys2Proof.Machine

/-! ### Registers, pc and the descriptor -/

/-- `get(i)`: `x[i]` (R22). -/
def State.reg (s : State) (i : RegIdx) : Word := s.x[i.toNat]

/-- `set(i, v)`: `x[i] <- v`, for every index including 0 (R22). -/
def State.setReg (s : State) (i : RegIdx) (v : Word) : State := { s with x := s.x.set i.toNat v }

/-- `pc <- target` (R24). -/
def State.setPc (s : State) (target : Word) : State := { s with pc := target }

/-- The memory image replaced. -/
def State.setMem (s : State) (m : Memory) : State := { s with mem := m }

/-- The fetch latch overwritten (R27). -/
def State.setFl (s : State) (l : FetchLatch) : State := { s with fl := l }

/-- The decode latch set: a descriptor inserted, or the latch cleared (R28). -/
def State.setDl (s : State) (d : Option Descriptor) : State := { s with dl := d }

/-- `emit E`: the event appended to the output (R10, R36). -/
def State.emit (s : State) (e : Event) : State := { s with events := s.events ++ [e] }

/-- `d.addr`, the originating address of the descriptor being executed (R29). Where no descriptor is live
no effect runs in a cycle; there it is the address decode would stamp, the fetch latch's (R135; DESIGN CHOICE,
safe, log entry 9). -/
def State.instrAddr (s : State) : Word :=
  match s.dl with
  | some d => d.addr
  | none => s.fl.addr

/-! ### Faults and halt: the core's whole exception mechanism (R312, R318, R141) -/

/-- `raise f`: the fault is recorded and nothing else changes (R312). There is no trap entry, no saved
register, no vector and no return (R318, R319; log entry 11). -/
def State.raise (s : State) (f : Fault) : State := { s with fault := some f }

/-- `finish()`: the halt flag is set (R141). -/
def State.finish (s : State) : State := { s with halted := true }

/-- `finish()` as a descriptor with the tag `mn` has it: which tags call it is the parameter `haltClass` (R141).
DESIGN CHOICE (unsafe), log entry 22: the spec does not say what holds where an effect has `finish()` under a tag
that `haltClass` leaves out; the class decides, and nothing is set. -/
def State.finishAs (s : State) (mn : Mnemonic) : State :=
  if s.cfg.haltClass.contains mn then s.finish else s

/-! ### The address translator (R50 to R54) -/

/-- The memory offset of a virtual address, `va - loadBase` modulo 2^64 (R50). -/
def State.offset (s : State) (va : Word) : Nat := (va - s.cfg.loadBase).toNat

/-- The legal access sizes (R51). -/
def legalSize (n : Nat) : Bool := n == 1 || n == 2 || n == 4 || n == 8

/-- `Translate(va, n)`: size, then alignment of the virtual address, then bounds (R54). The bound
`off <= capacity - n` of R53 is written `off + n <= capacity`, the same where `n <= capacity` (R8; DEDUCED, safe,
log entry 14). -/
def State.translate (s : State) (va : Word) (n : Nat) : Except Fault Nat :=
  if legalSize n = false then .error (.badSize va n)
  else if va.toNat % n ≠ 0 then .error (.misaligned va n)
  else if s.cfg.capacity < s.offset va + n then .error (.outOfBounds va n)
  else .ok (s.offset va)

/-! ### The load/store unit (R55, R56) -/

/-- `MemRead(va, n)`: the `n` bytes at `va`, little-endian and zero-extended, or the fault of the first
check that fails (R55). -/
def State.memRead (s : State) (va : Word) (n : Nat) : Except Fault Word :=
  match s.translate va n with
  | .ok off => .ok (BitVec.ofNat 64 (s.mem.readLE off n))
  | .error f => .error f

/-- `MemWrite(va, n, v)`: the low `8n` bits of `v` stored at `va`, or the fault of the first check that
fails, with nothing written (R56). -/
def State.memWrite (s : State) (va : Word) (n : Nat) (v : Word) : Except Fault State :=
  match s.translate va n with
  | .ok off => .ok (s.setMem (s.mem.writeLE off n v))
  | .error f => .error f

/-! ### Shared shapes of effects -/

/-- An effect that ends with a register written. -/
def State.writeReg (s : State) (rd : RegIdx) (v : Word) : Result := .next (s.setReg rd v)

/-- An effect that loads `n` bytes from `va` and writes `rd` with the extension of their value; a fault of
the unit is raised before any write (R260). -/
def State.loadInto (s : State) (rd : RegIdx) (va : Word) (n : Nat) (extend : Word → Word) : Result :=
  match s.memRead va n with
  | .ok v => .next (s.setReg rd (extend v))
  | .error f => .next (s.raise f)

/-- An effect that stores the low `8n` bits of `v` at `va`; a fault of the unit is raised before any
write (R260). -/
def State.storeAt (s : State) (va : Word) (n : Nat) (v : Word) : Result :=
  match s.memWrite va n v with
  | .ok t => .next t
  | .error f => .next (s.raise f)

/-- An effect that writes the link value `d.addr + 4` to `rd` and transfers control to `target` (R230). -/
def State.jumpAndLink (s : State) (rd : RegIdx) (target : Word) : Result :=
  .next ((s.setReg rd (s.instrAddr + 4)).setPc target)

/-- An effect that transfers control to `d.addr + offset` when `taken`, and otherwise leaves `pc` (R230). -/
def State.branchIf (s : State) (taken : Bool) (offset : Word) : Result :=
  if taken then .next (s.setPc (s.instrAddr + offset)) else .next s

end Sys2Proof.Machine
end

