-- ==== Sys2Proof/Machine/Operands.lean ====
section
/-!
DEFINITION. Every operand form of the reference profile (spec 30_encoding R96 to R101): immediates extended
to 64 bits, shift amounts, 32-bit operands and results, and effective addresses.
-/

namespace Sys2Proof.Machine

/-- `sext_32(v)`: the low word, sign-extended (R9). -/
def sext32 (v : Word) : Word := (v.extractLsb' 0 32).signExtend 64
/-- `sext_16(v)` (R9). -/
def sext16 (v : Word) : Word := (v.extractLsb' 0 16).signExtend 64
/-- `sext_8(v)` (R9). -/
def sext8 (v : Word) : Word := (v.extractLsb' 0 8).signExtend 64
/-- `v[31:0]` zero-extended (R173). -/
def zext32 (v : Word) : Word := (v.extractLsb' 0 32).setWidth 64

/-- `immI`, the sign-extended 12-bit immediate (R96). -/
def immI (imm : BitVec 12) : Word := imm.signExtend 64
/-- `immS`, the sign-extended 12-bit store offset (R97). -/
def immS (imm : BitVec 12) : Word := imm.signExtend 64
/-- `immB`, the sign-extended 13-bit branch offset (R98). -/
def immB (off : BitVec 13) : Word := off.signExtend 64
/-- `immU = sext_32({imm20, 000000000000})` (R99). -/
def immU (imm20 : BitVec 20) : Word := (imm20 ++ 0#12).signExtend 64
/-- `immJ`, the sign-extended 21-bit jump offset (R100). -/
def immJ (off : BitVec 21) : Word := off.signExtend 64

/-- A register shift amount of a 64-bit shift, `x[rs2][5:0]` (R101, R172). -/
def shiftAmount6 (v : Word) : Nat := (v.extractLsb' 0 6).toNat
/-- A register shift amount of a W shift, `x[rs2][4:0]` (R101, R173). -/
def shiftAmount5 (v : Word) : Nat := (v.extractLsb' 0 5).toNat

/-- The effective address of a load, `x[rs1] + immI` modulo 2^64 (R260). -/
def State.loadAddress (s : State) (rs1 : RegIdx) (imm : BitVec 12) : Word := s.reg rs1 + immI imm
/-- The effective address of a store, `x[rs1] + immS` modulo 2^64 (R260). -/
def State.storeAddress (s : State) (rs1 : RegIdx) (imm : BitVec 12) : Word := s.reg rs1 + immS imm

end Sys2Proof.Machine
end

