-- ==== Sys2Proof/Machine/Flags.lean ====
section
/-!
DEFINITION. The core has no status flags or condition codes (spec 10_state R32): a comparison delivers 0 or 1
in a register or decides a branch. Those comparisons are all the flag computations there are (R9, R171).
-/

namespace Sys2Proof.Machine

/-- `a <s b`, the signed comparison (R9). -/
def ltSigned (a b : Word) : Bool := a.slt b
/-- `a <u b`, the unsigned comparison (R9). -/
def ltUnsigned (a b : Word) : Bool := a.ult b
/-- The result of a comparison as a 64-bit 0 or 1 (R171). -/
def boolWord (c : Bool) : Word := if c then 1 else 0

end Sys2Proof.Machine
end

