-- ==== Sys2Proof/Machine/Control.lean ====
section
/-!
DEFINITION. Jumps and conditional branches (spec 42_ref_control). Targets are relative to `d.addr`, never to the advanced
`pc`; no effect faults, and a bad target faults at the next fetch (R230).
-/

namespace Sys2Proof.Machine

/-- JAL (R231): `t <- d.addr + immJ; x[rd] <- d.addr + 4; pc <- t`. -/
def execJal (rd : RegIdx) (offset : BitVec 21) (s : State) : Result :=
  s.jumpAndLink rd (s.instrAddr + immJ offset)

/-- JALR (R232): `t <- (x[rs1] + immI) & ~1; x[rd] <- d.addr + 4; pc <- t`; `t` uses the old `x[rs1]`. -/
def execJalr (rd rs1 : RegIdx) (imm : BitVec 12) (s : State) : Result :=
  s.jumpAndLink rd ((s.reg rs1 + immI imm) &&& ~~~1#64)

/-- BEQ (R233): branches to `d.addr + immB` when `x[rs1] = x[rs2]`. -/
def execBeq (rs1 rs2 : RegIdx) (offset : BitVec 13) (s : State) : Result :=
  s.branchIf (s.reg rs1 == s.reg rs2) (immB offset)

/-- BNE (R234): branches to `d.addr + immB` when `x[rs1] != x[rs2]`. -/
def execBne (rs1 rs2 : RegIdx) (offset : BitVec 13) (s : State) : Result :=
  s.branchIf (s.reg rs1 != s.reg rs2) (immB offset)

/-- BLT (R235): branches to `d.addr + immB` when `x[rs1]` is below `x[rs2]`, signed. -/
def execBlt (rs1 rs2 : RegIdx) (offset : BitVec 13) (s : State) : Result :=
  s.branchIf (ltSigned (s.reg rs1) (s.reg rs2)) (immB offset)

/-- BGE (R236): branches to `d.addr + immB` when `x[rs1]` is not below `x[rs2]`, signed. -/
def execBge (rs1 rs2 : RegIdx) (offset : BitVec 13) (s : State) : Result :=
  s.branchIf (!ltSigned (s.reg rs1) (s.reg rs2)) (immB offset)

/-- BLTU (R237): branches to `d.addr + immB` when `x[rs1]` is below `x[rs2]`, unsigned. -/
def execBltu (rs1 rs2 : RegIdx) (offset : BitVec 13) (s : State) : Result :=
  s.branchIf (ltUnsigned (s.reg rs1) (s.reg rs2)) (immB offset)

/-- BGEU (R238): branches to `d.addr + immB` when `x[rs1]` is not below `x[rs2]`, unsigned. -/
def execBgeu (rs1 rs2 : RegIdx) (offset : BitVec 13) (s : State) : Result :=
  s.branchIf (!ltUnsigned (s.reg rs1) (s.reg rs2)) (immB offset)

end Sys2Proof.Machine
end

