-- ==== Sys2Proof/Machine/LoadStore.lean ====
section
/-!
DEFINITION. Loads and stores (spec 43_ref_loadstore). The effective address wraps modulo 2^64; the unit checks alignment
on it and then bounds, before any write (R260).
-/

namespace Sys2Proof.Machine

/-- LB (R261): `x[rd] <- sext_8(MemRead(x[rs1] + immI, 1))`. -/
def execLb (rd rs1 : RegIdx) (imm : BitVec 12) (s : State) : Result :=
  s.loadInto rd (s.loadAddress rs1 imm) 1 sext8

/-- LH (R262): `x[rd] <- sext_16(MemRead(x[rs1] + immI, 2))`. -/
def execLh (rd rs1 : RegIdx) (imm : BitVec 12) (s : State) : Result :=
  s.loadInto rd (s.loadAddress rs1 imm) 2 sext16

/-- LW (R263): `x[rd] <- sext_32(MemRead(x[rs1] + immI, 4))`. -/
def execLw (rd rs1 : RegIdx) (imm : BitVec 12) (s : State) : Result :=
  s.loadInto rd (s.loadAddress rs1 imm) 4 sext32

/-- LD (R264): `x[rd] <- MemRead(x[rs1] + immI, 8)`. -/
def execLd (rd rs1 : RegIdx) (imm : BitVec 12) (s : State) : Result :=
  s.loadInto rd (s.loadAddress rs1 imm) 8 id

/-- LBU (R265): `x[rd] <- MemRead(x[rs1] + immI, 1)`. -/
def execLbu (rd rs1 : RegIdx) (imm : BitVec 12) (s : State) : Result :=
  s.loadInto rd (s.loadAddress rs1 imm) 1 id

/-- LHU (R266): `x[rd] <- MemRead(x[rs1] + immI, 2)`. -/
def execLhu (rd rs1 : RegIdx) (imm : BitVec 12) (s : State) : Result :=
  s.loadInto rd (s.loadAddress rs1 imm) 2 id

/-- LWU (R267): `x[rd] <- MemRead(x[rs1] + immI, 4)`. -/
def execLwu (rd rs1 : RegIdx) (imm : BitVec 12) (s : State) : Result :=
  s.loadInto rd (s.loadAddress rs1 imm) 4 id

/-- SB (R268): `MemWrite(x[rs1] + immS, 1, x[rs2])`. -/
def execSb (rs1 rs2 : RegIdx) (imm : BitVec 12) (s : State) : Result :=
  s.storeAt (s.storeAddress rs1 imm) 1 (s.reg rs2)

/-- SH (R269): `MemWrite(x[rs1] + immS, 2, x[rs2])`. -/
def execSh (rs1 rs2 : RegIdx) (imm : BitVec 12) (s : State) : Result :=
  s.storeAt (s.storeAddress rs1 imm) 2 (s.reg rs2)

/-- SW (R270): `MemWrite(x[rs1] + immS, 4, x[rs2])`. -/
def execSw (rs1 rs2 : RegIdx) (imm : BitVec 12) (s : State) : Result :=
  s.storeAt (s.storeAddress rs1 imm) 4 (s.reg rs2)

/-- SD (R271): `MemWrite(x[rs1] + immS, 8, x[rs2])`. -/
def execSd (rs1 rs2 : RegIdx) (imm : BitVec 12) (s : State) : Result :=
  s.storeAt (s.storeAddress rs1 imm) 8 (s.reg rs2)

end Sys2Proof.Machine
end

