-- ==== Sys2Proof/Machine/OpImm.lean ====
section
/-!
DEFINITION. The upper-immediate and register-immediate computational instructions (spec 41_ref_integer sections 2
and 3). Each reads its source before it writes `rd`, writes `rd` even when it is 0, and leaves `pc` (R170).
-/

namespace Sys2Proof.Machine

/-- LUI (R174): `x[rd] <- immU`. -/
def execLui (rd : RegIdx) (imm20 : BitVec 20) (s : State) : Result :=
  s.writeReg rd (immU imm20)

/-- AUIPC (R175): `x[rd] <- d.addr + immU`; the base is the address of the instruction itself. -/
def execAuipc (rd : RegIdx) (imm20 : BitVec 20) (s : State) : Result :=
  s.writeReg rd (s.instrAddr + immU imm20)

/-- ADDI (R176): `x[rd] <- x[rs1] + immI`. -/
def execAddi (rd rs1 : RegIdx) (imm : BitVec 12) (s : State) : Result :=
  s.writeReg rd (s.reg rs1 + immI imm)

/-- SLTI (R177): 1 when `x[rs1]` is below `immI`, signed, else 0. -/
def execSlti (rd rs1 : RegIdx) (imm : BitVec 12) (s : State) : Result :=
  s.writeReg rd (boolWord (ltSigned (s.reg rs1) (immI imm)))

/-- SLTIU (R178): 1 when `x[rs1]` is below the sign-extended `immI`, unsigned, else 0. -/
def execSltiu (rd rs1 : RegIdx) (imm : BitVec 12) (s : State) : Result :=
  s.writeReg rd (boolWord (ltUnsigned (s.reg rs1) (immI imm)))

/-- XORI (R179): `x[rd] <- x[rs1] ^ immI`. -/
def execXori (rd rs1 : RegIdx) (imm : BitVec 12) (s : State) : Result :=
  s.writeReg rd (s.reg rs1 ^^^ immI imm)

/-- ORI (R180): `x[rd] <- x[rs1] | immI`. -/
def execOri (rd rs1 : RegIdx) (imm : BitVec 12) (s : State) : Result :=
  s.writeReg rd (s.reg rs1 ||| immI imm)

/-- ANDI (R181): `x[rd] <- x[rs1] & immI`. -/
def execAndi (rd rs1 : RegIdx) (imm : BitVec 12) (s : State) : Result :=
  s.writeReg rd (s.reg rs1 &&& immI imm)

/-- SLLI (R182): `x[rd] <- x[rs1] << shamt6`. -/
def execSlli (rd rs1 : RegIdx) (shamt : BitVec 6) (s : State) : Result :=
  s.writeReg rd (s.reg rs1 <<< shamt.toNat)

/-- SRLI (R183): `x[rd] <- x[rs1] >>u shamt6`. -/
def execSrli (rd rs1 : RegIdx) (shamt : BitVec 6) (s : State) : Result :=
  s.writeReg rd (s.reg rs1 >>> shamt.toNat)

/-- SRAI (R184): `x[rd] <- x[rs1] >>s shamt6`. -/
def execSrai (rd rs1 : RegIdx) (shamt : BitVec 6) (s : State) : Result :=
  s.writeReg rd ((s.reg rs1).sshiftRight shamt.toNat)

end Sys2Proof.Machine
end

