-- ==== Sys2Proof/Machine/OpReg.lean ====
section
/-!
DEFINITION. The register-register computational instructions (spec 41_ref_integer section 4). Conventions of R170.
-/

namespace Sys2Proof.Machine

/-- ADD (R185): `x[rd] <- x[rs1] + x[rs2]`. -/
def execAdd (rd rs1 rs2 : RegIdx) (s : State) : Result :=
  s.writeReg rd (s.reg rs1 + s.reg rs2)

/-- SUB (R186): `x[rd] <- x[rs1] - x[rs2]`. -/
def execSub (rd rs1 rs2 : RegIdx) (s : State) : Result :=
  s.writeReg rd (s.reg rs1 - s.reg rs2)

/-- SLL (R187): `x[rd] <- x[rs1] << x[rs2][5:0]`. -/
def execSll (rd rs1 rs2 : RegIdx) (s : State) : Result :=
  s.writeReg rd (s.reg rs1 <<< shiftAmount6 (s.reg rs2))

/-- SLT (R188): 1 when `x[rs1]` is below `x[rs2]`, signed, else 0. -/
def execSlt (rd rs1 rs2 : RegIdx) (s : State) : Result :=
  s.writeReg rd (boolWord (ltSigned (s.reg rs1) (s.reg rs2)))

/-- SLTU (R189): 1 when `x[rs1]` is below `x[rs2]`, unsigned, else 0. -/
def execSltu (rd rs1 rs2 : RegIdx) (s : State) : Result :=
  s.writeReg rd (boolWord (ltUnsigned (s.reg rs1) (s.reg rs2)))

/-- XOR (R190): `x[rd] <- x[rs1] ^ x[rs2]`. -/
def execXor (rd rs1 rs2 : RegIdx) (s : State) : Result :=
  s.writeReg rd (s.reg rs1 ^^^ s.reg rs2)

/-- SRL (R191): `x[rd] <- x[rs1] >>u x[rs2][5:0]`. -/
def execSrl (rd rs1 rs2 : RegIdx) (s : State) : Result :=
  s.writeReg rd (s.reg rs1 >>> shiftAmount6 (s.reg rs2))

/-- SRA (R192): `x[rd] <- x[rs1] >>s x[rs2][5:0]`. -/
def execSra (rd rs1 rs2 : RegIdx) (s : State) : Result :=
  s.writeReg rd ((s.reg rs1).sshiftRight (shiftAmount6 (s.reg rs2)))

/-- OR (R193): `x[rd] <- x[rs1] | x[rs2]`. -/
def execOr (rd rs1 rs2 : RegIdx) (s : State) : Result :=
  s.writeReg rd (s.reg rs1 ||| s.reg rs2)

/-- AND (R194): `x[rd] <- x[rs1] & x[rs2]`. -/
def execAnd (rd rs1 rs2 : RegIdx) (s : State) : Result :=
  s.writeReg rd (s.reg rs1 &&& s.reg rs2)

end Sys2Proof.Machine
end

