-- ==== Sys2Proof/Machine/OpWord.lean ====
section
/-!
DEFINITION. The 32-bit ("W") computational instructions (spec 41_ref_integer sections 5 and 6). The result is the low
word of the computation, sign-extended (R173). Conventions of R170.
-/

namespace Sys2Proof.Machine

/-- ADDIW (R195): `x[rd] <- sext_32((x[rs1] + immI)[31:0])`. -/
def execAddiw (rd rs1 : RegIdx) (imm : BitVec 12) (s : State) : Result :=
  s.writeReg rd (sext32 (s.reg rs1 + immI imm))

/-- SLLIW (R196): `x[rd] <- sext_32((x[rs1] << shamt5)[31:0])`. -/
def execSlliw (rd rs1 : RegIdx) (shamt : BitVec 5) (s : State) : Result :=
  s.writeReg rd (sext32 (s.reg rs1 <<< shamt.toNat))

/-- SRLIW (R197): `x[rd] <- sext_32(x[rs1][31:0] >>u shamt5)`. -/
def execSrliw (rd rs1 : RegIdx) (shamt : BitVec 5) (s : State) : Result :=
  s.writeReg rd (sext32 (zext32 (s.reg rs1) >>> shamt.toNat))

/-- SRAIW (R198): `x[rd] <- sext_32((sext_32(x[rs1]) >>s shamt5)[31:0])`. -/
def execSraiw (rd rs1 : RegIdx) (shamt : BitVec 5) (s : State) : Result :=
  s.writeReg rd (sext32 ((sext32 (s.reg rs1)).sshiftRight shamt.toNat))

/-- ADDW (R199): `x[rd] <- sext_32((x[rs1] + x[rs2])[31:0])`. -/
def execAddw (rd rs1 rs2 : RegIdx) (s : State) : Result :=
  s.writeReg rd (sext32 (s.reg rs1 + s.reg rs2))

/-- SUBW (R200): `x[rd] <- sext_32((x[rs1] - x[rs2])[31:0])`. -/
def execSubw (rd rs1 rs2 : RegIdx) (s : State) : Result :=
  s.writeReg rd (sext32 (s.reg rs1 - s.reg rs2))

/-- SLLW (R201): `x[rd] <- sext_32((x[rs1] << x[rs2][4:0])[31:0])`. -/
def execSllw (rd rs1 rs2 : RegIdx) (s : State) : Result :=
  s.writeReg rd (sext32 (s.reg rs1 <<< shiftAmount5 (s.reg rs2)))

/-- SRLW (R202): `x[rd] <- sext_32(x[rs1][31:0] >>u x[rs2][4:0])`. -/
def execSrlw (rd rs1 rs2 : RegIdx) (s : State) : Result :=
  s.writeReg rd (sext32 (zext32 (s.reg rs1) >>> shiftAmount5 (s.reg rs2)))

/-- SRAW (R203): `x[rd] <- sext_32((sext_32(x[rs1]) >>s x[rs2][4:0])[31:0])`. -/
def execSraw (rd rs1 rs2 : RegIdx) (s : State) : Result :=
  s.writeReg rd (sext32 ((sext32 (s.reg rs1)).sshiftRight (shiftAmount5 (s.reg rs2))))

end Sys2Proof.Machine
end

