-- ==== Sys2Proof/Machine/System.lean ====
section
/-!
DEFINITION. The bubble, FENCE, ECALL, EBREAK and the illegal descriptor (spec 40_cycle R134, R136; 44_ref_system).
-/

namespace Sys2Proof.Machine

/-- The all-zero word with an empty decode latch: no action in decode and none in execute (R134, R136). -/
def execEmptyFetch (s : State) : Result :=
  .next s

/-- FENCE (R290): no operation, for every value of its fields; not even `rd` is written. -/
def execFence (_fm _pred _succ : BitVec 4) (_rs1 _rd : RegIdx) (s : State) : Result :=
  .next s

/-- ECALL (R291): `finish()`. No register is read or written and `pc` keeps `d.addr + 4`. Which mnemonics
call `finish()` is the parameter `haltClass` (R141), so on a hart whose class the host has left ECALL out of it
does nothing (DESIGN CHOICE, unsafe, log entry 22). -/
def execEcall (s : State) : Result :=
  .next (s.finishAs .ecall)

/-- EBREAK (R292): `raise Unmodelled(EBREAK, d.addr)`; the state written is `fault`. -/
def execEbreak (s : State) : Result :=
  .next (s.raise (.unmodelled .ebreak s.instrAddr))

/-- ILLEGAL (R293): `raise IllegalInstruction(d.word, d.addr)`; the state written is `fault`. -/
def execIllegal (word : InstrWord) (s : State) : Result :=
  .next (s.raise (.illegalInstruction word s.instrAddr))

end Sys2Proof.Machine
end

