-- ==== Sys2Proof/Machine/Effect.lean ====
section
/-!
DEFINITION. The operations an effect routine may use and nothing else (spec 40_cycle R138), and the Decoder
contract (spec 30_encoding R92): a decoder binds every word to a tag and to such a routine. That the effects of
the reference profile are such routines is shown here, since `Decoder.rv64i` is a decoder only with that.
-/

namespace Sys2Proof.Machine

/-! ### Effect routines -/

/-- The effect routines a descriptor with the tag `m` may be bound to: what is built from the operations of
R138, one constructor each, and nothing else. A routine gets from the hart only the value its operation
answers, so it reads of the latches no more than `d.addr`, of the configuration what its operations use (R37),
and not the halt flag, the count, the events or the trace flag; and it writes only through `set`, `setPc`, `memWrite`, `finish` and `raise`. It ends in a next state in which it is
done or has raised a fault; after a raise nothing of it runs (R312). -/
inductive EffectRoutine (m : Mnemonic) : (State → Result) → Prop where
  /-- The routine returns. -/
  | done : EffectRoutine m (fun s => .next s)
  /-- `get(i)` on the registers (R22). -/
  | get {k : Word → State → Result} (i : RegIdx) (rest : ∀ v, EffectRoutine m (k v)) :
      EffectRoutine m (fun s => k (s.reg i) s)
  /-- `set(i, v)` on the registers (R22). -/
  | set {k : State → Result} (i : RegIdx) (v : Word) (rest : EffectRoutine m k) :
      EffectRoutine m (fun s => k (s.setReg i v))
  /-- `get` on the pc (R24). -/
  | getPc {k : Word → State → Result} (rest : ∀ v, EffectRoutine m (k v)) :
      EffectRoutine m (fun s => k s.pc s)
  /-- `set` on the pc (R24). -/
  | setPc {k : State → Result} (target : Word) (rest : EffectRoutine m k) :
      EffectRoutine m (fun s => k (s.setPc target))
  /-- `MemRead(va, n)`, which answers a value or raises the fault of the unit (R55). -/
  | memRead {k : Word → State → Result} (va : Word) (n : Nat) (rest : ∀ v, EffectRoutine m (k v)) :
      EffectRoutine m (fun s =>
        match s.memRead va n with
        | .ok v => k v s
        | .error f => .next (s.raise f))
  /-- `MemWrite(va, n, v)`, which stores or raises the fault of the unit (R56). -/
  | memWrite {k : State → Result} (va : Word) (n : Nat) (v : Word) (rest : EffectRoutine m k) :
      EffectRoutine m (fun s =>
        match s.memWrite va n v with
        | .ok t => k t
        | .error f => .next (s.raise f))
  /-- `finish()`, by a descriptor with the tag `m`, which `haltClass` lets call it or not (R141, log entry 22). -/
  | finish {k : State → Result} (rest : EffectRoutine m k) : EffectRoutine m (fun s => k (s.finishAs m))
  /-- A read of `d.addr` (R29). The tag and the word of `d` are known where the routine is bound. -/
  | addr {k : Word → State → Result} (rest : ∀ a, EffectRoutine m (k a)) :
      EffectRoutine m (fun s => k s.instrAddr s)
  /-- `raise f` (R311, R312). -/
  | raise (f : Fault) : EffectRoutine m (fun s => .next (s.raise f))

/-! ### The shapes of the reference profile's effects are effect routines -/

/-- A register written with a value of one register (R170). -/
theorem EffectRoutine.writeReg1 {m : Mnemonic} (rd rs1 : RegIdx) (f : Word → Word) :
    EffectRoutine m (fun s => s.writeReg rd (f (s.reg rs1))) :=
  .get (k := fun a s => s.writeReg rd (f a)) rs1 fun a => .set rd (f a) .done

/-- A register written with a value of two registers (R170). -/
theorem EffectRoutine.writeReg2 {m : Mnemonic} (rd rs1 rs2 : RegIdx) (f : Word → Word → Word) :
    EffectRoutine m (fun s => s.writeReg rd (f (s.reg rs1) (s.reg rs2))) :=
  .get (k := fun a s => s.writeReg rd (f a (s.reg rs2))) rs1 fun a => .writeReg1 rd rs2 (f a)

/-- A load (R260). -/
theorem EffectRoutine.load {m : Mnemonic} (rd rs1 : RegIdx) (imm : BitVec 12) (n : Nat) (e : Word → Word) :
    EffectRoutine m (fun s => s.loadInto rd (s.loadAddress rs1 imm) n e) :=
  .get (k := fun a s => s.loadInto rd (a + immI imm) n e) rs1 fun a =>
    .memRead (k := fun v s => .next (s.setReg rd (e v))) (a + immI imm) n fun v => .set rd (e v) .done

/-- A store (R260). -/
theorem EffectRoutine.store {m : Mnemonic} (rs1 rs2 : RegIdx) (imm : BitVec 12) (n : Nat) :
    EffectRoutine m (fun s => s.storeAt (s.storeAddress rs1 imm) n (s.reg rs2)) :=
  .get (k := fun a s => s.storeAt (a + immS imm) n (s.reg rs2)) rs1 fun a =>
    .get (k := fun b s => s.storeAt (a + immS imm) n b) rs2 fun b => .memWrite (a + immS imm) n b .done

/-- A branch on a comparison of two registers (R230). -/
theorem EffectRoutine.branch {m : Mnemonic} (rs1 rs2 : RegIdx) (c : Word → Word → Bool) (offset : Word) :
    EffectRoutine m (fun s => s.branchIf (c (s.reg rs1) (s.reg rs2)) offset) :=
  .get (k := fun a s => s.branchIf (c a (s.reg rs2)) offset) rs1 fun a =>
    .get (k := fun b s => s.branchIf (c a b) offset) rs2 fun b => by
      cases h : c a b with
      | true => exact .addr (k := fun d s => .next (s.setPc (d + offset))) fun d => .setPc (d + offset) .done
      | false => exact .done

/-- Every effect of the reference profile is an effect routine of its own tag (R138). -/
theorem exec_effectRoutine (i : Instr) : EffectRoutine i.mnemonic (exec i) := by
  cases i with
  | emptyFetch => exact .done
  | lui rd imm => exact .set rd (immU imm) .done
  | auipc rd imm =>
    exact .addr (k := fun a s => s.writeReg rd (a + immU imm)) fun a => .set rd (a + immU imm) .done
  | addi rd rs1 imm => exact .writeReg1 rd rs1 (· + immI imm)
  | slti rd rs1 imm => exact .writeReg1 rd rs1 fun a => boolWord (ltSigned a (immI imm))
  | sltiu rd rs1 imm => exact .writeReg1 rd rs1 fun a => boolWord (ltUnsigned a (immI imm))
  | xori rd rs1 imm => exact .writeReg1 rd rs1 (· ^^^ immI imm)
  | ori rd rs1 imm => exact .writeReg1 rd rs1 (· ||| immI imm)
  | andi rd rs1 imm => exact .writeReg1 rd rs1 (· &&& immI imm)
  | slli rd rs1 shamt => exact .writeReg1 rd rs1 (· <<< shamt.toNat)
  | srli rd rs1 shamt => exact .writeReg1 rd rs1 (· >>> shamt.toNat)
  | srai rd rs1 shamt => exact .writeReg1 rd rs1 (·.sshiftRight shamt.toNat)
  | add rd rs1 rs2 => exact .writeReg2 rd rs1 rs2 (· + ·)
  | sub rd rs1 rs2 => exact .writeReg2 rd rs1 rs2 (· - ·)
  | sll rd rs1 rs2 => exact .writeReg2 rd rs1 rs2 fun a b => a <<< shiftAmount6 b
  | slt rd rs1 rs2 => exact .writeReg2 rd rs1 rs2 fun a b => boolWord (ltSigned a b)
  | sltu rd rs1 rs2 => exact .writeReg2 rd rs1 rs2 fun a b => boolWord (ltUnsigned a b)
  | xor rd rs1 rs2 => exact .writeReg2 rd rs1 rs2 (· ^^^ ·)
  | srl rd rs1 rs2 => exact .writeReg2 rd rs1 rs2 fun a b => a >>> shiftAmount6 b
  | sra rd rs1 rs2 => exact .writeReg2 rd rs1 rs2 fun a b => a.sshiftRight (shiftAmount6 b)
  | or rd rs1 rs2 => exact .writeReg2 rd rs1 rs2 (· ||| ·)
  | and rd rs1 rs2 => exact .writeReg2 rd rs1 rs2 (· &&& ·)
  | addiw rd rs1 imm => exact .writeReg1 rd rs1 fun a => sext32 (a + immI imm)
  | slliw rd rs1 shamt => exact .writeReg1 rd rs1 fun a => sext32 (a <<< shamt.toNat)
  | srliw rd rs1 shamt => exact .writeReg1 rd rs1 fun a => sext32 (zext32 a >>> shamt.toNat)
  | sraiw rd rs1 shamt => exact .writeReg1 rd rs1 fun a => sext32 ((sext32 a).sshiftRight shamt.toNat)
  | addw rd rs1 rs2 => exact .writeReg2 rd rs1 rs2 fun a b => sext32 (a + b)
  | subw rd rs1 rs2 => exact .writeReg2 rd rs1 rs2 fun a b => sext32 (a - b)
  | sllw rd rs1 rs2 => exact .writeReg2 rd rs1 rs2 fun a b => sext32 (a <<< shiftAmount5 b)
  | srlw rd rs1 rs2 => exact .writeReg2 rd rs1 rs2 fun a b => sext32 (zext32 a >>> shiftAmount5 b)
  | sraw rd rs1 rs2 =>
    exact .writeReg2 rd rs1 rs2 fun a b => sext32 ((sext32 a).sshiftRight (shiftAmount5 b))
  | jal rd off =>
    exact .addr (k := fun a s => .next ((s.setReg rd (a + 4)).setPc (a + immJ off))) fun a =>
      .set rd (a + 4) (.setPc (a + immJ off) .done)
  | jalr rd rs1 imm =>
    exact .get (k := fun b s => s.jumpAndLink rd ((b + immI imm) &&& ~~~1#64)) rs1 fun b =>
      .addr (k := fun a s => .next ((s.setReg rd (a + 4)).setPc ((b + immI imm) &&& ~~~1#64))) fun a =>
        .set rd (a + 4) (.setPc ((b + immI imm) &&& ~~~1#64) .done)
  | beq rs1 rs2 off => exact .branch rs1 rs2 (· == ·) (immB off)
  | bne rs1 rs2 off => exact .branch rs1 rs2 (· != ·) (immB off)
  | blt rs1 rs2 off => exact .branch rs1 rs2 ltSigned (immB off)
  | bge rs1 rs2 off => exact .branch rs1 rs2 (fun a b => !ltSigned a b) (immB off)
  | bltu rs1 rs2 off => exact .branch rs1 rs2 ltUnsigned (immB off)
  | bgeu rs1 rs2 off => exact .branch rs1 rs2 (fun a b => !ltUnsigned a b) (immB off)
  | lb rd rs1 imm => exact .load rd rs1 imm 1 sext8
  | lh rd rs1 imm => exact .load rd rs1 imm 2 sext16
  | lw rd rs1 imm => exact .load rd rs1 imm 4 sext32
  | ld rd rs1 imm => exact .load rd rs1 imm 8 id
  | lbu rd rs1 imm => exact .load rd rs1 imm 1 id
  | lhu rd rs1 imm => exact .load rd rs1 imm 2 id
  | lwu rd rs1 imm => exact .load rd rs1 imm 4 id
  | sb rs1 rs2 imm => exact .store rs1 rs2 imm 1
  | sh rs1 rs2 imm => exact .store rs1 rs2 imm 2
  | sw rs1 rs2 imm => exact .store rs1 rs2 imm 4
  | sd rs1 rs2 imm => exact .store rs1 rs2 imm 8
  | fence => exact .done
  | ecall => exact .finish .done
  | ebreak =>
    exact .addr (k := fun a s => .next (s.raise (.unmodelled .ebreak a))) fun a => .raise (.unmodelled .ebreak a)
  | illegal w =>
    exact .addr (k := fun a s => .next (s.raise (.illegalInstruction w a))) fun a =>
      .raise (.illegalInstruction w a)

/-! ### The decoder, a parameter of the core (R2, R7, D14) -/

/-- A Decoder (R92): it binds a raw word to a mnemonic tag and an effect routine of that tag, which uses the
operations of R138 and nothing else. It is a total function, so a word it does not know gets an effect that
raises a fault, and it is pure (D4). The core asks it about non-zero words only (R91). -/
abbrev Decoder := { d : InstrWord → Mnemonic × (State → Result) // ∀ w, EffectRoutine (d w).1 (d w).2 }

/-- The tag a decoder gives a word (R29). -/
def Decoder.mnemonic (D : Decoder) (w : InstrWord) : Mnemonic := (D.1 w).1

/-- The effect routine a decoder binds to a word (R29). -/
def Decoder.effect (D : Decoder) (w : InstrWord) : State → Result := (D.1 w).2

/-- The reference value of the parameter, the RV64I profile (R2, R7; PRESUMED, unsafe, log entry 10). -/
def Decoder.rv64i : Decoder :=
  ⟨fun w => ((decoder w).mnemonic, exec (decoder w)), fun w => exec_effectRoutine (decoder w)⟩

/-- What R138 keeps from the effects of a decoder: neither latch, nor the count, the events or the
configuration changes. Every decoder has it (`Decoder.keepsChannel`). -/
def Decoder.KeepsChannel (D : Decoder) : Prop :=
  ∀ w s t, D.effect w s = .next t →
    t.fl = s.fl ∧ t.dl = s.dl ∧ t.count = s.count ∧ t.events = s.events ∧ t.cfg = s.cfg ∧ t.trace = s.trace

end Sys2Proof.Machine
end

