-- ==== Sys2Proof/Machine/Cycle.lean ====
section
/-!
DEFINITION. One cycle of the core, `Cycle(trace)` of spec 40_cycle R142, step by step (R131 to R141). The cycle is the core layer of R2: it takes the decoder as an
argument and holds for every decoder.
-/

namespace Sys2Proof.Machine

/-- Step 1, zero-force: `x[0] <- 0` (R131). -/
def State.zeroForce (s : State) : State := s.setReg 0 0

/-- Steps 2a and 2b: `w <- MemRead(pc, 4)`, `fl <- (w, pc)`, `pc <- pc + 4` (R132, R133); the fault of the
unit leaves both unchanged. -/
def State.fetch (s : State) : Except Fault State :=
  match s.memRead s.pc 4 with
  | .ok w => .ok ((s.setFl { word := w.extractLsb' 0 32, addr := s.pc }).setPc (s.pc + 4))
  | .error f => .error f

/-- The descriptor decode makes of the fetch latch (R135). -/
def FetchLatch.descriptor (D : Decoder) (l : FetchLatch) : Descriptor where
  mn := D.mnemonic l.word
  addr := l.addr
  word := l.word

/-- Step 3: the empty word leaves the decode latch as it was (R134); any other word is decoded, stamped with
the fetch address and latched (R135). -/
def State.decodeStage (D : Decoder) (s : State) : State :=
  if s.fl.word = 0#32 then s else s.setDl (some (s.fl.descriptor D))

/-- Step 4b: with the trace flag on, a descriptor of the call/return class emits a snapshot (R137). -/
def State.snapshotStage (s : State) (d : Descriptor) : State :=
  if s.trace && s.cfg.callReturnClass.contains d.mn then
    s.emit (.snapshot s.pc s.x)
  else s

/-- Step 4d, retire: `dl <- Empty` (R139). -/
def State.retire (s : State) : State := s.setDl none

/-- The end of an effect that raised no fault. A mnemonic of `haltClass` has called `finish()` (R141): ECALL
in its own effect (R291), any other member the host has put in the class at the end of its effect, where a
second call changes nothing (DEDUCED, unsafe, log entry 3). No mnemonic outside the class has called it, whatever
its effect is (DESIGN CHOICE, unsafe, log entry 22). Then the descriptor is retired (R139). -/
def State.completeEffect (s : State) (d : Descriptor) : State :=
  (s.finishAs d.mn).retire

/-- Step 5: `count <- count + 1` (R140). -/
def State.countStep (s : State) : State := { s with count := s.count + 1 }

/-- What of the cycle is left when an effect has run: after a raise nothing (R312), else the rest of step 4
and step 5. -/
def State.afterEffect (s : State) (d : Descriptor) : State :=
  match s.fault with
  | some _ => s
  | none => (s.completeEffect d).countStep

/-- Steps 4 and 5: an empty latch is a bubble (R136); a descriptor has its snapshot taken and its bound effect
applied (R137, R138), then is retired and counted (R139, R140). -/
def State.executeStage (D : Decoder) (s : State) : Result :=
  match s.dl with
  | none =>
    match exec .emptyFetch s with
    | .next t => .next t.countStep
    | .fault f => .fault f
    | .refused r => .refused r
  | some d =>
    match D.effect d.word (s.snapshotStage d) with
    | .next t => .next (t.afterEffect d)
    | .fault f => .fault f
    | .refused r => .refused r

/-- `Cycle`: one whole cycle (R142). A state that holds a fault has no cycle: the machine has stopped with it
(R35, R312). The halt flag is not tested (R145). A faulting fetch ends the cycle in the state of R313. -/
def State.cycle (D : Decoder) (s : State) : Result :=
  match s.fault with
  | some f => .fault f
  | none =>
    match s.zeroForce.fetch with
    | .ok t => (t.decodeStage D).executeStage D
    | .error f => .next (s.zeroForce.raise f)

/-- The little-endian word `w` stored where the next fetch reads: at `pc`, when that is a place a fetch can
read (R132). -/
def State.placeAtPc (s : State) (w : InstrWord) : State :=
  match s.memWrite s.pc 4 (w.setWidth 64) with
  | .ok t => t
  | .error _ => s

end Sys2Proof.Machine
end

