-- ==== Sys2Proof/Machine/Step.lean ====
section
/-!
DEFINITION. The machine's step, and the placing of an instruction where the step fetches it.
-/

namespace Sys2Proof.Machine

/-- One step of the machine is one cycle, one atomic transition of the hart state (R6, R142, R145; DEDUCED,
safe, log entries 12 and 21), with the reference value of the parameter `decoder` (R7; log entry 10). A hart with
another decoder steps by `Hart.cycle`. -/
def step (s : State) : Host.Outcome State Fault Refusal := s.cycle Decoder.rv64i

/-- `s` with the instruction whose low `nbits` bits are `w` (the bits above zero) stored at `pc`. It stands
for the loader (DEDUCED, safe, log entry 8). -/
def State.withFetchWord (s : State) (nbits w : Nat) : State :=
  s.placeAtPc (BitVec.ofNat 32 (w % 2 ^ nbits))

end Sys2Proof.Machine
end

