-- ==== Sys2Proof/Machine/Boot.lean ====
section
/-!
DEFINITION. Segment installation and the boot sequence (spec 20_memory R63 to R71; 70_reset_and_hazards R340
to R343). They run before the first cycle and no instruction reaches them (R71).
-/

namespace Sys2Proof.Machine

/-- A segment of a program image (R63). `flags` is a bit set of unstated width, so a natural number
(DESIGN CHOICE, safe, log entry 16). -/
structure Segment where
  base : Word
  size : Nat
  data : List Byte
  flags : Nat
  deriving DecidableEq, Repr

/-- The OPEN masks of the segment permission flags (`flagBits`, R63, D28). No rule depends on them but
through the lead-in gate (D28), so the host's moves give them to it (`LeadInGate`). -/
structure FlagBits where
  read : Nat
  write : Nat
  execute : Nat
  deriving DecidableEq, Repr

/-- Whether the segment's flags hold a bit of a mask (R63). -/
def Segment.hasFlag (seg : Segment) (mask : Nat) : Bool := seg.flags &&& mask != 0

/-- The as-built reading of the lead-in gate (R65): `(flags & 1) = 0`, the 1 being C++'s value of the logical
OR of two non-zero flag constants. The gate itself stays OPEN (D12): `install` and `boot` take any. -/
def leadInGateAsBuilt (flags : Nat) : Bool := flags &&& 1 == 0

/-- The OPEN parameter `leadInGate` as a test that may look at the segment's flags through the masks
`flagBits` (R7, R65, D12, D28). -/
abbrev LeadInGate := FlagBits → Nat → Bool

/-- The as-built gate over the masks (R65): a bitwise AND of the flags with the logical OR of the read and
the write mask, which is 1 when one of them is not zero. For non-zero masks it is `leadInGateAsBuilt`. -/
def LeadInGate.asBuilt : LeadInGate := fun bits flags =>
  flags &&& (if bits.read ≠ 0 ∨ bits.write ≠ 0 then 1 else 0) == 0

/-- `pad`, the bytes from the base up to the next page boundary (R64). -/
def Segment.pad (seg : Segment) (pageSize : Nat) : Nat :=
  (pageSize - seg.base.toNat % pageSize) % pageSize

/-- `lead = min(pad, size)`, the length of the lead-in (R65). -/
def Segment.lead (seg : Segment) (pageSize : Nat) : Nat := min (seg.pad pageSize) seg.size

/-- `CopyBytes(va, bytes)`: one bounds-checked copy; a copy that does not fit writes none of its bytes
(R68, R69). A hart that already holds a fault is left as it is: the fault ended the boot (R313; DEDUCED, safe,
log entry 19). -/
def State.copyBytes (s : State) (va : Word) (bytes : List Byte) : State :=
  match s.fault with
  | some _ => s
  | none =>
    if s.cfg.capacity < s.offset va + bytes.length then s.raise (.outOfBounds va bytes.length)
    else s.setMem (s.mem.copy (s.offset va) bytes)

/-- The page-sized chunks of the bytes after the lead-in, the last one possibly shorter, with their virtual
addresses (R67, R68). `fuel` bounds the number of chunks; the number of bytes is enough. -/
def pageChunks (pageSize : Nat) : Nat → Word → List Byte → List (Word × List Byte)
  | 0, _, _ => []
  | fuel + 1, va, bytes =>
    if bytes.isEmpty then []
    else (va, bytes.take pageSize) ::
      pageChunks pageSize fuel (va + BitVec.ofNat 64 pageSize) (bytes.drop pageSize)

/-- The copies installation makes, in order: the lead-in when the gate lets it, then the chunks (R69). -/
def Segment.copies (seg : Segment) (gate : Nat → Bool) (pageSize : Nat) : List (Word × List Byte) :=
  let lead := seg.lead pageSize
  (if lead ≠ 0 ∧ gate seg.flags then [(seg.base, seg.data.take lead)] else []) ++
    pageChunks pageSize seg.data.length (seg.base + BitVec.ofNat 64 lead) (seg.data.drop lead)

/-- The copies of `install(seg)`, for a segment that `installSegment` does not refuse (R69). The first copy
that does not fit ends it with `OutOfBounds`, and the copies before it stay (R68). -/
def State.install (gate : Nat → Bool) (s : State) (seg : Segment) : State :=
  (seg.copies gate s.cfg.pageSize).foldl (fun t c => t.copyBytes c.1 c.2) s

/-- `set_stack_pointer()`: `x[2] <- loadBase + capacity` modulo 2^64 (R342). -/
def State.setStackPointer (s : State) : State :=
  s.setReg 2 (s.cfg.loadBase + BitVec.ofNat 64 s.cfg.capacity)

/-- What the host gives the boot sequence beside the decoder and the gate (R340), and the values the spec leaves unspecified in it (D6, D9).
`initMem` is given in the memory's own form: the image is finite, so every `initMem : offset -> byte` is one. -/
structure BootParams where
  cfg : Config
  trace : Bool
  initRegs : Vector Word 32
  initMem : Memory
  initFl : FetchLatch
  initPc : Word
  segments : List Segment
  entryPc : Word
  deriving DecidableEq, Repr

/-- What installation and the boot sequence give: a hart, or the refusal of a segment, which is no hart
(R314, R327). -/
inductive BootResult (α : Type) where
  | hart (h : α)
  | refused (seg : Segment)
  deriving DecidableEq, Repr

/-- The result with its hart taken as another type. -/
def BootResult.map {α β : Type} (f : α → β) : BootResult α → BootResult β
  | .hart h => .hart (f h)
  | .refused seg => .refused seg

/-- `install(seg)`, the host's move (R69, R327): a segment whose data length is not its size is refused
(R314, D26); any other is copied, which may fault (R313). -/
def installSegment (gate : Nat → Bool) (s : State) (seg : Segment) : BootResult State :=
  if seg.data.length = seg.size then .hart (s.install gate seg) else .refused seg

/-- The hart as constructed, before installation (R340). -/
def BootParams.construct (p : BootParams) : State where
  cfg := p.cfg
  trace := p.trace
  x := p.initRegs
  pc := p.initPc
  mem := p.initMem
  fl := p.initFl
  dl := none
  halted := false
  count := 0
  fault := none
  events := []

/-- The installation loop of the boot sequence: in list order, a refused segment refuses the boot (R314,
D26), and an install fault ends it (R313). -/
def installAll (gate : Nat → Bool) : List Segment → State → BootResult State
  | [], s => .hart s
  | seg :: segs, s =>
    match s.fault with
    | some _ => .hart s
    | none =>
      match installSegment gate s seg with
      | .hart t => installAll gate segs t
      | .refused bad => .refused bad

/-- The state `Boot` gives (R340): construct, install the segments in order, set the stack pointer, set the
pc. A hart returned with a fault has neither step of the last two done. The gate is the OPEN `leadInGate` (D12).
No step of it asks the decoder; `Hart.boot` constructs the hart with its decoder. -/
def boot (gate : Nat → Bool) (p : BootParams) : BootResult State :=
  match installAll gate p.segments p.construct with
  | .refused seg => .refused seg
  | .hart s =>
    match s.fault with
    | some _ => .hart s
    | none => .hart (s.setStackPointer.setPc p.entryPc)

/-- The boot parameters of the spec's test premises with nothing installed (95 section 0). -/
def BootParams.reference : BootParams where
  cfg := Config.reference
  trace := false
  initRegs := Vector.replicate 32 0
  initMem := []
  initFl := { word := 0, addr := 0 }
  initPc := 0
  segments := []
  entryPc := 0x10000

end Sys2Proof.Machine
end

