-- ==== Sys2Proof/Machine/Run.lean ====
section
/-!
DEFINITION. The run loop, the single step, the report and the dump (spec 40_cycle R130, R145 to R149;
60_exceptions R325), for every decoder.
-/

namespace Sys2Proof.Machine

/-- How far a run got. Running out of fuel is no outcome of the hardware (R147): a diverging run (R146 c) is
one that runs out at every fuel (DESIGN CHOICE, safe, log
entry 17). -/
inductive RunResult where
  /-- The back-edge test found the halt flag set (R146 a). -/
  | halted (s : State)
  /-- A fault stopped the run, leaving this state (R146 b, R313). -/
  | faulted (s : State)
  /-- The fuel ran out in this state. -/
  | outOfFuel (s : State)
  /-- A step refused; no step does. -/
  | refused (r : Refusal)
  deriving DecidableEq, Repr

/-- The loop of R130: the halt flag is tested before each cycle, and a fault ends the run at once (R312). -/
def runLoop (D : Decoder) : Nat → State → RunResult
  | fuel, s =>
    match s.fault with
    | some _ => .faulted s
    | none =>
      if s.halted then .halted s
      else
        match fuel with
        | 0 => .outOfFuel s
        | fuel + 1 =>
          match s.cycle D with
          | .next t => runLoop D fuel t
          | .fault _ => .faulted s
          | .refused r => .refused r

/-- `MIPS(count, e) = count / e / 10^6`; with no time elapsed, any figure: the argument `draw` (R148, D36; DESIGN CHOICE, safe,
log entry 15). -/
def mips (count : Nat) (elapsed draw : Rat) : Rat :=
  if elapsed = 0 then draw else (count : Rat) / elapsed / 1000000

/-- The termination report for the clock readings `t0` and `t1`, which are draws (R130, R148, D23). -/
def State.report (s : State) (t0 t1 draw : Rat) : State :=
  s.emit (.report (t1 - t0) s.count (mips s.count (t1 - t0) draw))

/-- `run(trace)` under fuel of a hart with the decoder `D` (R130): a halted run ends with the report, any
other without (R146). -/
def State.runWith (D : Decoder) (fuel : Nat) (trace : Bool) (t0 t1 draw : Rat) (s : State) : RunResult :=
  match runLoop D fuel { s with trace := trace } with
  | .halted t => .halted (t.report t0 t1 draw)
  | .faulted t => .faulted t
  | .outOfFuel t => .outOfFuel t
  | .refused r => .refused r

/-- `run(trace)` under fuel with the reference decoder. -/
def State.run (fuel : Nat) (trace : Bool) (t0 t1 draw : Rat) (s : State) : RunResult :=
  s.runWith Decoder.rv64i fuel trace t0 t1 draw

/-- `Cycle(trace)`, the single step the host may call (R145), of a hart with the decoder `D`. -/
def State.cycleWith (D : Decoder) (s : State) (trace : Bool) : Result :=
  { s with trace := trace }.cycle D

/-- The text of an output event under the OPEN `snapshotFormat` and `reportFormat` (R36, D22; log entry 18). -/
def Event.text (snapshotFormat : Word → Vector Word 32 → String) (reportFormat : Rat → Nat → Rat → String) :
    Event → String
  | .snapshot pc x => snapshotFormat pc x
  | .report e n m => reportFormat e n m

/-- The diagnostic dump (R149): a text of any form, and the state as it was. -/
def State.dump (dumpFormat : State → String) (s : State) : String × State := (dumpFormat s, s)

end Sys2Proof.Machine
end

