-- ==== Sys2Proof/Machine/Hart.lean ====
section
/-!
DEFINITION. A hart constructed with a decoder, and every move the host has with it (spec 60_exceptions R327;
70_reset_and_hazards R340). The decoder is a named argument of the hart (R2, R7, 93 item 26), so another decoder
replaces the reference profile without touching the core layer.
-/

namespace Sys2Proof.Machine

/-- A hart whose parameter `decoder` is `D` (R37): its state, which is plain data. -/
structure Hart (D : Decoder) where
  state : State
  deriving DecidableEq, Repr

/-- *construct* (R327): the hart before installation (R340). -/
def Hart.construct (D : Decoder) (p : BootParams) : Hart D := { state := p.construct }

/-- *install(seg)* (R327), before the first cycle (R71): the hart with its memory updated or with a fault, or
the refusal of the segment (R313, R314). -/
def Hart.install {D : Decoder} (h : Hart D) (gate : LeadInGate) (flagBits : FlagBits) (seg : Segment) :
    BootResult (Hart D) :=
  (installSegment (gate flagBits) h.state seg).map Hart.mk

/-- *set_stack_pointer* (R327, R342). -/
def Hart.setStackPointer {D : Decoder} (h : Hart D) : Hart D := { state := h.state.setStackPointer }

/-- *set pc* (R327, R343). -/
def Hart.setPc {D : Decoder} (h : Hart D) (entryPc : Word) : Hart D := { state := h.state.setPc entryPc }

/-- `Boot` (R340): a hart with the decoder, parameters, segments and entry point the host gives, or the
refusal of a segment. -/
def Hart.boot (D : Decoder) (gate : LeadInGate) (flagBits : FlagBits) (p : BootParams) : BootResult (Hart D) :=
  (Sys2Proof.Machine.boot (gate flagBits) p).map Hart.mk

/-- *run(trace)* (R327, R130), under fuel, with the clock readings and the MIPS figure at zero elapsed time as
draws. -/
def Hart.run {D : Decoder} (h : Hart D) (fuel : Nat) (trace : Bool) (t0 t1 draw : Rat) : RunResult :=
  h.state.runWith D fuel trace t0 t1 draw

/-- *Cycle(trace)* (R327, R145). -/
def Hart.cycle {D : Decoder} (h : Hart D) (trace : Bool) : Host.Outcome (Hart D) Fault Refusal :=
  match h.state.cycleWith D trace with
  | .next s => .next { state := s }
  | .fault f => .fault f
  | .refused r => .refused r

/-- *dump* (R327, R149): a text rendering, and the hart as it was. -/
def Hart.dump {D : Decoder} (h : Hart D) (dumpFormat : State → String) : String × Hart D :=
  ((h.state.dump dumpFormat).1, { state := (h.state.dump dumpFormat).2 })

end Sys2Proof.Machine
end

