-- ==== Sys2Proof/WellFormed.lean ====
section
/-!
DEFINITION. Which terms of `Instr` stand for a word: the checks the field types do not make.
-/

namespace Sys2Proof

/-- An encodable instruction: a branch or jump offset is even (R98, R100), and the word of an `illegal`
is non-zero and matches no row (R93, R293). Every other term is well-formed by its field types. -/
def Instr.wf : Instr → Bool
  | .jal _ off => off.extractLsb' 0 1 == 0#1
  | .beq _ _ off | .bne _ _ off | .blt _ _ off | .bge _ _ off | .bltu _ _ off | .bgeu _ _ off =>
    off.extractLsb' 0 1 == 0#1
  | .illegal w => w != 0#32 && (decodeRow w).isNone
  | _ => true

end Sys2Proof
end

