-- ==== Sys2Proof/Safety.lean ====
section
/-!
DEFINITION. The terms claims are stated in: what an effect changes and leaves unchanged, what a fetch finds,
the invariant of the machine, and the launch premises (spec 70_reset_and_hazards R345).
-/

namespace Sys2Proof.Machine

/-! ### What changes -/

/-- All the state an effect cannot reach (R138), and the halt flag, are as they were. -/
def State.SameControl (s t : State) : Prop :=
  t.cfg = s.cfg ∧ t.trace = s.trace ∧ t.fl = s.fl ∧ t.dl = s.dl ∧ t.halted = s.halted ∧
    t.count = s.count ∧ t.events = s.events

/-- From `s` to `t`, register `rd` takes the value `v` and every other piece of state is as it was. -/
def State.RegWrite (s t : State) (rd : RegIdx) (v : Word) : Prop :=
  t.reg rd = v ∧ (∀ r, r ≠ rd → t.reg r = s.reg r) ∧ t.pc = s.pc ∧ t.mem = s.mem ∧ t.fault = s.fault ∧
    s.SameControl t

/-- From `s` to `t`, register `rd` takes the value `v`, the pc the value `target`, and nothing else changes. -/
def State.RegPcWrite (s t : State) (rd : RegIdx) (v target : Word) : Prop :=
  t.reg rd = v ∧ (∀ r, r ≠ rd → t.reg r = s.reg r) ∧ t.pc = target ∧ t.mem = s.mem ∧ t.fault = s.fault ∧
    s.SameControl t

/-- From `s` to `t`, the pc takes the value `target` and nothing else changes. -/
def State.PcWrite (s t : State) (target : Word) : Prop :=
  (∀ r, t.reg r = s.reg r) ∧ t.pc = target ∧ t.mem = s.mem ∧ t.fault = s.fault ∧ s.SameControl t

/-- From `s` to `t`, the fault `f` is recorded and nothing else changes (R312). -/
def State.FaultWrite (s t : State) (f : Fault) : Prop :=
  (∀ r, t.reg r = s.reg r) ∧ t.pc = s.pc ∧ t.mem = s.mem ∧ t.fault = some f ∧ s.SameControl t

/-- From `s` to `t`, the `n` bytes from offset `off` take the low `8n` bits of `v`, lowest byte first, and
nothing else changes, every other byte of memory included (R56, R58). -/
def State.BytesWrite (s t : State) (off n : Nat) (v : Word) : Prop :=
  (∀ k, k < n → (t.mem.read (off + k)).toNat = v.toNat / 256 ^ k % 256) ∧
    (∀ o, o < off ∨ off + n ≤ o → t.mem.read o = s.mem.read o) ∧
    (∀ r, t.reg r = s.reg r) ∧ t.pc = s.pc ∧ t.fault = s.fault ∧ s.SameControl t

/-- The number the `n` bytes from offset `off` spell, lowest byte first (R55). -/
def State.bytesValue (s : State) (off n : Nat) : Nat :=
  ((List.range n).map fun k => (s.mem.read (off + k)).toNat * 256 ^ k).sum

/-- `sext_32` of the low 32 bits of an integer, as a 64-bit value (R9, R173). -/
def wordResult (v : Int) : Word := BitVec.ofInt 64 (v.bmod (2 ^ 32))

/-- An instruction is encoded by a word: the core reads it as that instruction, and the word is in the row
of its mnemonic in the opcode table (R93). -/
def Encodes (w : InstrWord) (i : Instr) : Prop := decode w = i ∧ i.mnemonic.matchesWord w = true

/-- The effect of `i` on every state writes `rd` with a value of the sources, and nothing else (R170). -/
def Computes (i : Instr) (rd : RegIdx) (value : State → Word) : Prop :=
  ∀ s, ∃ t, exec i s = .next t ∧ s.RegWrite t rd (value s)

/-- The effect of a load of `n` bytes from `x[rs1] + imm` (R260): a misaligned address and then an
out-of-range one fault and change nothing else; any other writes `rd` with the value of the bytes,
sign-extended or not. -/
def Loads (i : Instr) (rd rs1 : RegIdx) (imm : BitVec 12) (n : Nat) (signed : Bool) : Prop :=
  ∀ s : State,
    let ea := BitVec.ofInt 64 ((s.reg rs1).toInt + imm.toInt)
    let off := (ea - s.cfg.loadBase).toNat
    ∃ t, exec i s = .next t ∧
      if ea.toNat % n ≠ 0 then s.FaultWrite t (.misaligned ea n)
      else if s.cfg.capacity < off + n then s.FaultWrite t (.outOfBounds ea n)
      else s.RegWrite t rd (if signed then BitVec.ofInt 64 (Int.bmod (s.bytesValue off n) (2 ^ (8 * n)))
        else BitVec.ofNat 64 (s.bytesValue off n))

/-- The effect of a store of the low `8n` bits of `x[rs2]` at `x[rs1] + imm` (R260), from a state whose
memory is in canonical form. -/
def Stores (i : Instr) (rs1 rs2 : RegIdx) (imm : BitVec 12) (n : Nat) : Prop :=
  ∀ s : State, s.mem.wf = true →
    let ea := BitVec.ofInt 64 ((s.reg rs1).toInt + imm.toInt)
    let off := (ea - s.cfg.loadBase).toNat
    ∃ t, exec i s = .next t ∧
      if ea.toNat % n ≠ 0 then s.FaultWrite t (.misaligned ea n)
      else if s.cfg.capacity < off + n then s.FaultWrite t (.outOfBounds ea n)
      else s.BytesWrite t off n (s.reg rs2)

/-- The effect of a branch: `pc <- d.addr + offset` when `taken`, else nothing at all (R230). -/
def Branches (i : Instr) (offset : BitVec 13) (taken : State → Prop) : Prop :=
  ∀ s d, s.dl = some d → ∃ t, exec i s = .next t ∧
    (taken s → s.PcWrite t (BitVec.ofInt 64 (d.addr.toNat + offset.toInt))) ∧
    (¬ taken s → s.PcWrite t s.pc)

/-- The destination register of an instruction, if it has one (R170, R230, R260). -/
def destOf : Instr → Option RegIdx
  | .lui rd _ | .auipc rd _ => some rd
  | .addi rd _ _ | .slti rd _ _ | .sltiu rd _ _ | .xori rd _ _ | .ori rd _ _ | .andi rd _ _ => some rd
  | .slli rd _ _ | .srli rd _ _ | .srai rd _ _ => some rd
  | .add rd _ _ | .sub rd _ _ | .sll rd _ _ | .slt rd _ _ | .sltu rd _ _ => some rd
  | .xor rd _ _ | .srl rd _ _ | .sra rd _ _ | .or rd _ _ | .and rd _ _ => some rd
  | .addiw rd _ _ | .slliw rd _ _ | .srliw rd _ _ | .sraiw rd _ _ => some rd
  | .addw rd _ _ | .subw rd _ _ | .sllw rd _ _ | .srlw rd _ _ | .sraw rd _ _ => some rd
  | .jal rd _ | .jalr rd _ _ => some rd
  | .lb rd _ _ | .lh rd _ _ | .lw rd _ _ | .ld rd _ _ | .lbu rd _ _ | .lhu rd _ _ | .lwu rd _ _ => some rd
  | .emptyFetch | .beq .. | .bne .. | .blt .. | .bge .. | .bltu .. | .bgeu .. => none
  | .sb .. | .sh .. | .sw .. | .sd .. | .fence .. | .ecall | .ebreak | .illegal _ => none

/-- The control-transfer instructions, the only ones whose effect writes `pc` (R230). -/
def isControl : Instr → Bool
  | .jal .. | .jalr .. | .beq .. | .bne .. | .blt .. | .bge .. | .bltu .. | .bgeu .. => true
  | _ => false

/-- A branch that is not taken from a state: its comparison does not hold there (R233 to R238). -/
def State.untakenBranch (s : State) : Instr → Prop
  | .beq rs1 rs2 _ => s.reg rs1 ≠ s.reg rs2
  | .bne rs1 rs2 _ => s.reg rs1 = s.reg rs2
  | .blt rs1 rs2 _ => ¬ (s.reg rs1).toInt < (s.reg rs2).toInt
  | .bge rs1 rs2 _ => ¬ (s.reg rs2).toInt ≤ (s.reg rs1).toInt
  | .bltu rs1 rs2 _ => ¬ (s.reg rs1).toNat < (s.reg rs2).toNat
  | .bgeu rs1 rs2 _ => ¬ (s.reg rs2).toNat ≤ (s.reg rs1).toNat
  | _ => False

/-- The bytes a store writes from a state: the offset of its effective address, as its meaning computes it,
and its width. Every other instruction stores nothing. -/
def storeRange (s : State) : Instr → Option (Nat × Nat)
  | .sb rs1 _ imm => some (s.offset (s.storeAddress rs1 imm), 1)
  | .sh rs1 _ imm => some (s.offset (s.storeAddress rs1 imm), 2)
  | .sw rs1 _ imm => some (s.offset (s.storeAddress rs1 imm), 4)
  | .sd rs1 _ imm => some (s.offset (s.storeAddress rs1 imm), 8)
  | _ => none

/-- The instructions whose effect can raise a fault: loads, stores, EBREAK and ILLEGAL (R311). -/
def mayFault : Instr → Bool
  | .lb .. | .lh .. | .lw .. | .ld .. | .lbu .. | .lhu .. | .lwu .. => true
  | .sb .. | .sh .. | .sw .. | .sd .. | .ebreak | .illegal _ => true
  | _ => false

/-! ### The cycle -/

/-- A fetch at `s.pc` succeeds and reads `w`: the address is a multiple of 4, the four bytes are inside the
image, and they are the little-endian bytes of `w` (R132). -/
def State.Fetches (s : State) (w : InstrWord) : Prop :=
  s.pc.toNat % 4 = 0 ∧ s.offset s.pc + 4 ≤ s.cfg.capacity ∧
    ∀ k, k < 4 → (s.mem.read (s.offset s.pc + k)).toNat = w.toNat / 256 ^ k % 256

/-- The snapshots a cycle emits for the instruction `i`: one when the trace flag is on and `i` is of the
call/return class, with the advanced pc and with `x[0] = 0` (R137). -/
def State.snapshots (s : State) (i : Instr) : List Event :=
  if s.trace = true ∧ i.mnemonic ∈ s.cfg.callReturnClass then [.snapshot (s.pc + 4) (s.x.set 0 0)] else []

/-- The state in which the effect of the fetched word `w` runs: `x[0]` zero, the latches filled, the pc
advanced and the snapshot taken (R142). -/
def State.atEffect (s : State) (w : InstrWord) : State :=
  { s with
    x := s.x.set 0 0
    fl := { word := w, addr := s.pc }
    pc := s.pc + 4
    dl := some { mn := (decode w).mnemonic, addr := s.pc, word := w }
    events := s.events ++ s.snapshots (decode w) }

/-- The state at the end of the cycle whose effect ended in `t`: as it stands after a raise (R312), else
retired and counted, with the halt flag set for a mnemonic of the halt class (R139, R140, R141). -/
def State.afterCycle (t : State) (i : Instr) : State :=
  match t.fault with
  | some _ => t
  | none =>
    { t with
      dl := none
      count := t.count + 1
      halted := t.halted || decide (i.mnemonic ∈ t.cfg.haltClass) }

/-- The invariant of the machine: what every step keeps, from any state that has it. -/
structure State.Inv (s : State) : Prop where
  /-- The parameters keep the constraints of R8. -/
  cfgValid : s.cfg.Valid
  /-- Memory is in canonical form. -/
  memCanonical : s.mem.wf = true
  /-- Memory has no byte outside the image (R26). -/
  memBounded : ∀ c ∈ s.mem, c.1 < s.cfg.capacity
  /-- The decode latch is empty at every cycle boundary that is not a fault (R144). -/
  latchEmpty : s.fault = none → s.dl = none
  /-- A descriptor left in the latch by a fault is the one decode made of the fetch latch (R313). -/
  latchDescriptor : ∀ d, s.dl = some d → d = s.fl.descriptor Decoder.rv64i ∧ s.fl.word ≠ 0#32
  /-- Every snapshot shows `x[0] = 0` (R348). -/
  snapshotsZero : ∀ pc x, Event.snapshot pc x ∈ s.events → x[0] = 0
  /-- No access of the reference profile has a bad size (R51). -/
  noBadSize : ∀ va n, s.fault ≠ some (.badSize va n)
  /-- An illegal-instruction fault names a non-zero word no row matches (R293). -/
  illegalWord : ∀ w a, s.fault = some (.illegalInstruction w a) → w ≠ 0#32 ∧ decodeRow w = none

/-- The launch premises NoFault, NotHalted, LatchEmpty, CountZero, NoEvents, StackSet and AtEntry (R345). -/
structure State.Launch (s : State) (entryPc : Word) : Prop where
  noFault : s.fault = none
  notHalted : s.halted = false
  latchIsEmpty : s.dl = none
  countZero : s.count = 0
  noEvents : s.events = []
  stackSet : s.reg 2 = s.cfg.loadBase + BitVec.ofNat 64 s.cfg.capacity
  atEntry : s.pc = entryPc

end Sys2Proof.Machine
end

