-- ==== Sys2Proof/Certificates/Slice0/Obligations.lean ====
section
/-!
DEFINITION. The statements for the provers. Each docstring names the rules of spec/ the statement
formalises. Results are stated with integer arithmetic and bit reads, not with the operations of the model.
-/

open Sys2Proof Sys2Proof.Machine

/-! ### Encoding -/

/-- Decoding the word of any well-formed instruction gives the instruction back (R94 to R105). -/
def Obligations.DecodeEncodeRoundTrip : Prop :=
  ∀ i : Instr, i.wf = true → decode (encode i) = i

/-- Every 32-bit word has one meaning: it decodes to a well-formed instruction whose word it is (R92, R93). -/
def Obligations.EncodeDecodeRoundTrip : Prop :=
  ∀ w : InstrWord, (decode w).wf = true ∧ encode (decode w) = w

/-- The word space divides into the empty word, the words that match exactly one row of the opcode table, and
every other word, which decodes to ILLEGAL (R93). -/
def Obligations.WordClassesPartition : Prop :=
  ∀ w : InstrWord,
    (w = 0#32 → decode w = .emptyFetch ∧ decoder w = .illegal w) ∧
    (∀ m : Mnemonic, m.matchesWord w = true → (decode w).mnemonic = m) ∧
    ((∀ m : Mnemonic, m.matchesWord w = false) → w ≠ 0#32 ∧ decode w = .illegal w) ∧
    ((decode w).mnemonic ≠ .illegal → (decode w).mnemonic.matchesWord w = true)

/-- The encodings R104 lists decode to ILLEGAL: every major opcode outside the map (A, F, D, Q, V, custom,
and every word that is not empty and whose two low bits are not 11), M, FENCE.I, the SYSTEM words other than
two, and the all-ones word (R102, R104). -/
def Obligations.OutsideProfileIsIllegal : Prop :=
  ∀ w : InstrWord, w ≠ 0#32 →
    (opcodeOf w ∉ [0b0000011#7, 0b0001111#7, 0b0010011#7, 0b0010111#7, 0b0011011#7, 0b0100011#7, 0b0110011#7,
        0b0110111#7, 0b0111011#7, 0b1100011#7, 0b1100111#7, 0b1101111#7, 0b1110011#7] → decode w = .illegal w) ∧
    (w.extractLsb' 0 2 ≠ 0b11#2 → decode w = .illegal w) ∧
    ((opcodeOf w = 0b0110011#7 ∨ opcodeOf w = 0b0111011#7) → funct7Of w = 0b0000001#7 → decode w = .illegal w) ∧
    (opcodeOf w = 0b0001111#7 → funct3Of w ≠ 0b000#3 → decode w = .illegal w) ∧
    (opcodeOf w = 0b1110011#7 → w ≠ 0x00000073#32 → w ≠ 0x00100073#32 → decode w = .illegal w) ∧
    (w = 0xFFFFFFFF#32 → decode w = .illegal w) ∧
    ((∀ m : Mnemonic, m.matchesWord w = false) → decode w = .illegal w) ∧
    (∀ s : State, ∃ t, exec (.illegal w) s = .next t ∧ s.FaultWrite t (.illegalInstruction w s.instrAddr))

/-- The immediates of the I, S, B, U and J formats as signed numbers of the word's fields, and the ranges the
spec gives them (R96 to R100). -/
def Obligations.ImmediateValues : Prop :=
  ∀ w : InstrWord,
    (immI (imm12IOf w)).toInt =
      (w.extractLsb' 20 11).toNat - 2048 * (w.extractLsb' 31 1).toNat ∧
    (immS (imm12SOf w)).toInt =
      32 * (w.extractLsb' 25 6).toNat + (w.extractLsb' 7 5).toNat - 2048 * (w.extractLsb' 31 1).toNat ∧
    (immB (offset13Of w)).toInt =
      2048 * (w.extractLsb' 7 1).toNat + 32 * (w.extractLsb' 25 6).toNat + 2 * (w.extractLsb' 8 4).toNat -
        4096 * (w.extractLsb' 31 1).toNat ∧
    (immU (imm20Of w)).toInt =
      4096 * (w.extractLsb' 12 19).toNat - 2147483648 * (w.extractLsb' 31 1).toNat ∧
    (immJ (offset21Of w)).toInt =
      4096 * (w.extractLsb' 12 8).toNat + 2048 * (w.extractLsb' 20 1).toNat + 2 * (w.extractLsb' 21 10).toNat -
        1048576 * (w.extractLsb' 31 1).toNat ∧
    (-2048 ≤ (immI (imm12IOf w)).toInt ∧ (immI (imm12IOf w)).toInt ≤ 2047) ∧
    (-2048 ≤ (immS (imm12SOf w)).toInt ∧ (immS (imm12SOf w)).toInt ≤ 2047) ∧
    (-4096 ≤ (immB (offset13Of w)).toInt ∧ (immB (offset13Of w)).toInt ≤ 4094) ∧
    (immB (offset13Of w)).toInt % 2 = 0 ∧
    (-1048576 ≤ (immJ (offset21Of w)).toInt ∧ (immJ (offset21Of w)).toInt ≤ 1048574) ∧
    (immJ (offset21Of w)).toInt % 2 = 0

/-- Seven words of the spec's decode table (95_test_vectors section 2.3), and the example word of SD
(`sd x2, -8(x1)`, R271 and 95_test_vectors section 2.6), decode to what the spec says. -/
def Obligations.SpecWordsDecode : Prop :=
  decode 0x00000000#32 = .emptyFetch ∧
  decode 0x000000B3#32 = .add 1 0 0 ∧
  decode 0x0000006F#32 = .jal 0 0 ∧
  decode 0x00008067#32 = .jalr 0 1 0 ∧
  decode 0x4200D013#32 = .srai 0 1 32 ∧
  decode 0xFE20BC23#32 = .sd 1 2 0xFF8 ∧
  decode 0x0200101B#32 = .illegal 0x0200101B#32 ∧
  decode 0x10500073#32 = .illegal 0x10500073#32

/-! ### Integer computation -/

/-- LUI and AUIPC (R174, R175). -/
def Obligations.UpperImmediateResults : Prop :=
  ∀ (rd : RegIdx) (imm20 : BitVec 20),
    Encodes (imm20 ++ rd ++ 0b0110111#7 : InstrWord) (.lui rd imm20) ∧
    Encodes (imm20 ++ rd ++ 0b0010111#7 : InstrWord) (.auipc rd imm20) ∧
    Computes (.lui rd imm20) rd (fun _ => BitVec.ofInt 64 (4096 * imm20.toInt)) ∧
    Computes (.auipc rd imm20) rd
      (fun s => BitVec.ofInt 64 (s.instrAddr.toNat + 4096 * imm20.toInt)) ∧
    (∀ (s : State) (d : Descriptor), s.dl = some d → s.instrAddr = d.addr)

/-- ADDI, ADD and SUB wrap modulo 2^64 (R176, R185, R186). -/
def Obligations.AddSubResults : Prop :=
  ∀ (rd rs1 rs2 : RegIdx) (imm : BitVec 12),
    Encodes (imm ++ rs1 ++ 0b000#3 ++ rd ++ 0b0010011#7 : InstrWord) (.addi rd rs1 imm) ∧
    Encodes (0b0000000#7 ++ rs2 ++ rs1 ++ 0b000#3 ++ rd ++ 0b0110011#7 : InstrWord) (.add rd rs1 rs2) ∧
    Encodes (0b0100000#7 ++ rs2 ++ rs1 ++ 0b000#3 ++ rd ++ 0b0110011#7 : InstrWord) (.sub rd rs1 rs2) ∧
    Computes (.addi rd rs1 imm) rd (fun s => BitVec.ofInt 64 ((s.reg rs1).toInt + imm.toInt)) ∧
    Computes (.add rd rs1 rs2) rd (fun s => BitVec.ofNat 64 ((s.reg rs1).toNat + (s.reg rs2).toNat)) ∧
    Computes (.sub rd rs1 rs2) rd (fun s => BitVec.ofInt 64 ((s.reg rs1).toNat - (s.reg rs2).toNat))

/-- SLTI, SLTIU, SLT and SLTU; SLTIU compares with the sign-extended immediate read as unsigned (R177, R178,
R188, R189). -/
def Obligations.SetLessResults : Prop :=
  ∀ (rd rs1 rs2 : RegIdx) (imm : BitVec 12),
    Encodes (imm ++ rs1 ++ 0b010#3 ++ rd ++ 0b0010011#7 : InstrWord) (.slti rd rs1 imm) ∧
    Encodes (imm ++ rs1 ++ 0b011#3 ++ rd ++ 0b0010011#7 : InstrWord) (.sltiu rd rs1 imm) ∧
    Encodes (0b0000000#7 ++ rs2 ++ rs1 ++ 0b010#3 ++ rd ++ 0b0110011#7 : InstrWord) (.slt rd rs1 rs2) ∧
    Encodes (0b0000000#7 ++ rs2 ++ rs1 ++ 0b011#3 ++ rd ++ 0b0110011#7 : InstrWord) (.sltu rd rs1 rs2) ∧
    Computes (.slti rd rs1 imm) rd (fun s => if (s.reg rs1).toInt < imm.toInt then 1 else 0) ∧
    Computes (.sltiu rd rs1 imm) rd
      (fun s => if ((s.reg rs1).toNat : Int) < imm.toInt % 2 ^ 64 then 1 else 0) ∧
    Computes (.slt rd rs1 rs2) rd (fun s => if (s.reg rs1).toInt < (s.reg rs2).toInt then 1 else 0) ∧
    Computes (.sltu rd rs1 rs2) rd (fun s => if (s.reg rs1).toNat < (s.reg rs2).toNat then 1 else 0)

/-- XORI, ORI and ANDI, bit by bit: bits 11 and up of the immediate operand are its bit 11 (R179 to R181). -/
def Obligations.LogicImmediateResults : Prop :=
  ∀ (rd rs1 : RegIdx) (imm : BitVec 12),
    Encodes (imm ++ rs1 ++ 0b100#3 ++ rd ++ 0b0010011#7 : InstrWord) (.xori rd rs1 imm) ∧
    Encodes (imm ++ rs1 ++ 0b110#3 ++ rd ++ 0b0010011#7 : InstrWord) (.ori rd rs1 imm) ∧
    Encodes (imm ++ rs1 ++ 0b111#3 ++ rd ++ 0b0010011#7 : InstrWord) (.andi rd rs1 imm) ∧
    ∀ s : State,
      (∃ t, exec (.xori rd rs1 imm) s = .next t ∧ s.RegWrite t rd (t.reg rd) ∧
        ∀ k < 64, (t.reg rd).getLsbD k = ((s.reg rs1).getLsbD k ^^ imm.getLsbD (min k 11))) ∧
      (∃ t, exec (.ori rd rs1 imm) s = .next t ∧ s.RegWrite t rd (t.reg rd) ∧
        ∀ k < 64, (t.reg rd).getLsbD k = ((s.reg rs1).getLsbD k || imm.getLsbD (min k 11))) ∧
      (∃ t, exec (.andi rd rs1 imm) s = .next t ∧ s.RegWrite t rd (t.reg rd) ∧
        ∀ k < 64, (t.reg rd).getLsbD k = ((s.reg rs1).getLsbD k && imm.getLsbD (min k 11)))

/-- SLLI, SRLI and SRAI; any other funct6 is ILLEGAL (R182 to R184). -/
def Obligations.ShiftImmediateResults : Prop :=
  ∀ (rd rs1 : RegIdx) (shamt : BitVec 6),
    Encodes (0b000000#6 ++ shamt ++ rs1 ++ 0b001#3 ++ rd ++ 0b0010011#7 : InstrWord) (.slli rd rs1 shamt) ∧
    Encodes (0b000000#6 ++ shamt ++ rs1 ++ 0b101#3 ++ rd ++ 0b0010011#7 : InstrWord) (.srli rd rs1 shamt) ∧
    Encodes (0b010000#6 ++ shamt ++ rs1 ++ 0b101#3 ++ rd ++ 0b0010011#7 : InstrWord) (.srai rd rs1 shamt) ∧
    Computes (.slli rd rs1 shamt) rd (fun s => BitVec.ofNat 64 ((s.reg rs1).toNat * 2 ^ shamt.toNat)) ∧
    Computes (.srli rd rs1 shamt) rd (fun s => BitVec.ofNat 64 ((s.reg rs1).toNat / 2 ^ shamt.toNat)) ∧
    Computes (.srai rd rs1 shamt) rd (fun s => BitVec.ofInt 64 ((s.reg rs1).toInt / 2 ^ shamt.toNat)) ∧
    (∀ f6 : BitVec 6, f6 ≠ 0b000000#6 →
      let w : InstrWord := f6 ++ shamt ++ rs1 ++ 0b001#3 ++ rd ++ 0b0010011#7
      decode w = .illegal w) ∧
    (∀ f6 : BitVec 6, f6 ≠ 0b000000#6 → f6 ≠ 0b010000#6 →
      let w : InstrWord := f6 ++ shamt ++ rs1 ++ 0b101#3 ++ rd ++ 0b0010011#7
      decode w = .illegal w)

/-- SLL, SRL and SRA use the low 6 bits of `x[rs2]` (R172, R187, R191, R192). -/
def Obligations.ShiftRegisterResults : Prop :=
  ∀ rd rs1 rs2 : RegIdx,
    Encodes (0b0000000#7 ++ rs2 ++ rs1 ++ 0b001#3 ++ rd ++ 0b0110011#7 : InstrWord) (.sll rd rs1 rs2) ∧
    Encodes (0b0000000#7 ++ rs2 ++ rs1 ++ 0b101#3 ++ rd ++ 0b0110011#7 : InstrWord) (.srl rd rs1 rs2) ∧
    Encodes (0b0100000#7 ++ rs2 ++ rs1 ++ 0b101#3 ++ rd ++ 0b0110011#7 : InstrWord) (.sra rd rs1 rs2) ∧
    Computes (.sll rd rs1 rs2) rd
      (fun s => BitVec.ofNat 64 ((s.reg rs1).toNat * 2 ^ ((s.reg rs2).toNat % 64))) ∧
    Computes (.srl rd rs1 rs2) rd
      (fun s => BitVec.ofNat 64 ((s.reg rs1).toNat / 2 ^ ((s.reg rs2).toNat % 64))) ∧
    Computes (.sra rd rs1 rs2) rd
      (fun s => BitVec.ofInt 64 ((s.reg rs1).toInt / 2 ^ ((s.reg rs2).toNat % 64)))

/-- XOR, OR and AND, bit by bit (R190, R193, R194). -/
def Obligations.LogicRegisterResults : Prop :=
  ∀ rd rs1 rs2 : RegIdx,
    Encodes (0b0000000#7 ++ rs2 ++ rs1 ++ 0b100#3 ++ rd ++ 0b0110011#7 : InstrWord) (.xor rd rs1 rs2) ∧
    Encodes (0b0000000#7 ++ rs2 ++ rs1 ++ 0b110#3 ++ rd ++ 0b0110011#7 : InstrWord) (.or rd rs1 rs2) ∧
    Encodes (0b0000000#7 ++ rs2 ++ rs1 ++ 0b111#3 ++ rd ++ 0b0110011#7 : InstrWord) (.and rd rs1 rs2) ∧
    ∀ s : State,
      (∃ t, exec (.xor rd rs1 rs2) s = .next t ∧ s.RegWrite t rd (t.reg rd) ∧
        ∀ k < 64, (t.reg rd).getLsbD k = ((s.reg rs1).getLsbD k ^^ (s.reg rs2).getLsbD k)) ∧
      (∃ t, exec (.or rd rs1 rs2) s = .next t ∧ s.RegWrite t rd (t.reg rd) ∧
        ∀ k < 64, (t.reg rd).getLsbD k = ((s.reg rs1).getLsbD k || (s.reg rs2).getLsbD k)) ∧
      (∃ t, exec (.and rd rs1 rs2) s = .next t ∧ s.RegWrite t rd (t.reg rd) ∧
        ∀ k < 64, (t.reg rd).getLsbD k = ((s.reg rs1).getLsbD k && (s.reg rs2).getLsbD k))

/-- ADDIW, SLLIW, SRLIW and SRAIW: the low 32 bits of the exact result, sign-extended; a shift with any other
funct7, every one with bit 25 set among them, is ILLEGAL (R195 to R198). -/
def Obligations.WordImmediateResults : Prop :=
  ∀ (rd rs1 : RegIdx) (imm : BitVec 12) (shamt : BitVec 5),
    Encodes (imm ++ rs1 ++ 0b000#3 ++ rd ++ 0b0011011#7 : InstrWord) (.addiw rd rs1 imm) ∧
    Encodes (0b0000000#7 ++ shamt ++ rs1 ++ 0b001#3 ++ rd ++ 0b0011011#7 : InstrWord) (.slliw rd rs1 shamt) ∧
    Encodes (0b0000000#7 ++ shamt ++ rs1 ++ 0b101#3 ++ rd ++ 0b0011011#7 : InstrWord) (.srliw rd rs1 shamt) ∧
    Encodes (0b0100000#7 ++ shamt ++ rs1 ++ 0b101#3 ++ rd ++ 0b0011011#7 : InstrWord) (.sraiw rd rs1 shamt) ∧
    (∀ f7 : BitVec 7, f7 ≠ 0b0000000#7 →
      let w : InstrWord := f7 ++ shamt ++ rs1 ++ 0b001#3 ++ rd ++ 0b0011011#7
      decode w = .illegal w) ∧
    (∀ f7 : BitVec 7, f7 ≠ 0b0000000#7 → f7 ≠ 0b0100000#7 →
      let w : InstrWord := f7 ++ shamt ++ rs1 ++ 0b101#3 ++ rd ++ 0b0011011#7
      decode w = .illegal w) ∧
    (∀ w : InstrWord, opcodeOf w = 0b0011011#7 → funct3Of w = 0b001#3 ∨ funct3Of w = 0b101#3 →
      w.getLsbD 25 = true → decode w = .illegal w) ∧
    Computes (.addiw rd rs1 imm) rd (fun s => wordResult ((s.reg rs1).toInt + imm.toInt)) ∧
    Computes (.slliw rd rs1 shamt) rd (fun s => wordResult ((s.reg rs1).toNat * 2 ^ shamt.toNat)) ∧
    Computes (.srliw rd rs1 shamt) rd
      (fun s => wordResult ((s.reg rs1).toNat % 2 ^ 32 / 2 ^ shamt.toNat)) ∧
    Computes (.sraiw rd rs1 shamt) rd
      (fun s => wordResult (((s.reg rs1).toNat : Int).bmod (2 ^ 32) / 2 ^ shamt.toNat))

/-- ADDW, SUBW, SLLW, SRLW and SRAW: the low 32 bits of the exact result, sign-extended; the shift amount is
the low 5 bits of `x[rs2]` (R173, R199 to R203). -/
def Obligations.WordRegisterResults : Prop :=
  ∀ rd rs1 rs2 : RegIdx,
    Encodes (0b0000000#7 ++ rs2 ++ rs1 ++ 0b000#3 ++ rd ++ 0b0111011#7 : InstrWord) (.addw rd rs1 rs2) ∧
    Encodes (0b0100000#7 ++ rs2 ++ rs1 ++ 0b000#3 ++ rd ++ 0b0111011#7 : InstrWord) (.subw rd rs1 rs2) ∧
    Encodes (0b0000000#7 ++ rs2 ++ rs1 ++ 0b001#3 ++ rd ++ 0b0111011#7 : InstrWord) (.sllw rd rs1 rs2) ∧
    Encodes (0b0000000#7 ++ rs2 ++ rs1 ++ 0b101#3 ++ rd ++ 0b0111011#7 : InstrWord) (.srlw rd rs1 rs2) ∧
    Encodes (0b0100000#7 ++ rs2 ++ rs1 ++ 0b101#3 ++ rd ++ 0b0111011#7 : InstrWord) (.sraw rd rs1 rs2) ∧
    Computes (.addw rd rs1 rs2) rd (fun s => wordResult ((s.reg rs1).toNat + (s.reg rs2).toNat)) ∧
    Computes (.subw rd rs1 rs2) rd (fun s => wordResult ((s.reg rs1).toNat - (s.reg rs2).toNat)) ∧
    Computes (.sllw rd rs1 rs2) rd
      (fun s => wordResult ((s.reg rs1).toNat * 2 ^ ((s.reg rs2).toNat % 32))) ∧
    Computes (.srlw rd rs1 rs2) rd
      (fun s => wordResult ((s.reg rs1).toNat % 2 ^ 32 / 2 ^ ((s.reg rs2).toNat % 32))) ∧
    Computes (.sraw rd rs1 rs2) rd
      (fun s => wordResult (((s.reg rs1).toNat : Int).bmod (2 ^ 32) / 2 ^ ((s.reg rs2).toNat % 32)))

/-! ### Control transfer -/

/-- JAL: the target is relative to the instruction's own address and the link is that address plus 4;
the offset is even, and a target of 2 mod 4 faults at the next fetch; `jal x0, 0` leaves a state that fetches
`jal x0, 0` again (R231). -/
def Obligations.JalResult : Prop :=
  (∀ (rd : RegIdx) (b20 : BitVec 1) (b19 : BitVec 8) (b11 : BitVec 1) (b10 : BitVec 10),
    let off : BitVec 21 := b20 ++ b19 ++ b11 ++ b10 ++ 0#1
    Encodes (b20 ++ b10 ++ b11 ++ b19 ++ rd ++ 0b1101111#7 : InstrWord) (.jal rd off) ∧
    (off.toInt % 2 = 0 ∧ -1048576 ≤ off.toInt ∧ off.toInt ≤ 1048574) ∧
    ∀ s d, s.dl = some d → ∃ t, exec (.jal rd off) s = .next t ∧
      s.RegPcWrite t rd (BitVec.ofNat 64 (d.addr.toNat + 4))
        (BitVec.ofInt 64 (d.addr.toNat + off.toInt)) ∧
      ∀ u : State, u.pc = t.pc → u.fault = none → (d.addr.toNat + off.toInt) % 4 = 2 →
        ∃ v, step u = .next v ∧ v.fault = some (.misaligned t.pc 4)) ∧
  ∀ s : State, s.fault = none → s.Fetches 0x0000006F#32 → ∃ t, step s = .next t ∧ t.fault = none ∧
    t.Fetches 0x0000006F#32 ∧ (Mnemonic.jal ∉ s.cfg.haltClass → t.halted = s.halted)

/-- JALR: the target is the sum with its bit 0 cleared, computed from the old `x[rs1]`; any other funct3 of
its major opcode is ILLEGAL, and a target of 2 mod 4 faults at the next fetch (R232). -/
def Obligations.JalrResult : Prop :=
  ∀ (rd rs1 : RegIdx) (imm : BitVec 12),
    Encodes (imm ++ rs1 ++ 0b000#3 ++ rd ++ 0b1100111#7 : InstrWord) (.jalr rd rs1 imm) ∧
    (∀ f3 : BitVec 3, f3 ≠ 0b000#3 →
      let w : InstrWord := imm ++ rs1 ++ f3 ++ rd ++ 0b1100111#7
      decode w = .illegal w) ∧
    ∀ s d, s.dl = some d → ∃ t, exec (.jalr rd rs1 imm) s = .next t ∧
      s.RegPcWrite t rd (BitVec.ofNat 64 (d.addr.toNat + 4))
        (BitVec.ofInt 64 (2 * (((s.reg rs1).toInt + imm.toInt) / 2))) ∧
      ∀ u : State, u.pc = t.pc → u.fault = none → 2 ≤ ((s.reg rs1).toInt + imm.toInt) % 4 →
        ∃ v, step u = .next v ∧ v.fault = some (.misaligned t.pc 4)

/-- BEQ and BNE; the target of a taken branch that is 2 mod 4 faults at the next fetch (R233, R234). -/
def Obligations.BranchEqualResults : Prop :=
  ∀ (rs1 rs2 : RegIdx) (b12 b11 : BitVec 1) (b10 : BitVec 6) (b4 : BitVec 4),
    let off : BitVec 13 := b12 ++ b11 ++ b10 ++ b4 ++ 0#1
    Encodes (b12 ++ b10 ++ rs2 ++ rs1 ++ 0b000#3 ++ b4 ++ b11 ++ 0b1100011#7 : InstrWord) (.beq rs1 rs2 off) ∧
    Encodes (b12 ++ b10 ++ rs2 ++ rs1 ++ 0b001#3 ++ b4 ++ b11 ++ 0b1100011#7 : InstrWord) (.bne rs1 rs2 off) ∧
    (off.toInt % 2 = 0 ∧ -4096 ≤ off.toInt ∧ off.toInt ≤ 4094) ∧
    Branches (.beq rs1 rs2 off) off (fun s => s.reg rs1 = s.reg rs2) ∧
    Branches (.bne rs1 rs2 off) off (fun s => s.reg rs1 ≠ s.reg rs2) ∧
    ∀ (a : Word) (u : State), u.pc = BitVec.ofInt 64 (a.toNat + off.toInt) → u.fault = none →
      (a.toNat + off.toInt) % 4 = 2 → ∃ v, step u = .next v ∧ v.fault = some (.misaligned u.pc 4)

/-- BLT and BGE compare signed values, BLTU and BGEU unsigned ones (R235 to R238). -/
def Obligations.BranchOrderResults : Prop :=
  ∀ (rs1 rs2 : RegIdx) (b12 b11 : BitVec 1) (b10 : BitVec 6) (b4 : BitVec 4),
    let off : BitVec 13 := b12 ++ b11 ++ b10 ++ b4 ++ 0#1
    Encodes (b12 ++ b10 ++ rs2 ++ rs1 ++ 0b100#3 ++ b4 ++ b11 ++ 0b1100011#7 : InstrWord) (.blt rs1 rs2 off) ∧
    Encodes (b12 ++ b10 ++ rs2 ++ rs1 ++ 0b101#3 ++ b4 ++ b11 ++ 0b1100011#7 : InstrWord) (.bge rs1 rs2 off) ∧
    Encodes (b12 ++ b10 ++ rs2 ++ rs1 ++ 0b110#3 ++ b4 ++ b11 ++ 0b1100011#7 : InstrWord) (.bltu rs1 rs2 off) ∧
    Encodes (b12 ++ b10 ++ rs2 ++ rs1 ++ 0b111#3 ++ b4 ++ b11 ++ 0b1100011#7 : InstrWord) (.bgeu rs1 rs2 off) ∧
    Branches (.blt rs1 rs2 off) off (fun s => (s.reg rs1).toInt < (s.reg rs2).toInt) ∧
    Branches (.bge rs1 rs2 off) off (fun s => (s.reg rs2).toInt ≤ (s.reg rs1).toInt) ∧
    Branches (.bltu rs1 rs2 off) off (fun s => (s.reg rs1).toNat < (s.reg rs2).toNat) ∧
    Branches (.bgeu rs1 rs2 off) off (fun s => (s.reg rs2).toNat ≤ (s.reg rs1).toNat)

/-! ### Loads and stores -/

/-- LB, LH and LW sign-extend; a fault leaves `rd` as it was (R261 to R263). -/
def Obligations.SignedLoadResults : Prop :=
  ∀ (rd rs1 : RegIdx) (imm : BitVec 12),
    Encodes (imm ++ rs1 ++ 0b000#3 ++ rd ++ 0b0000011#7 : InstrWord) (.lb rd rs1 imm) ∧
    Encodes (imm ++ rs1 ++ 0b001#3 ++ rd ++ 0b0000011#7 : InstrWord) (.lh rd rs1 imm) ∧
    Encodes (imm ++ rs1 ++ 0b010#3 ++ rd ++ 0b0000011#7 : InstrWord) (.lw rd rs1 imm) ∧
    Loads (.lb rd rs1 imm) rd rs1 imm 1 true ∧
    Loads (.lh rd rs1 imm) rd rs1 imm 2 true ∧
    Loads (.lw rd rs1 imm) rd rs1 imm 4 true

/-- LD, LBU, LHU and LWU deliver the bytes zero-extended; funct3 111 of LOAD is ILLEGAL (R264 to R267). -/
def Obligations.UnsignedLoadResults : Prop :=
  ∀ (rd rs1 : RegIdx) (imm : BitVec 12),
    Encodes (imm ++ rs1 ++ 0b011#3 ++ rd ++ 0b0000011#7 : InstrWord) (.ld rd rs1 imm) ∧
    Encodes (imm ++ rs1 ++ 0b100#3 ++ rd ++ 0b0000011#7 : InstrWord) (.lbu rd rs1 imm) ∧
    Encodes (imm ++ rs1 ++ 0b101#3 ++ rd ++ 0b0000011#7 : InstrWord) (.lhu rd rs1 imm) ∧
    Encodes (imm ++ rs1 ++ 0b110#3 ++ rd ++ 0b0000011#7 : InstrWord) (.lwu rd rs1 imm) ∧
    decode (imm ++ rs1 ++ 0b111#3 ++ rd ++ 0b0000011#7 : InstrWord) =
      .illegal (imm ++ rs1 ++ 0b111#3 ++ rd ++ 0b0000011#7 : InstrWord) ∧
    Loads (.ld rd rs1 imm) rd rs1 imm 8 false ∧
    Loads (.lbu rd rs1 imm) rd rs1 imm 1 false ∧
    Loads (.lhu rd rs1 imm) rd rs1 imm 2 false ∧
    Loads (.lwu rd rs1 imm) rd rs1 imm 4 false

/-- SB, SH, SW and SD write the low bytes of `x[rs2]` and nothing else; a fault writes no byte; funct3 of 100
or more in STORE is ILLEGAL; the word SW stored is what a later fetch of its address reads (R268 to R271). -/
def Obligations.StoreResults : Prop :=
  ∀ (rs1 rs2 : RegIdx) (hi : BitVec 7) (lo : BitVec 5),
    let imm : BitVec 12 := hi ++ lo
    Encodes (hi ++ rs2 ++ rs1 ++ 0b000#3 ++ lo ++ 0b0100011#7 : InstrWord) (.sb rs1 rs2 imm) ∧
    Encodes (hi ++ rs2 ++ rs1 ++ 0b001#3 ++ lo ++ 0b0100011#7 : InstrWord) (.sh rs1 rs2 imm) ∧
    Encodes (hi ++ rs2 ++ rs1 ++ 0b010#3 ++ lo ++ 0b0100011#7 : InstrWord) (.sw rs1 rs2 imm) ∧
    Encodes (hi ++ rs2 ++ rs1 ++ 0b011#3 ++ lo ++ 0b0100011#7 : InstrWord) (.sd rs1 rs2 imm) ∧
    (∀ f3 : BitVec 3, 4 ≤ f3.toNat →
      let w : InstrWord := hi ++ rs2 ++ rs1 ++ f3 ++ lo ++ 0b0100011#7
      decode w = .illegal w) ∧
    Stores (.sb rs1 rs2 imm) rs1 rs2 imm 1 ∧
    Stores (.sh rs1 rs2 imm) rs1 rs2 imm 2 ∧
    Stores (.sw rs1 rs2 imm) rs1 rs2 imm 4 ∧
    Stores (.sd rs1 rs2 imm) rs1 rs2 imm 8 ∧
    ∀ s t u : State, s.mem.wf = true → s.fault = none → exec (.sw rs1 rs2 imm) s = .next t → t.fault = none →
      u.cfg = t.cfg → u.mem = t.mem → u.pc = BitVec.ofInt 64 ((s.reg rs1).toInt + imm.toInt) →
      u.Fetches ((s.reg rs2).extractLsb' 0 32)

/-! ### System instructions -/

/-- FENCE is a no-op for every value of its fields, and funct3 other than 000 in its major opcode is ILLEGAL
(R290). -/
def Obligations.FenceIsNoOperation : Prop :=
  ∀ (fm pred succ : BitVec 4) (rs1 rd : RegIdx),
    Encodes (fm ++ pred ++ succ ++ rs1 ++ 0b000#3 ++ rd ++ 0b0001111#7 : InstrWord)
      (.fence fm pred succ rs1 rd) ∧
    (∀ f3 : BitVec 3, f3 ≠ 0b000#3 →
      let w : InstrWord := fm ++ pred ++ succ ++ rs1 ++ f3 ++ rd ++ 0b0001111#7
      decode w = .illegal w) ∧
    ∀ s, exec (.fence fm pred succ rs1 rd) s = .next s

/-- ECALL, in the halt class, sets the halt flag and writes nothing else; its cycle still retires and counts,
and leaves the pc at the next instruction; the run then stops at its back edge, with the report (R291). The
class is the parameter of R141, whose reference value holds ECALL; HaltRule says what any class does. -/
def Obligations.EcallHalts : Prop :=
  Encodes 0x00000073#32 .ecall ∧
  (∀ w : InstrWord, opcodeOf w = 0b1110011#7 → w ≠ 0x00000073#32 → w ≠ 0x00100073#32 → decode w = .illegal w) ∧
  (∀ s : State, Mnemonic.ecall ∈ s.cfg.haltClass → exec .ecall s = .next { s with halted := true }) ∧
  ∀ s : State, Mnemonic.ecall ∈ s.cfg.haltClass → s.fault = none → s.Fetches 0x00000073#32 →
    ∃ t, step s = .next t ∧
    t.halted = true ∧ t.dl = none ∧ t.count = s.count + 1 ∧ t.pc = s.pc + 4 ∧ t.fault = none ∧
    t.mem = s.mem ∧ (∀ r, r ≠ 0 → t.reg r = s.reg r) ∧
    ∀ (fuel : Nat) (trace : Bool) (t0 t1 draw : Rat), s.halted = false → ∃ e,
      State.run (fuel + 1) trace t0 t1 draw s = .halted e ∧ e.pc = s.pc + 4 ∧ e.count = s.count + 1 ∧
      Event.report (t1 - t0) (s.count + 1) (mips (s.count + 1) (t1 - t0) draw) ∈ e.events

/-- EBREAK records the fault Unmodelled with its own address and changes nothing else; the cycle ends there,
not counted (R292). -/
def Obligations.EbreakStops : Prop :=
  Encodes 0x00100073#32 .ebreak ∧
  (∀ s d, s.dl = some d → exec .ebreak s = .next { s with fault := some (.unmodelled .ebreak d.addr) }) ∧
  ∀ s : State, s.fault = none → s.Fetches 0x00100073#32 → ∃ t, step s = .next t ∧
    t.fault = some (.unmodelled .ebreak s.pc) ∧ t.pc = s.pc + 4 ∧ t.count = s.count ∧
    t.halted = s.halted ∧ t.mem = s.mem ∧ ∀ r, r ≠ 0 → t.reg r = s.reg r

/-- The descriptor ILLEGAL records IllegalInstruction with its word and address, in the cycle that fetched
the word and with no snapshot, register or memory change before it (R293, with the reference class of R137). -/
def Obligations.IllegalWordFaults : Prop :=
  (∀ w s d, s.dl = some d →
    exec (.illegal w) s = .next { s with fault := some (.illegalInstruction w d.addr) }) ∧
  ∀ (s : State) (w : InstrWord), s.fault = none → s.Fetches w → w ≠ 0#32 →
    (∀ m : Mnemonic, m.matchesWord w = false) → ∃ t, step s = .next t ∧
      t.fault = some (.illegalInstruction w s.pc) ∧ t.pc = s.pc + 4 ∧ t.count = s.count ∧
      t.mem = s.mem ∧ (∀ r, r ≠ 0 → t.reg r = s.reg r) ∧ t.halted = s.halted ∧
      (Mnemonic.illegal ∉ s.cfg.callReturnClass → t.events = s.events)

/-- The empty word makes a bubble: decode does nothing, execute with the decode latch empty does nothing but the
count of step 5, and the cycle changes only `x[0]`, the fetch latch, the pc and the count (R134, R136). No
decoder is asked, so it holds for every decoder; the step is the cycle with the reference decoder. -/
def Obligations.EmptyWordIsBubble : Prop :=
  (∀ s, exec .emptyFetch s = .next s) ∧
  (∀ (D : Decoder) (s : State), s.fl.word = 0#32 → s.decodeStage D = s) ∧
  (∀ (D : Decoder) (s : State), s.dl = none → s.executeStage D = .next { s with count := s.count + 1 }) ∧
  ∀ s : State, s.fault = none → s.dl = none → s.Fetches 0#32 →
    let t : State := { s with
      x := s.x.set 0 0
      fl := { word := 0#32, addr := s.pc }
      pc := s.pc + 4
      count := s.count + 1 }
    (∀ D : Decoder, s.cycle D = .next t) ∧ step s = .next t

/-! ### Frames over all instructions -/

/-- Only its destination register is changed by an instruction's effect (R170, R230, R260). -/
def Obligations.RegisterFrame : Prop :=
  ∀ (i : Instr) (s t : State), exec i s = .next t → ∀ r, destOf i ≠ some r → t.reg r = s.reg r

/-- Only a control transfer's effect writes the pc (R143, R170, R260). -/
def Obligations.PcFrame : Prop :=
  ∀ (i : Instr) (s t : State), exec i s = .next t → isControl i = false → t.pc = s.pc

/-- Only a store's effect changes memory, and only the bytes at the offset its meaning computes (R56, R72). -/
def Obligations.MemoryFrame : Prop :=
  ∀ (i : Instr) (s t : State), s.mem.wf = true → exec i s = .next t →
    (storeRange s i = none → ∀ o, t.mem.read o = s.mem.read o) ∧
    (∀ off n, storeRange s i = some (off, n) → ∀ o, o < off ∨ off + n ≤ o → t.mem.read o = s.mem.read o)

/-- An effect reaches only registers, pc, memory, the halt flag and the fault: never the latches, the count,
the events or the configuration (R138). Only loads, stores, EBREAK and ILLEGAL raise a fault (R311). That no
effect but ECALL's sets the halt flag is the model's split (log entry 3): R141 leaves the callers of `finish()`
to the parameter `haltClass`, and for its members other than ECALL the cycle sets the flag at the end of the
effect, outside `exec`, as HaltRule states. -/
def Obligations.EffectChannel : Prop :=
  ∀ (i : Instr) (s t : State), exec i s = .next t →
    t.fl = s.fl ∧ t.dl = s.dl ∧ t.count = s.count ∧ t.events = s.events ∧ t.cfg = s.cfg ∧ t.trace = s.trace ∧
    (i ≠ .ecall → t.halted = s.halted) ∧ (mayFault i = false → t.fault = s.fault)

/-! ### Memory -/

/-- The translator checks size, then alignment of the virtual address, then bounds, and the first that fails
names the fault, before any byte is read or written (R51 to R54). -/
def Obligations.TranslatorChecks : Prop :=
  ∀ (s : State) (va : Word) (n : Nat),
    let off := (va - s.cfg.loadBase).toNat
    (s.translate va n =
      if n ≠ 1 ∧ n ≠ 2 ∧ n ≠ 4 ∧ n ≠ 8 then .error (.badSize va n)
      else if va.toNat % n ≠ 0 then .error (.misaligned va n)
      else if s.cfg.capacity < off + n then .error (.outOfBounds va n)
      else .ok off) ∧
    ∀ f, s.translate va n = .error f → s.memRead va n = .error f ∧ ∀ v, s.memWrite va n v = .error f

/-- The load unit returns exactly the bytes at the translated address, zero-extended, lowest byte first, and
never a value where the translator faults (R55, R57, R58). -/
def Obligations.LoadUnitValue : Prop :=
  ∀ (s : State) (va : Word) (n : Nat),
    (∀ off, s.translate va n = .ok off → s.memRead va n = .ok (BitVec.ofNat 64 (s.bytesValue off n)) ∧
      s.bytesValue off n < 2 ^ (8 * n)) ∧
    (∀ f, s.translate va n = .error f → s.memRead va n = .error f)

/-- The store unit writes exactly the bytes at the translated address and no other, and nothing where the
translator faults (R56). -/
def Obligations.StoreUnitEffect : Prop :=
  ∀ (s : State) (va : Word) (n : Nat) (v : Word), s.mem.wf = true →
    (∀ off, s.translate va n = .ok off → ∃ t, s.memWrite va n v = .ok t ∧ s.BytesWrite t off n v) ∧
    (∀ f, s.translate va n = .error f → s.memWrite va n v = .error f)

/-- The round-trip law: an aligned access of a legal size in bounds is stored, and a load after it at the same
address returns the value masked to its low `8n` bits; a bad size or a misaligned address fails both (R57). -/
def Obligations.StoreLoadRoundTrip : Prop :=
  ∀ (s : State) (va : Word) (n : Nat) (v : Word), s.mem.wf = true →
    (n ∈ [1, 2, 4, 8] → va.toNat % n = 0 → s.offset va + n ≤ s.cfg.capacity →
      ∃ t, s.memWrite va n v = .ok t ∧ t.memRead va n = .ok (BitVec.ofNat 64 (v.toNat % 2 ^ (8 * n)))) ∧
    ((n ∉ [1, 2, 4, 8] ∨ va.toNat % n ≠ 0) →
      (∃ f, s.memWrite va n v = .error f) ∧ ∃ f, s.memRead va n = .error f)

/-- A narrower load inside a wider store reads the bits of the value at that place: `k` bytes up, bits
`8k` and above (R58). -/
def Obligations.NarrowLoadOfWideStore : Prop :=
  ∀ (s t : State) (va : Word) (n m k : Nat) (v : Word), s.cfg.Valid → s.mem.wf = true →
    s.memWrite va n v = .ok t → k + m ≤ n → m ∈ [1, 2, 4, 8] → k % m = 0 →
    t.memRead (va + BitVec.ofNat 64 k) m = .ok (BitVec.ofNat 64 (v.toNat / 2 ^ (8 * k) % 2 ^ (8 * m)))

/-- Two memories in canonical form that read the same at every offset are the same memory, and a store keeps
the form. The canonical form is the model's own (R26 gives the array it stands for). -/
def Obligations.MemoryCanonicalForm : Prop :=
  (∀ m n : Memory, m.wf = true → n.wf = true → (∀ a, m.read a = n.read a) → m = n) ∧
  ∀ (m : Memory) (off n : Nat) (v : Word), m.wf = true → (m.writeLE off n v).wf = true

/-! ### The cycle -/

/-- A step runs the decoded instruction: where a fetch reads a non-empty word, the step is the effect of what
it decodes to, in the state with `x[0]` zero, the latches filled, the pc advanced and the snapshot taken, and
then the retire and the count (R142). That `afterCycle` sets the halt flag for a mnemonic of the halt class at
the end of the cycle is the model's reading of R141 (log entry 3, DEDUCED, unsafe). -/
def Obligations.StepRunsDecodedInstruction : Prop :=
  ∀ (s : State) (w : InstrWord) (i : Instr), s.fault = none → s.Fetches w → w ≠ 0#32 → decode w = i →
    step s = match exec i (s.atEffect w) with
      | .next t => .next (t.afterCycle i)
      | .fault f => .fault f
      | .refused r => .refused r

/-- Every step of a state with no fault answers a next state, and a step of a state that holds a fault stops
with it: `Cycle` is defined only for states with no fault, and does not test the halt flag (R145, R312). -/
def Obligations.StepAnswersUnlessFaulted : Prop :=
  ∀ s : State, (∀ f, s.fault = some f → step s = .fault f) ∧ (s.fault = none → ∃ t, step s = .next t)

/-- A fetch at a misaligned pc, or at one outside the image, faults with the pc as its address and leaves
the pc, both latches, memory, the other registers and the count as they were (R132, R313). -/
def Obligations.FetchFaultState : Prop :=
  ∀ s : State, s.fault = none →
    (s.pc.toNat % 4 ≠ 0 →
      step s = .next { s with x := s.x.set 0 0, fault := some (.misaligned s.pc 4) }) ∧
    (s.pc.toNat % 4 = 0 → s.cfg.capacity < (s.pc - s.cfg.loadBase).toNat + 4 →
      step s = .next { s with x := s.x.set 0 0, fault := some (.outOfBounds s.pc 4) })

/-- After a fault raised in the execute stage the pc is the instruction's address plus 4, both latches hold
the instruction, and the registers (but `x[0] = 0`), memory, count and halt flag are as they were (R313). -/
def Obligations.ExecuteFaultState : Prop :=
  ∀ (s t : State) (w : InstrWord) (f : Fault), s.fault = none → s.Fetches w → w ≠ 0#32 →
    step s = .next t → t.fault = some f →
    t.pc = s.pc + 4 ∧ t.fl = { word := w, addr := s.pc } ∧
    t.dl = some { mn := (decode w).mnemonic, addr := s.pc, word := w } ∧ t.reg 0 = 0 ∧
    (∀ r, r ≠ 0 → t.reg r = s.reg r) ∧ t.mem = s.mem ∧ t.count = s.count ∧ t.halted = s.halted

/-- The count goes up by one in every cycle that completes, bubbles and the halting cycle included, and not
in one that faults (R140, R312). -/
def Obligations.CountRule : Prop :=
  ∀ s t : State, step s = .next t →
    (t.fault = none → t.count = s.count + 1) ∧ (t.fault ≠ none → t.count = s.count)

/-- A cycle emits one snapshot, with the advanced pc and the registers before the effect, exactly when the
trace flag is on and the instruction is of the call/return class; it emits nothing else (R137). -/
def Obligations.SnapshotRule : Prop :=
  ∀ (s t : State) (w : InstrWord), s.fault = none → s.dl = none → s.Fetches w → step s = .next t →
    t.events = s.events ++ (if w ≠ 0#32 ∧ s.trace = true ∧ (decode w).mnemonic ∈ s.cfg.callReturnClass
      then [.snapshot (s.pc + 4) (s.x.set 0 0)] else [])

/-- A cycle that completes sets the halt flag exactly when its instruction is of the halt class, whichever
mnemonics the host has put in it, and no cycle clears it (R30, R141). That a member other than ECALL sets it at
the end of its effect, and that the class alone decides, are the model's (log entries 3 and 22). -/
def Obligations.HaltRule : Prop :=
  ∀ (s t : State) (w : InstrWord), s.fault = none → s.dl = none → s.Fetches w →
    step s = .next t → t.fault = none →
    t.dl = none ∧ t.count = s.count + 1 ∧
    (t.halted = true ↔ s.halted = true ∨ (w ≠ 0#32 ∧ (decode w).mnemonic ∈ s.cfg.haltClass))

/-- No instruction can read what the previous one left in `x[0]`: whatever the cell holds at the start of a
cycle, the cycle ends the same (R23, R348). -/
def Obligations.TransientZeroUnobservable : Prop :=
  ∀ (s : State) (v : Word), s.fault = none → step (s.setReg 0 v) = step s

/-- The stale fetch latch is never decoded: whatever it holds at the start of a cycle, a cycle whose fetch
succeeds ends the same (R350). -/
def Obligations.StaleFetchLatchUnobservable : Prop :=
  ∀ (s : State) (w : InstrWord) (l : FetchLatch), s.fault = none → s.Fetches w →
    step { s with fl := l } = step s

/-- A cycle that does not transfer control, or whose branch is not taken, leaves the pc at the next
instruction; no delay slot (R25, R133, R143). The condition of a branch is read where its effect reads it, with
`x[0]` zero. -/
def Obligations.SequentialPc : Prop :=
  ∀ (s t : State) (w : InstrWord), s.fault = none → s.dl = none → s.Fetches w →
    isControl (decode w) = false ∨ s.zeroForce.untakenBranch (decode w) →
    step s = .next t → t.pc = s.pc + 4

/-- What SB, SH, SW or SD stores at or around the address of the next instruction is what the next cycle
fetches there: of the four bytes fetched, those inside the stored range are the stored ones and the others are
as they were. In particular an SW or SD to that address is fetched as the low 32 bits of its source (R75,
R349). -/
def Obligations.StoreIsFetchedNext : Prop :=
  ∀ (s t : State) (w w' : InstrWord) (rs1 rs2 : RegIdx) (imm : BitVec 12) (n : Nat),
    s.fault = none → s.mem.wf = true → s.Fetches w →
    (decode w = .sb rs1 rs2 imm ∧ n = 1) ∨ (decode w = .sh rs1 rs2 imm ∧ n = 2) ∨
      (decode w = .sw rs1 rs2 imm ∧ n = 4) ∨ (decode w = .sd rs1 rs2 imm ∧ n = 8) →
    step s = .next t → t.fault = none →
    let v := s.zeroForce.reg rs2
    let off := s.offset (s.zeroForce.storeAddress rs1 imm)
    let next := s.offset (s.pc + 4)
    t.pc = s.pc + 4 ∧
    (next + 4 ≤ s.cfg.capacity →
      (∀ k, k < 4 → w'.toNat / 256 ^ k % 256 =
        if off ≤ next + k ∧ next + k < off + n then v.toNat / 256 ^ (next + k - off) % 256
        else (s.mem.read (next + k)).toNat) →
      t.Fetches w') ∧
    (s.zeroForce.storeAddress rs1 imm = s.pc + 4 → 4 ≤ n → t.Fetches (v.extractLsb' 0 32))

/-- No cycle changes the configuration or the trace flag, takes back an event, clears the halt flag, or takes
the count back (R30, R31, R36, R37). -/
def Obligations.CycleKeepsHistory : Prop :=
  ∀ s t : State, step s = .next t →
    t.cfg = s.cfg ∧ t.trace = s.trace ∧ s.events <+: t.events ∧ (s.halted = true → t.halted = true) ∧
      s.count ≤ t.count

/-- Every step keeps the invariant: valid parameters, canonical memory inside the image, the decode latch
empty unless a fault left its descriptor there, and every snapshot with `x[0] = 0`. -/
def Obligations.StepKeepsInvariant : Prop :=
  ∀ s t : State, s.Inv → step s = .next t → t.Inv

/-- The invariant holds at reset. -/
def Obligations.ResetHasInvariant : Prop := State.reset.Inv

/-! ### Boot, installation and run -/

/-- Reset is the boot sequence with the spec's test parameters and nothing installed: the pc at `loadBase`,
`x[2] = loadBase + capacity`, latch empty, not halted, count 0, no fault, no events (R39, R340). The
parameters, and the values of what R39 leaves unspecified, are the model's choice (log entries 2, 4 to 7). -/
def Obligations.ResetIsBoot : Prop :=
  boot leadInGateAsBuilt BootParams.reference = .hart State.reset ∧
  State.reset.pc = State.reset.cfg.loadBase ∧ State.reset.reg 2 = 0x20000 ∧
  State.reset.dl = none ∧ State.reset.halted = false ∧ State.reset.count = 0 ∧
  State.reset.fault = none ∧ State.reset.events = []

/-- Boot establishes the launch premises whenever it returns a hart with no fault, and leaves every other
register at `initRegs` (R340, R345). -/
def Obligations.BootEstablishesLaunch : Prop :=
  ∀ (gate : Nat → Bool) (p : BootParams) (s : State), boot gate p = .hart s → s.fault = none →
    s.Launch p.entryPc ∧ (∀ r : RegIdx, r ≠ 2 → s.reg r = p.initRegs[r.toNat]) ∧ s.cfg = p.cfg

/-- Boot gives a hart with the invariant, from valid parameters and a memory image in canonical form. -/
def Obligations.BootEstablishesInvariant : Prop :=
  ∀ (gate : Nat → Bool) (p : BootParams) (s : State), p.cfg.Valid → p.initMem.wf = true →
    (∀ c ∈ p.initMem, c.1 < p.cfg.capacity) → boot gate p = .hart s → s.Inv

/-- Boot refuses exactly when some segment, with no install fault before it, has a data length that is not its
size; a refusal is no hart (R314). -/
def Obligations.BootRefusesBadSegment : Prop :=
  ∀ (gate : Nat → Bool) (p : BootParams) (seg : Segment),
    (boot gate p = .refused seg ↔
      ∃ before after t, p.segments = before ++ seg :: after ∧ seg.data.length ≠ seg.size ∧
        installAll gate before p.construct = .hart t ∧ t.fault = none)

/-- After an installation that does not fault, every segment byte past the lead-in, and every byte of the
lead-in when the gate lets it, is at its own address; no other byte changes; and nothing but memory changes
(R69). -/
def Obligations.InstallPlacesBytes : Prop :=
  ∀ (gate : Nat → Bool) (s : State) (seg : Segment), s.cfg.Valid → s.mem.wf = true →
    s.fault = none → seg.data.length = seg.size → seg.size ≤ 2 ^ 64 → (s.install gate seg).fault = none →
    let lead := seg.lead s.cfg.pageSize
    let place := fun k => s.offset (seg.base + BitVec.ofNat 64 k)
    let copied := fun k => k < seg.size ∧ (lead ≤ k ∨ gate seg.flags = true)
    (∀ k, copied k → (s.install gate seg).mem.read (place k) = seg.data.getD k 0) ∧
    (∀ o, (∀ k, copied k → place k ≠ o) → (s.install gate seg).mem.read o = s.mem.read o) ∧
    { s.install gate seg with mem := s.mem } = s

/-- The chunk-count law: a segment with a page-aligned base whose size is a multiple of the page size is
copied in exactly `size / pageSize` whole-page chunks; for any base the chunks after the lead-in are the
remaining bytes by pages, rounded up (R67, R70). -/
def Obligations.ChunkCountLaw : Prop :=
  ∀ (gate : Nat → Bool) (seg : Segment) (pageSize : Nat), 1 ≤ pageSize → seg.data.length = seg.size →
    (seg.base.toNat % pageSize = 0 → seg.size % pageSize = 0 →
      (seg.copies gate pageSize).length = seg.size / pageSize ∧
      ∀ c ∈ seg.copies gate pageSize, c.2.length = pageSize) ∧
    (seg.copies gate pageSize).length =
      (if seg.lead pageSize ≠ 0 ∧ gate seg.flags = true then 1 else 0) +
        (seg.size - seg.lead pageSize + pageSize - 1) / pageSize

/-- A copy that does not fit the image raises OutOfBounds with its first address and length, writes none of
its bytes, and keeps the bytes copied before it (R68). -/
def Obligations.CopyOutsideImageFaults : Prop :=
  ∀ (s : State) (va : Word) (bytes : List Byte), s.fault = none →
    s.cfg.capacity < s.offset va + bytes.length →
    s.copyBytes va bytes = { s with fault := some (.outOfBounds va bytes.length) } ∧
    ∀ va' bytes', (s.copyBytes va bytes).copyBytes va' bytes' = s.copyBytes va bytes

/-- A run under fuel ends halted with the report as its last event, or faulted with the fault recorded and no
report added; running out of fuel is not an end (R130, R146, R148, R312). -/
def Obligations.RunOutcomes : Prop :=
  ∀ (fuel : Nat) (trace : Bool) (t0 t1 draw : Rat) (s t : State),
    (State.run fuel trace t0 t1 draw s = .halted t → t.halted = true ∧ t.fault = none ∧
      ∃ before, t.events = before ++ [.report (t1 - t0) t.count (mips t.count (t1 - t0) draw)]) ∧
    (State.run fuel trace t0 t1 draw s = .faulted t → t.fault ≠ none ∧
      ∀ e ∈ t.events, e ∈ s.events ∨ ∃ pc x, e = .snapshot pc x) ∧
    (∀ r, State.run fuel trace t0 t1 draw s ≠ .refused r)

/-- A lone halt-class instruction: a run from a launched hart with ECALL in its halt class (R141, the
reference value) whose word at the pc is ECALL executes exactly one cycle and reports an instruction count of 1
(R130, R140, R291). -/
def Obligations.LoneEcallRun : Prop :=
  ∀ (fuel : Nat) (trace : Bool) (t0 t1 draw : Rat) (s : State) (entry : Word),
    Mnemonic.ecall ∈ s.cfg.haltClass → s.Launch entry → s.Fetches 0x00000073#32 → ∃ t,
      State.run (fuel + 1) trace t0 t1 draw s = .halted t ∧ t.count = 1 ∧ t.pc = entry + 4 ∧
      Event.report (t1 - t0) 1 (mips 1 (t1 - t0) draw) ∈ t.events
end

