-- ==== Sys2Proof/Laws/Memory.lean ====
section
/-!
SUPPORT. What the memory operations do: reads after writes, and that every write keeps the canonical form.
-/

namespace Sys2Proof.Machine

/-! ### The canonical form -/

/-- `lo` is below `k`, where `none` is below everything. -/
def Memory.Below (lo : Option Nat) (k : Nat) : Prop := ∀ l, lo = some l → l < k

/-- The canonical form, one entry at a time. -/
theorem Memory.wfAbove_cons (lo : Option Nat) (k : Nat) (b : Byte) (m : Memory) :
    Memory.wfAbove lo ((k, b) :: m) = true ↔
      Memory.Below lo k ∧ b ≠ Memory.unlisted ∧ Memory.wfAbove (some k) m = true := by
  cases lo <;> simp [Memory.wfAbove, Memory.Below, and_assoc]

/-- The empty image is canonical. -/
@[simp] theorem Memory.wfAbove_nil (lo : Option Nat) : Memory.wfAbove lo [] = true := by
  cases lo <;> rfl

/-- A canonical image reads as unlisted at and below its lower bound. -/
theorem Memory.read_of_le {lo a : Nat} {m : Memory} (h : Memory.wfAbove (some lo) m = true) (ha : a ≤ lo) :
    m.read a = Memory.unlisted := by
  induction m generalizing lo with
  | nil => rfl
  | cons c m ih =>
    obtain ⟨k, b⟩ := c
    obtain ⟨hk, -, hm⟩ := (Memory.wfAbove_cons _ _ _ _).1 h
    have : lo < k := hk lo rfl
    rw [Memory.read, if_neg (by omega), ih hm (by omega)]

/-- A canonical image is canonical above any lower bound of its own bound. -/
theorem Memory.wfAbove_mono {lo : Option Nat} {k : Nat} {m : Memory} (h : Memory.wfAbove (some k) m = true)
    (hk : Memory.Below lo k) : Memory.wfAbove lo m = true := by
  cases m with
  | nil => simp
  | cons c m =>
    obtain ⟨j, b⟩ := c
    obtain ⟨hj, hb, hm⟩ := (Memory.wfAbove_cons _ _ _ _).1 h
    exact (Memory.wfAbove_cons _ _ _ _).2 ⟨fun l hl => (hk l hl).trans (hj k rfl), hb, hm⟩

/-- Putting a byte in front keeps the form. -/
theorem Memory.cons_wfAbove {lo : Option Nat} {a : Nat} {b : Byte} {m : Memory}
    (h : Memory.wfAbove (some a) m = true) (ha : Memory.Below lo a) :
    Memory.wfAbove lo (Memory.cons a b m) = true := by
  unfold Memory.cons
  split
  · exact Memory.wfAbove_mono h ha
  · exact (Memory.wfAbove_cons _ _ _ _).2 ⟨ha, ‹_›, h⟩

/-- A write keeps the form. -/
theorem Memory.write_wfAbove {lo : Option Nat} {m : Memory} (a : Nat) (b : Byte)
    (h : Memory.wfAbove lo m = true) (ha : Memory.Below lo a) : Memory.wfAbove lo (m.write a b) = true := by
  induction m generalizing lo with
  | nil => exact Memory.cons_wfAbove (Memory.wfAbove_nil _) ha
  | cons c m ih =>
    obtain ⟨k, d⟩ := c
    obtain ⟨hk, hd, hm⟩ := (Memory.wfAbove_cons _ _ _ _).1 h
    unfold Memory.write
    split
    · exact Memory.cons_wfAbove
        ((Memory.wfAbove_cons _ _ _ _).2 ⟨fun l hl => by cases hl; assumption, hd, hm⟩) ha
    · split
      · subst_vars; exact Memory.cons_wfAbove hm hk
      · refine (Memory.wfAbove_cons _ _ _ _).2 ⟨hk, hd, ih hm ?_⟩
        intro l hl; cases hl; omega

/-- A write keeps memory canonical. -/
theorem Memory.write_wf {m : Memory} (h : m.wf = true) (a : Nat) (b : Byte) : (m.write a b).wf = true :=
  Memory.write_wfAbove a b h (by intro l hl; cases hl)

/-! ### Reads after writes -/

theorem Memory.read_cons {a : Nat} {b : Byte} {m : Memory} (h : Memory.wfAbove (some a) m = true) (c : Nat) :
    (Memory.cons a b m).read c = if c = a then b else m.read c := by
  unfold Memory.cons
  split
  · split
    · subst_vars; exact Memory.read_of_le h le_rfl
    · rfl
  · rfl

theorem Memory.read_write_above {lo : Option Nat} {m : Memory} (h : Memory.wfAbove lo m = true)
    (a : Nat) (b : Byte) (c : Nat) : (m.write a b).read c = if c = a then b else m.read c := by
  induction m generalizing lo with
  | nil => rw [Memory.write, Memory.read_cons (Memory.wfAbove_nil _)]
  | cons e m ih =>
    obtain ⟨k, d⟩ := e
    obtain ⟨hk, hd, hm⟩ := (Memory.wfAbove_cons _ _ _ _).1 h
    unfold Memory.write
    split
    · rw [Memory.read_cons]
      exact (Memory.wfAbove_cons _ _ _ _).2 ⟨fun l hl => by cases hl; assumption, hd, hm⟩
    · split
      · subst_vars
        rw [Memory.read_cons hm]
        by_cases hc : c = k <;> simp [Memory.read, hc]
      · simp only [Memory.read, ih hm]
        by_cases hc : c = k
        · subst hc; rw [if_pos rfl, if_pos rfl, if_neg (by omega)]
        · rw [if_neg hc, if_neg hc]

/-- The byte read after a write: the one written holds the value, every other is as it was. -/
theorem Memory.read_write {m : Memory} (h : m.wf = true) (a : Nat) (b : Byte) (c : Nat) :
    (m.write a b).read c = if c = a then b else m.read c :=
  Memory.read_write_above h a b c

/-- Canonical images that read the same everywhere are equal. -/
theorem Memory.ext_above {lo : Option Nat} {m n : Memory} (hm : Memory.wfAbove lo m = true)
    (hn : Memory.wfAbove lo n = true) (h : ∀ a, m.read a = n.read a) : m = n := by
  induction m generalizing lo n with
  | nil =>
    cases n with
    | nil => rfl
    | cons c n =>
      obtain ⟨k, b⟩ := c
      obtain ⟨-, hb, -⟩ := (Memory.wfAbove_cons _ _ _ _).1 hn
      exact absurd (by simpa [Memory.read] using (h k).symm) hb
  | cons c m ih =>
    obtain ⟨k, b⟩ := c
    obtain ⟨hk, hb, hm'⟩ := (Memory.wfAbove_cons _ _ _ _).1 hm
    cases n with
    | nil => exact absurd (by simpa [Memory.read] using h k) hb
    | cons d n =>
      obtain ⟨j, e⟩ := d
      obtain ⟨hj, he, hn'⟩ := (Memory.wfAbove_cons _ _ _ _).1 hn
      have hkj : k = j := by
        rcases Nat.lt_trichotomy k j with hlt | heq | hgt
        · have := h k
          rw [Memory.read, if_pos rfl, Memory.read, if_neg (by omega), Memory.read_of_le hn' hlt.le] at this
          exact absurd this hb
        · exact heq
        · have := h j
          rw [Memory.read, if_neg (by omega), Memory.read_of_le hm' hgt.le, Memory.read, if_pos rfl] at this
          exact absurd this.symm he
      subst hkj
      have hbe : b = e := by simpa [Memory.read] using h k
      subst hbe
      rw [ih hm' hn' ?_]
      intro a
      by_cases ha : a ≤ k
      · rw [Memory.read_of_le hm' ha, Memory.read_of_le hn' ha]
      · simpa [Memory.read, show a ≠ k by omega] using h a

/-! ### Stores of several bytes -/

theorem Memory.writeFrom_wf {m : Memory} (h : m.wf = true) (off : Nat) (v : Word) (k n : Nat) :
    (m.writeFrom off v k n).wf = true := by
  induction n generalizing m off k with
  | zero => exact h
  | succ n ih => exact ih (Memory.write_wf h _ _) _ _

/-- The byte read after a store of bytes `k`, `k+1`, ... of `v`. -/
theorem Memory.read_writeFrom {m : Memory} (h : m.wf = true) (off : Nat) (v : Word) (k n c : Nat) :
    (m.writeFrom off v k n).read c =
      if off ≤ c ∧ c < off + n then byteOf v (k + (c - off)) else m.read c := by
  induction n generalizing m off k with
  | zero => rw [Memory.writeFrom, if_neg (by omega)]
  | succ n ih =>
    rw [Memory.writeFrom, ih (Memory.write_wf h _ _), Memory.read_write h]
    by_cases hc : c = off
    · subst hc; simp
    · by_cases hin : off ≤ c ∧ c < off + (n + 1)
      · rw [if_pos (by omega), if_pos hin]; congr 1; omega
      · rw [if_neg (by omega), if_neg hin, if_neg hc]

/-- A store keeps memory canonical. -/
theorem Memory.writeLE_wf {m : Memory} (h : m.wf = true) (off n : Nat) (v : Word) :
    (m.writeLE off n v).wf = true :=
  Memory.writeFrom_wf h _ _ _ _

/-- The byte read after a store: byte `off + k` holds byte `k` of the value, and every byte outside the `n`
stored is as it was (R56, R58). -/
theorem Memory.read_writeLE {m : Memory} (h : m.wf = true) (off n : Nat) (v : Word) (c : Nat) :
    (m.writeLE off n v).read c = if off ≤ c ∧ c < off + n then byteOf v (c - off) else m.read c := by
  rw [Memory.writeLE, Memory.read_writeFrom h]; simp

/-- A copy of bytes keeps memory canonical. -/
theorem Memory.copy_wf {m : Memory} (h : m.wf = true) (off : Nat) (bs : List Byte) :
    (m.copy off bs).wf = true := by
  induction bs generalizing m off with
  | nil => exact h
  | cons b bs ih => exact ih (Memory.write_wf h _ _) _

/-- The byte read after a copy (R69). -/
theorem Memory.read_copy {m : Memory} (h : m.wf = true) (off : Nat) (bs : List Byte) (c : Nat) :
    (m.copy off bs).read c = if off ≤ c then (bs[c - off]?).getD (m.read c) else m.read c := by
  induction bs generalizing m off with
  | nil => simp [Memory.copy]
  | cons b bs ih =>
    rw [Memory.copy, ih (Memory.write_wf h _ _), Memory.read_write h]
    by_cases hc : c = off
    · subst hc; simp
    · by_cases hle : off ≤ c
      · obtain ⟨d, rfl⟩ : ∃ d, c = off + (d + 1) := ⟨c - off - 1, by omega⟩
        have h1 : off + (d + 1) - (off + 1) = d := by omega
        have h2 : off + (d + 1) - off = d + 1 := by omega
        simp [h1, h2, show off + 1 ≤ off + (d + 1) by omega]
      · simp [hc, hle, show ¬ off + 1 ≤ c by omega]

/-! ### Loads of several bytes -/

/-- A little-endian load of `n` bytes is below `2^(8n)` (R55). -/
theorem Memory.readLE_lt (m : Memory) (off n : Nat) : m.readLE off n < 2 ^ (8 * n) := by
  induction n generalizing off with
  | zero => simp [Memory.readLE]
  | succ n ih =>
    have := ih (off + 1)
    have hb := (m.read off).isLt
    rw [Memory.readLE, show 8 * (n + 1) = 8 + 8 * n by omega, Nat.pow_add]
    omega

/-- A load depends only on the bytes it covers. -/
theorem Memory.readLE_congr {m m' : Memory} {off n : Nat}
    (h : ∀ c, off ≤ c → c < off + n → m.read c = m'.read c) : m.readLE off n = m'.readLE off n := by
  induction n generalizing off with
  | zero => rfl
  | succ n ih =>
    rw [Memory.readLE, Memory.readLE, h off le_rfl (by omega), ih (fun c h1 h2 => h c (by omega) (by omega))]

/-- Byte `k` of a little-endian load is the byte at `off + k` (R58). -/
theorem Memory.readLE_byte (m : Memory) (off : Nat) {n k : Nat} (hk : k < n) :
    m.readLE off n / 2 ^ (8 * k) % 256 = (m.read (off + k)).toNat := by
  induction n generalizing off k with
  | zero => omega
  | succ n ih =>
    have hb := (m.read off).isLt
    rw [Memory.readLE]
    cases k with
    | zero => simp; omega
    | succ k =>
      rw [show 8 * (k + 1) = 8 + 8 * k by omega, Nat.pow_add, ← Nat.div_div_eq_div_mul,
        show ((m.read off).toNat + 256 * m.readLE (off + 1) n) / 2 ^ 8 = m.readLE (off + 1) n by omega,
        ih (off + 1) (by omega), show off + 1 + k = off + (k + 1) by omega]

theorem byteOf_toNat (v : Word) (k : Nat) : (byteOf v k).toNat = v.toNat / 2 ^ (8 * k) % 256 := by
  simp [byteOf, BitVec.extractLsb'_toNat, Nat.shiftRight_eq_div_pow]

theorem Memory.readLE_writeFrom {m : Memory} (h : m.wf = true) (off : Nat) (v : Word) (k n : Nat) :
    (m.writeFrom off v k n).readLE off n = v.toNat / 2 ^ (8 * k) % 2 ^ (8 * n) := by
  induction n generalizing m off k with
  | zero => simp [Memory.readLE, Nat.mod_one]
  | succ n ih =>
    have hrest := ih (Memory.write_wf h off (byteOf v k)) (off + 1) (k + 1)
    rw [Memory.readLE, Memory.writeFrom, hrest, Memory.read_writeFrom (Memory.write_wf h _ _),
      if_neg (by omega), Memory.read_write h, if_pos rfl, byteOf_toNat,
      show 8 * (k + 1) = 8 * k + 8 by omega, Nat.pow_add, ← Nat.div_div_eq_div_mul,
      show 8 * (n + 1) = 8 + 8 * n by omega, Nat.pow_add]
    generalize v.toNat / 2 ^ (8 * k) = x
    rw [Nat.mod_mul]

/-- A load of the bytes just stored gives the value masked to its low `8n` bits (R57). -/
theorem Memory.readLE_writeLE {m : Memory} (h : m.wf = true) (off n : Nat) (v : Word) :
    (m.writeLE off n v).readLE off n = v.toNat % 2 ^ (8 * n) := by
  rw [Memory.writeLE, Memory.readLE_writeFrom h]; simp

/-! ### Which offsets a write can list -/

/-- An entry listed after a write was listed before it, or is at the offset written. -/
theorem Memory.mem_write {m : Memory} {a : Nat} {b : Byte} {c : Host.Cell} (h : c ∈ m.write a b) :
    c ∈ m ∨ c.1 = a := by
  have hcons : ∀ {n : Memory}, c ∈ Memory.cons a b n → c ∈ n ∨ c.1 = a := by
    intro n hc
    unfold Memory.cons at hc
    split at hc
    · exact .inl hc
    · rcases List.mem_cons.1 hc with rfl | hc
      · exact .inr rfl
      · exact .inl hc
  induction m with
  | nil => exact hcons h
  | cons e m ih =>
    obtain ⟨k, d⟩ := e
    unfold Memory.write at h
    split at h
    · exact hcons h
    · split at h
      · rcases hcons h with h | h
        · exact .inl (List.mem_cons_of_mem _ h)
        · exact .inr h
      · rcases List.mem_cons.1 h with rfl | h
        · exact .inl List.mem_cons_self
        · rcases ih h with h | h
          · exact .inl (List.mem_cons_of_mem _ h)
          · exact .inr h

/-- An entry listed after a store was listed before it, or is at an offset stored to. -/
theorem Memory.mem_writeLE {m : Memory} {off n : Nat} {v : Word} {c : Host.Cell} (h : c ∈ m.writeLE off n v) :
    c ∈ m ∨ (off ≤ c.1 ∧ c.1 < off + n) := by
  have key : ∀ (n k off : Nat) (m : Memory), c ∈ m.writeFrom off v k n →
      c ∈ m ∨ (off ≤ c.1 ∧ c.1 < off + n) := by
    intro n
    induction n with
    | zero => intro k off m h; exact .inl h
    | succ n ih =>
      intro k off m h
      rcases ih _ _ _ h with h | h
      · rcases Memory.mem_write h with h | h
        · exact .inl h
        · exact .inr (by omega)
      · exact .inr (by omega)
  exact key n 0 off m h

/-- An entry listed after a copy was listed before it, or is at an offset copied to. -/
theorem Memory.mem_copy {bs : List Byte} {m : Memory} {off : Nat} {c : Host.Cell} (h : c ∈ m.copy off bs) :
    c ∈ m ∨ (off ≤ c.1 ∧ c.1 < off + bs.length) := by
  induction bs generalizing m off with
  | nil => exact .inl h
  | cons b bs ih =>
    rcases ih h with h | h
    · rcases Memory.mem_write h with h | h
      · exact .inl h
      · exact .inr (by simp only [List.length_cons]; omega)
    · exact .inr (by simp only [List.length_cons]; omega)

end Sys2Proof.Machine
end

