-- ==== Sys2Proof/Laws/State.lean ====
section
/-!
SUPPORT. One lemma per field per named update of the state, true by `rfl`, so that no proof unfolds a record
update; and what the derived reads (a register, `d.addr`, the translator) are after an update.
-/

namespace Sys2Proof.Machine

/-! ### setReg -/

@[simp] theorem State.setReg_cfg (s : State) (i : RegIdx) (v : Word) : (s.setReg i v).cfg = s.cfg := rfl
@[simp] theorem State.setReg_trace (s : State) (i : RegIdx) (v : Word) : (s.setReg i v).trace = s.trace := rfl
@[simp] theorem State.setReg_x (s : State) (i : RegIdx) (v : Word) : (s.setReg i v).x = s.x.set i.toNat v := rfl
@[simp] theorem State.setReg_pc (s : State) (i : RegIdx) (v : Word) : (s.setReg i v).pc = s.pc := rfl
@[simp] theorem State.setReg_mem (s : State) (i : RegIdx) (v : Word) : (s.setReg i v).mem = s.mem := rfl
@[simp] theorem State.setReg_fl (s : State) (i : RegIdx) (v : Word) : (s.setReg i v).fl = s.fl := rfl
@[simp] theorem State.setReg_dl (s : State) (i : RegIdx) (v : Word) : (s.setReg i v).dl = s.dl := rfl
@[simp] theorem State.setReg_halted (s : State) (i : RegIdx) (v : Word) : (s.setReg i v).halted = s.halted := rfl
@[simp] theorem State.setReg_count (s : State) (i : RegIdx) (v : Word) : (s.setReg i v).count = s.count := rfl
@[simp] theorem State.setReg_fault (s : State) (i : RegIdx) (v : Word) : (s.setReg i v).fault = s.fault := rfl
@[simp] theorem State.setReg_events (s : State) (i : RegIdx) (v : Word) : (s.setReg i v).events = s.events := rfl
@[simp] theorem State.setReg_instrAddr (s : State) (i : RegIdx) (v : Word) : (s.setReg i v).instrAddr = s.instrAddr := rfl
@[simp] theorem State.setReg_translate (s : State) (i : RegIdx) (v : Word) (va : Word) (n : Nat) :
    (s.setReg i v).translate va n = s.translate va n := rfl
@[simp] theorem State.setReg_memRead (s : State) (i : RegIdx) (v : Word) (va : Word) (n : Nat) :
    (s.setReg i v).memRead va n = s.memRead va n := rfl

/-! ### setPc -/

@[simp] theorem State.setPc_cfg (s : State) (t : Word) : (s.setPc t).cfg = s.cfg := rfl
@[simp] theorem State.setPc_trace (s : State) (t : Word) : (s.setPc t).trace = s.trace := rfl
@[simp] theorem State.setPc_x (s : State) (t : Word) : (s.setPc t).x = s.x := rfl
@[simp] theorem State.setPc_pc (s : State) (t : Word) : (s.setPc t).pc = t := rfl
@[simp] theorem State.setPc_mem (s : State) (t : Word) : (s.setPc t).mem = s.mem := rfl
@[simp] theorem State.setPc_fl (s : State) (t : Word) : (s.setPc t).fl = s.fl := rfl
@[simp] theorem State.setPc_dl (s : State) (t : Word) : (s.setPc t).dl = s.dl := rfl
@[simp] theorem State.setPc_halted (s : State) (t : Word) : (s.setPc t).halted = s.halted := rfl
@[simp] theorem State.setPc_count (s : State) (t : Word) : (s.setPc t).count = s.count := rfl
@[simp] theorem State.setPc_fault (s : State) (t : Word) : (s.setPc t).fault = s.fault := rfl
@[simp] theorem State.setPc_events (s : State) (t : Word) : (s.setPc t).events = s.events := rfl
@[simp] theorem State.setPc_reg (s : State) (t : Word) (j : RegIdx) : (s.setPc t).reg j = s.reg j := rfl
@[simp] theorem State.setPc_instrAddr (s : State) (t : Word) : (s.setPc t).instrAddr = s.instrAddr := rfl
@[simp] theorem State.setPc_translate (s : State) (t : Word) (va : Word) (n : Nat) :
    (s.setPc t).translate va n = s.translate va n := rfl
@[simp] theorem State.setPc_memRead (s : State) (t : Word) (va : Word) (n : Nat) :
    (s.setPc t).memRead va n = s.memRead va n := rfl

/-! ### setMem -/

@[simp] theorem State.setMem_cfg (s : State) (m : Memory) : (s.setMem m).cfg = s.cfg := rfl
@[simp] theorem State.setMem_trace (s : State) (m : Memory) : (s.setMem m).trace = s.trace := rfl
@[simp] theorem State.setMem_x (s : State) (m : Memory) : (s.setMem m).x = s.x := rfl
@[simp] theorem State.setMem_pc (s : State) (m : Memory) : (s.setMem m).pc = s.pc := rfl
@[simp] theorem State.setMem_mem (s : State) (m : Memory) : (s.setMem m).mem = m := rfl
@[simp] theorem State.setMem_fl (s : State) (m : Memory) : (s.setMem m).fl = s.fl := rfl
@[simp] theorem State.setMem_dl (s : State) (m : Memory) : (s.setMem m).dl = s.dl := rfl
@[simp] theorem State.setMem_halted (s : State) (m : Memory) : (s.setMem m).halted = s.halted := rfl
@[simp] theorem State.setMem_count (s : State) (m : Memory) : (s.setMem m).count = s.count := rfl
@[simp] theorem State.setMem_fault (s : State) (m : Memory) : (s.setMem m).fault = s.fault := rfl
@[simp] theorem State.setMem_events (s : State) (m : Memory) : (s.setMem m).events = s.events := rfl
@[simp] theorem State.setMem_reg (s : State) (m : Memory) (j : RegIdx) : (s.setMem m).reg j = s.reg j := rfl
@[simp] theorem State.setMem_instrAddr (s : State) (m : Memory) : (s.setMem m).instrAddr = s.instrAddr := rfl
@[simp] theorem State.setMem_translate (s : State) (m : Memory) (va : Word) (n : Nat) :
    (s.setMem m).translate va n = s.translate va n := rfl

/-! ### setFl -/

@[simp] theorem State.setFl_cfg (s : State) (l : FetchLatch) : (s.setFl l).cfg = s.cfg := rfl
@[simp] theorem State.setFl_trace (s : State) (l : FetchLatch) : (s.setFl l).trace = s.trace := rfl
@[simp] theorem State.setFl_x (s : State) (l : FetchLatch) : (s.setFl l).x = s.x := rfl
@[simp] theorem State.setFl_pc (s : State) (l : FetchLatch) : (s.setFl l).pc = s.pc := rfl
@[simp] theorem State.setFl_mem (s : State) (l : FetchLatch) : (s.setFl l).mem = s.mem := rfl
@[simp] theorem State.setFl_fl (s : State) (l : FetchLatch) : (s.setFl l).fl = l := rfl
@[simp] theorem State.setFl_dl (s : State) (l : FetchLatch) : (s.setFl l).dl = s.dl := rfl
@[simp] theorem State.setFl_halted (s : State) (l : FetchLatch) : (s.setFl l).halted = s.halted := rfl
@[simp] theorem State.setFl_count (s : State) (l : FetchLatch) : (s.setFl l).count = s.count := rfl
@[simp] theorem State.setFl_fault (s : State) (l : FetchLatch) : (s.setFl l).fault = s.fault := rfl
@[simp] theorem State.setFl_events (s : State) (l : FetchLatch) : (s.setFl l).events = s.events := rfl
@[simp] theorem State.setFl_reg (s : State) (l : FetchLatch) (j : RegIdx) : (s.setFl l).reg j = s.reg j := rfl
@[simp] theorem State.setFl_translate (s : State) (l : FetchLatch) (va : Word) (n : Nat) :
    (s.setFl l).translate va n = s.translate va n := rfl
@[simp] theorem State.setFl_memRead (s : State) (l : FetchLatch) (va : Word) (n : Nat) :
    (s.setFl l).memRead va n = s.memRead va n := rfl

/-! ### setDl -/

@[simp] theorem State.setDl_cfg (s : State) (d : Option Descriptor) : (s.setDl d).cfg = s.cfg := rfl
@[simp] theorem State.setDl_trace (s : State) (d : Option Descriptor) : (s.setDl d).trace = s.trace := rfl
@[simp] theorem State.setDl_x (s : State) (d : Option Descriptor) : (s.setDl d).x = s.x := rfl
@[simp] theorem State.setDl_pc (s : State) (d : Option Descriptor) : (s.setDl d).pc = s.pc := rfl
@[simp] theorem State.setDl_mem (s : State) (d : Option Descriptor) : (s.setDl d).mem = s.mem := rfl
@[simp] theorem State.setDl_fl (s : State) (d : Option Descriptor) : (s.setDl d).fl = s.fl := rfl
@[simp] theorem State.setDl_dl (s : State) (d : Option Descriptor) : (s.setDl d).dl = d := rfl
@[simp] theorem State.setDl_halted (s : State) (d : Option Descriptor) : (s.setDl d).halted = s.halted := rfl
@[simp] theorem State.setDl_count (s : State) (d : Option Descriptor) : (s.setDl d).count = s.count := rfl
@[simp] theorem State.setDl_fault (s : State) (d : Option Descriptor) : (s.setDl d).fault = s.fault := rfl
@[simp] theorem State.setDl_events (s : State) (d : Option Descriptor) : (s.setDl d).events = s.events := rfl
@[simp] theorem State.setDl_reg (s : State) (d : Option Descriptor) (j : RegIdx) : (s.setDl d).reg j = s.reg j := rfl
@[simp] theorem State.setDl_translate (s : State) (d : Option Descriptor) (va : Word) (n : Nat) :
    (s.setDl d).translate va n = s.translate va n := rfl
@[simp] theorem State.setDl_memRead (s : State) (d : Option Descriptor) (va : Word) (n : Nat) :
    (s.setDl d).memRead va n = s.memRead va n := rfl

/-! ### emit -/

@[simp] theorem State.emit_cfg (s : State) (e : Event) : (s.emit e).cfg = s.cfg := rfl
@[simp] theorem State.emit_trace (s : State) (e : Event) : (s.emit e).trace = s.trace := rfl
@[simp] theorem State.emit_x (s : State) (e : Event) : (s.emit e).x = s.x := rfl
@[simp] theorem State.emit_pc (s : State) (e : Event) : (s.emit e).pc = s.pc := rfl
@[simp] theorem State.emit_mem (s : State) (e : Event) : (s.emit e).mem = s.mem := rfl
@[simp] theorem State.emit_fl (s : State) (e : Event) : (s.emit e).fl = s.fl := rfl
@[simp] theorem State.emit_dl (s : State) (e : Event) : (s.emit e).dl = s.dl := rfl
@[simp] theorem State.emit_halted (s : State) (e : Event) : (s.emit e).halted = s.halted := rfl
@[simp] theorem State.emit_count (s : State) (e : Event) : (s.emit e).count = s.count := rfl
@[simp] theorem State.emit_fault (s : State) (e : Event) : (s.emit e).fault = s.fault := rfl
@[simp] theorem State.emit_events (s : State) (e : Event) : (s.emit e).events = s.events ++ [e] := rfl
@[simp] theorem State.emit_reg (s : State) (e : Event) (j : RegIdx) : (s.emit e).reg j = s.reg j := rfl
@[simp] theorem State.emit_instrAddr (s : State) (e : Event) : (s.emit e).instrAddr = s.instrAddr := rfl
@[simp] theorem State.emit_translate (s : State) (e : Event) (va : Word) (n : Nat) :
    (s.emit e).translate va n = s.translate va n := rfl
@[simp] theorem State.emit_memRead (s : State) (e : Event) (va : Word) (n : Nat) :
    (s.emit e).memRead va n = s.memRead va n := rfl

/-! ### raise -/

@[simp] theorem State.raise_cfg (s : State) (f : Fault) : (s.raise f).cfg = s.cfg := rfl
@[simp] theorem State.raise_trace (s : State) (f : Fault) : (s.raise f).trace = s.trace := rfl
@[simp] theorem State.raise_x (s : State) (f : Fault) : (s.raise f).x = s.x := rfl
@[simp] theorem State.raise_pc (s : State) (f : Fault) : (s.raise f).pc = s.pc := rfl
@[simp] theorem State.raise_mem (s : State) (f : Fault) : (s.raise f).mem = s.mem := rfl
@[simp] theorem State.raise_fl (s : State) (f : Fault) : (s.raise f).fl = s.fl := rfl
@[simp] theorem State.raise_dl (s : State) (f : Fault) : (s.raise f).dl = s.dl := rfl
@[simp] theorem State.raise_halted (s : State) (f : Fault) : (s.raise f).halted = s.halted := rfl
@[simp] theorem State.raise_count (s : State) (f : Fault) : (s.raise f).count = s.count := rfl
@[simp] theorem State.raise_fault (s : State) (f : Fault) : (s.raise f).fault = some f := rfl
@[simp] theorem State.raise_events (s : State) (f : Fault) : (s.raise f).events = s.events := rfl
@[simp] theorem State.raise_reg (s : State) (f : Fault) (j : RegIdx) : (s.raise f).reg j = s.reg j := rfl
@[simp] theorem State.raise_instrAddr (s : State) (f : Fault) : (s.raise f).instrAddr = s.instrAddr := rfl
@[simp] theorem State.raise_translate (s : State) (f : Fault) (va : Word) (n : Nat) :
    (s.raise f).translate va n = s.translate va n := rfl
@[simp] theorem State.raise_memRead (s : State) (f : Fault) (va : Word) (n : Nat) :
    (s.raise f).memRead va n = s.memRead va n := rfl

/-! ### finish -/

@[simp] theorem State.finish_cfg (s : State) : (s.finish).cfg = s.cfg := rfl
@[simp] theorem State.finish_trace (s : State) : (s.finish).trace = s.trace := rfl
@[simp] theorem State.finish_x (s : State) : (s.finish).x = s.x := rfl
@[simp] theorem State.finish_pc (s : State) : (s.finish).pc = s.pc := rfl
@[simp] theorem State.finish_mem (s : State) : (s.finish).mem = s.mem := rfl
@[simp] theorem State.finish_fl (s : State) : (s.finish).fl = s.fl := rfl
@[simp] theorem State.finish_dl (s : State) : (s.finish).dl = s.dl := rfl
@[simp] theorem State.finish_halted (s : State) : (s.finish).halted = true := rfl
@[simp] theorem State.finish_count (s : State) : (s.finish).count = s.count := rfl
@[simp] theorem State.finish_fault (s : State) : (s.finish).fault = s.fault := rfl
@[simp] theorem State.finish_events (s : State) : (s.finish).events = s.events := rfl
@[simp] theorem State.finish_reg (s : State) (j : RegIdx) : (s.finish).reg j = s.reg j := rfl
@[simp] theorem State.finish_instrAddr (s : State) : (s.finish).instrAddr = s.instrAddr := rfl
@[simp] theorem State.finish_translate (s : State) (va : Word) (n : Nat) :
    (s.finish).translate va n = s.translate va n := rfl
@[simp] theorem State.finish_memRead (s : State) (va : Word) (n : Nat) :
    (s.finish).memRead va n = s.memRead va n := rfl

/-! ### finishAs: only the halt flag changes, and only for a member of the halt class -/

@[simp] theorem State.finishAs_cfg (s : State) (mn : Mnemonic) : (s.finishAs mn).cfg = s.cfg := by
  unfold State.finishAs; split <;> rfl
@[simp] theorem State.finishAs_trace (s : State) (mn : Mnemonic) : (s.finishAs mn).trace = s.trace := by
  unfold State.finishAs; split <;> rfl
@[simp] theorem State.finishAs_x (s : State) (mn : Mnemonic) : (s.finishAs mn).x = s.x := by
  unfold State.finishAs; split <;> rfl
@[simp] theorem State.finishAs_pc (s : State) (mn : Mnemonic) : (s.finishAs mn).pc = s.pc := by
  unfold State.finishAs; split <;> rfl
@[simp] theorem State.finishAs_mem (s : State) (mn : Mnemonic) : (s.finishAs mn).mem = s.mem := by
  unfold State.finishAs; split <;> rfl
@[simp] theorem State.finishAs_fl (s : State) (mn : Mnemonic) : (s.finishAs mn).fl = s.fl := by
  unfold State.finishAs; split <;> rfl
@[simp] theorem State.finishAs_dl (s : State) (mn : Mnemonic) : (s.finishAs mn).dl = s.dl := by
  unfold State.finishAs; split <;> rfl
@[simp] theorem State.finishAs_count (s : State) (mn : Mnemonic) : (s.finishAs mn).count = s.count := by
  unfold State.finishAs; split <;> rfl
@[simp] theorem State.finishAs_fault (s : State) (mn : Mnemonic) : (s.finishAs mn).fault = s.fault := by
  unfold State.finishAs; split <;> rfl
@[simp] theorem State.finishAs_events (s : State) (mn : Mnemonic) : (s.finishAs mn).events = s.events := by
  unfold State.finishAs; split <;> rfl
@[simp] theorem State.finishAs_halted (s : State) (mn : Mnemonic) :
    (s.finishAs mn).halted = (s.halted || decide (mn ∈ s.cfg.haltClass)) := by
  unfold State.finishAs; split <;> simp_all
@[simp] theorem State.finishAs_reg (s : State) (mn : Mnemonic) (j : RegIdx) : (s.finishAs mn).reg j = s.reg j := by
  unfold State.finishAs; split <;> rfl

/-! ### countStep -/

@[simp] theorem State.countStep_cfg (s : State) : (s.countStep).cfg = s.cfg := rfl
@[simp] theorem State.countStep_trace (s : State) : (s.countStep).trace = s.trace := rfl
@[simp] theorem State.countStep_x (s : State) : (s.countStep).x = s.x := rfl
@[simp] theorem State.countStep_pc (s : State) : (s.countStep).pc = s.pc := rfl
@[simp] theorem State.countStep_mem (s : State) : (s.countStep).mem = s.mem := rfl
@[simp] theorem State.countStep_fl (s : State) : (s.countStep).fl = s.fl := rfl
@[simp] theorem State.countStep_dl (s : State) : (s.countStep).dl = s.dl := rfl
@[simp] theorem State.countStep_halted (s : State) : (s.countStep).halted = s.halted := rfl
@[simp] theorem State.countStep_count (s : State) : (s.countStep).count = s.count + 1 := rfl
@[simp] theorem State.countStep_fault (s : State) : (s.countStep).fault = s.fault := rfl
@[simp] theorem State.countStep_events (s : State) : (s.countStep).events = s.events := rfl
@[simp] theorem State.countStep_reg (s : State) (j : RegIdx) : (s.countStep).reg j = s.reg j := rfl
@[simp] theorem State.countStep_instrAddr (s : State) : (s.countStep).instrAddr = s.instrAddr := rfl
@[simp] theorem State.countStep_translate (s : State) (va : Word) (n : Nat) :
    (s.countStep).translate va n = s.translate va n := rfl
@[simp] theorem State.countStep_memRead (s : State) (va : Word) (n : Nat) :
    (s.countStep).memRead va n = s.memRead va n := rfl

/-! ### Registers -/

/-- A register after a register write: the one written holds the value, every other is as it was (R22). -/
@[simp] theorem State.setReg_reg (s : State) (i j : RegIdx) (v : Word) :
    (s.setReg i v).reg j = if j = i then v else s.reg j := by
  simp only [State.reg, State.setReg, Vector.getElem_set, BitVec.toNat_inj]
  by_cases h : i = j <;> simp [h, eq_comm]

/-- Writing a register twice keeps the second value. -/
@[simp] theorem State.setReg_setReg (s : State) (i : RegIdx) (v w : Word) :
    (s.setReg i v).setReg i w = s.setReg i w := by
  simp [State.setReg]

/-- The address of the descriptor in the decode latch (R29). -/
@[simp] theorem State.setDl_some_instrAddr (s : State) (d : Descriptor) :
    (s.setDl (some d)).instrAddr = d.addr := rfl

/-- Register files are equal when they agree at every index. -/
theorem State.x_ext {s t : State} (h : ∀ j, s.reg j = t.reg j) : s.x = t.x := by
  apply Vector.ext
  intro i hi
  have hm : (BitVec.ofNat 5 i).toNat = i := by simp [Nat.mod_eq_of_lt (show i < 32 from hi)]
  simpa only [State.reg, hm] using h (BitVec.ofNat 5 i)

end Sys2Proof.Machine
end

