-- ==== Sys2Proof/Laws/Ops.lean ====
section
/-!
SUPPORT. For each shared operation one lemma that says everything it can do, and the inversion of `exec`.
-/

namespace Sys2Proof.Machine

/-! ### The translator and the load/store unit -/

/-- The translator answers an offset exactly when the three checks pass (R54). -/
theorem State.translate_ok_iff (s : State) (va : Word) (n off : Nat) :
    s.translate va n = .ok off ↔
      legalSize n = true ∧ va.toNat % n = 0 ∧ s.offset va + n ≤ s.cfg.capacity ∧ off = s.offset va := by
  unfold State.translate
  cases h1 : legalSize n
  · simp
  · by_cases h2 : va.toNat % n = 0
    · by_cases h3 : s.cfg.capacity < s.offset va + n
      · simp [h2, h3]
      · simp [h2, h3, eq_comm]; omega
    · simp [h2]

/-- What a failing translator says: the first check that fails (R54). -/
theorem State.translate_error {s : State} {va : Word} {n : Nat} {f : Fault} (h : s.translate va n = .error f) :
    (legalSize n = false ∧ f = .badSize va n) ∨
      (legalSize n = true ∧ va.toNat % n ≠ 0 ∧ f = .misaligned va n) ∨
      (legalSize n = true ∧ va.toNat % n = 0 ∧ s.cfg.capacity < s.offset va + n ∧ f = .outOfBounds va n) := by
  unfold State.translate at h
  split at h
  · cases h; exact .inl ⟨‹_›, rfl⟩
  · split at h
    · cases h; exact .inr (.inl ⟨by simpa using ‹¬legalSize n = false›, ‹_›, rfl⟩)
    · split at h
      · cases h
        exact .inr (.inr ⟨by simpa using ‹¬legalSize n = false›, by omega, ‹_›, rfl⟩)
      · cases h

/-- A load answers the little-endian value of the bytes at the translated address (R55). -/
theorem State.memRead_ok_iff (s : State) (va : Word) (n : Nat) (v : Word) :
    s.memRead va n = .ok v ↔ ∃ off, s.translate va n = .ok off ∧ v = BitVec.ofNat 64 (s.mem.readLE off n) := by
  unfold State.memRead
  cases h : s.translate va n <;> simp [eq_comm]

/-- A load fails exactly as the translator does (R55). -/
theorem State.memRead_error_iff (s : State) (va : Word) (n : Nat) (f : Fault) :
    s.memRead va n = .error f ↔ s.translate va n = .error f := by
  unfold State.memRead
  cases h : s.translate va n <;> simp

/-- A store answers the state with the bytes at the translated address replaced (R56). -/
theorem State.memWrite_ok_iff (s : State) (va : Word) (n : Nat) (v : Word) (t : State) :
    s.memWrite va n v = .ok t ↔
      ∃ off, s.translate va n = .ok off ∧ t = s.setMem (s.mem.writeLE off n v) := by
  unfold State.memWrite
  cases h : s.translate va n <;> simp [eq_comm]

/-- A store fails exactly as the translator does, and then writes nothing (R56). -/
theorem State.memWrite_error_iff (s : State) (va : Word) (n : Nat) (v : Word) (f : Fault) :
    s.memWrite va n v = .error f ↔ s.translate va n = .error f := by
  unfold State.memWrite
  cases h : s.translate va n <;> simp

/-! ### The shapes of effects -/

/-- A load effect writes its register or raises the unit's fault (R260). -/
theorem State.loadInto_cases (s : State) (rd : RegIdx) (va : Word) (n : Nat) (e : Word → Word) :
    (∃ off, s.translate va n = .ok off ∧
      s.loadInto rd va n e = .next (s.setReg rd (e (BitVec.ofNat 64 (s.mem.readLE off n))))) ∨
    (∃ f, s.translate va n = .error f ∧ s.loadInto rd va n e = .next (s.raise f)) := by
  unfold State.loadInto State.memRead
  cases h : s.translate va n with
  | ok off => exact .inl ⟨off, rfl, rfl⟩
  | error f => exact .inr ⟨f, rfl, rfl⟩

/-- A store effect writes the bytes at the translated address or raises the unit's fault (R260). -/
theorem State.storeAt_cases (s : State) (va : Word) (n : Nat) (v : Word) :
    (∃ off, s.translate va n = .ok off ∧ s.storeAt va n v = .next (s.setMem (s.mem.writeLE off n v))) ∨
    (∃ f, s.translate va n = .error f ∧ s.storeAt va n v = .next (s.raise f)) := by
  unfold State.storeAt State.memWrite
  cases h : s.translate va n with
  | ok off => exact .inl ⟨off, rfl, rfl⟩
  | error f => exact .inr ⟨f, rfl, rfl⟩

/-- A branch effect transfers control or leaves the state as it is (R230). -/
theorem State.branchIf_cases (s : State) (c : Bool) (off : Word) :
    s.branchIf c off = .next (s.setPc (s.instrAddr + off)) ∨ s.branchIf c off = .next s := by
  unfold State.branchIf
  split
  · exact .inl rfl
  · exact .inr rfl

/-! ### What an effect can do -/

/-- The ways an effect ends: a register written; a register and the pc; the pc; nothing; bytes stored; the
halt flag set; a fault recorded. -/
inductive EffectOf (i : Instr) (s : State) : State → Prop where
  | wroteReg (rd : RegIdx) (v : Word) (hd : destOf i = some rd) (hc : isControl i = false) :
      EffectOf i s (s.setReg rd v)
  | jumped (rd : RegIdx) (v p : Word) (hd : destOf i = some rd) (hc : isControl i = true) :
      EffectOf i s ((s.setReg rd v).setPc p)
  | branched (p : Word) (hc : isControl i = true) : EffectOf i s (s.setPc p)
  | didNothing : EffectOf i s s
  | stored (va : Word) (n off : Nat) (v : Word) (hr : storeRange s i = some (off, n))
      (ht : s.translate va n = .ok off) : EffectOf i s (s.setMem (s.mem.writeLE off n v))
  | halted (hi : i = .ecall) (hc : Mnemonic.ecall ∈ s.cfg.haltClass) : EffectOf i s s.finish
  | raised (f : Fault) (hm : mayFault i = true) (hb : ∀ va n, f ≠ .badSize va n)
      (hw : ∀ w a, f = .illegalInstruction w a → i = .illegal w) : EffectOf i s (s.raise f)

/-- A fault of the translator at a legal size is a misaligned or an out-of-bounds access. -/
theorem State.translate_error_kind {s : State} {va : Word} {n : Nat} {f : Fault} (hn : legalSize n = true)
    (h : s.translate va n = .error f) : f = .misaligned va n ∨ f = .outOfBounds va n := by
  rcases State.translate_error h with ⟨h0, -⟩ | ⟨-, -, h⟩ | ⟨-, -, -, h⟩
  · simp [hn] at h0
  · exact .inl h
  · exact .inr h

theorem effectOf_loadInto {i : Instr} {s : State} {rd : RegIdx} {va : Word} {n : Nat} {e : Word → Word}
    (hn : legalSize n = true) (hd : destOf i = some rd) (hc : isControl i = false) (hm : mayFault i = true) :
    ∃ t, s.loadInto rd va n e = .next t ∧ EffectOf i s t := by
  rcases s.loadInto_cases rd va n e with ⟨off, -, h⟩ | ⟨f, hf, h⟩
  · exact ⟨_, h, .wroteReg _ _ hd hc⟩
  · refine ⟨_, h, .raised f hm ?_ ?_⟩ <;>
      rcases State.translate_error_kind hn hf with rfl | rfl <;> simp

theorem effectOf_storeAt {i : Instr} {s : State} {va : Word} {n : Nat} {v : Word} (hn : legalSize n = true)
    (hr : storeRange s i = some (s.offset va, n)) (hm : mayFault i = true) :
    ∃ t, s.storeAt va n v = .next t ∧ EffectOf i s t := by
  rcases s.storeAt_cases va n v with ⟨off, ht, h⟩ | ⟨f, hf, h⟩
  · obtain ⟨-, -, -, rfl⟩ := (s.translate_ok_iff va n off).1 ht
    exact ⟨_, h, .stored va n _ v hr ht⟩
  · refine ⟨_, h, .raised f hm ?_ ?_⟩ <;>
      rcases State.translate_error_kind hn hf with rfl | rfl <;> simp

theorem effectOf_branchIf {i : Instr} {s : State} {c : Bool} {off : Word} (hc : isControl i = true) :
    ∃ t, s.branchIf c off = .next t ∧ EffectOf i s t := by
  rcases s.branchIf_cases c off with h | h
  · exact ⟨_, h, .branched _ hc⟩
  · exact ⟨_, h, .didNothing⟩

/-- Every effect answers a next state, and that state is one of `EffectOf`. -/
theorem exec_effect (i : Instr) (s : State) : ∃ t, exec i s = .next t ∧ EffectOf i s t := by
  cases i with
  | emptyFetch => exact ⟨_, rfl, .didNothing⟩
  | fence => exact ⟨_, rfl, .didNothing⟩
  | ecall =>
    refine ⟨_, rfl, ?_⟩
    unfold State.finishAs
    split
    · exact .halted rfl (by simp_all)
    · exact .didNothing
  | ebreak => exact ⟨_, rfl, .raised _ rfl (by simp) (by simp)⟩
  | illegal w => exact ⟨_, rfl, .raised _ rfl (by simp) (by rintro w' a h; cases h; rfl)⟩
  | jal => exact ⟨_, rfl, .jumped _ _ _ rfl rfl⟩
  | jalr => exact ⟨_, rfl, .jumped _ _ _ rfl rfl⟩
  | beq => exact effectOf_branchIf rfl
  | bne => exact effectOf_branchIf rfl
  | blt => exact effectOf_branchIf rfl
  | bge => exact effectOf_branchIf rfl
  | bltu => exact effectOf_branchIf rfl
  | bgeu => exact effectOf_branchIf rfl
  | lb => exact effectOf_loadInto rfl rfl rfl rfl
  | lh => exact effectOf_loadInto rfl rfl rfl rfl
  | lw => exact effectOf_loadInto rfl rfl rfl rfl
  | ld => exact effectOf_loadInto rfl rfl rfl rfl
  | lbu => exact effectOf_loadInto rfl rfl rfl rfl
  | lhu => exact effectOf_loadInto rfl rfl rfl rfl
  | lwu => exact effectOf_loadInto rfl rfl rfl rfl
  | sb => exact effectOf_storeAt rfl rfl rfl
  | sh => exact effectOf_storeAt rfl rfl rfl
  | sw => exact effectOf_storeAt rfl rfl rfl
  | sd => exact effectOf_storeAt rfl rfl rfl
  | _ => exact ⟨_, rfl, .wroteReg _ _ rfl rfl⟩

/-- The inversion of `exec`. -/
theorem exec_cases {i : Instr} {s t : State} (h : exec i s = .next t) : EffectOf i s t := by
  obtain ⟨t', h', he⟩ := exec_effect i s
  rw [h'] at h
  cases h
  exact he

end Sys2Proof.Machine
end

