-- ==== Sys2Proof/Laws/Cycle.lean ====
section
/-!
SUPPORT. What a fetch finds, the state an effect runs in, and the inversion of a step.
-/

namespace Sys2Proof.Machine

/-! ### Fetch -/

/-- Four bytes read as a word spell it. -/
theorem Memory.readLE_four {m : Memory} {off : Nat} {w : InstrWord}
    (h : ∀ k, k < 4 → (m.read (off + k)).toNat = w.toNat / 256 ^ k % 256) : m.readLE off 4 = w.toNat := by
  have h0 := h 0 (by omega)
  have h1 := h 1 (by omega)
  have h2 := h 2 (by omega)
  have h3 := h 3 (by omega)
  have hw := w.isLt
  simp only [Memory.readLE, Nat.add_zero, Nat.add_assoc, Nat.reduceAdd] at h0 h1 h2 h3 ⊢
  norm_num at h0 h1 h2 h3
  omega

/-- The bytes of a four-byte load. -/
theorem Memory.read_of_readLE_four (m : Memory) (off k : Nat) (hk : k < 4) :
    (m.read (off + k)).toNat = m.readLE off 4 / 256 ^ k % 256 := by
  have := m.readLE_byte off hk
  rw [← this, show (256 : Nat) = 2 ^ 8 by rfl, ← Nat.pow_mul]

/-- The word a state fetches is unique. -/
theorem State.Fetches.unique {s : State} {w w' : InstrWord} (h : s.Fetches w) (h' : s.Fetches w') : w = w' := by
  apply BitVec.eq_of_toNat_eq
  rw [← Memory.readLE_four h.2.2, ← Memory.readLE_four h'.2.2]

/-- A fetch finds a word exactly when the translator accepts the pc. -/
theorem State.fetches_of_translate {s : State} {off : Nat} (h : s.translate s.pc 4 = .ok off) :
    s.Fetches (BitVec.ofNat 32 (s.mem.readLE (s.offset s.pc) 4)) := by
  obtain ⟨-, ha, hb, rfl⟩ := (s.translate_ok_iff _ _ _).1 h
  refine ⟨ha, hb, fun k hk => ?_⟩
  have hlt := s.mem.readLE_lt (s.offset s.pc) 4
  have heq : (BitVec.ofNat 32 (s.mem.readLE (s.offset s.pc) 4)).toNat = s.mem.readLE (s.offset s.pc) 4 := by
    rw [BitVec.toNat_ofNat]; exact Nat.mod_eq_of_lt hlt
  rw [heq]
  exact Memory.read_of_readLE_four _ _ _ hk

/-- Where a fetch finds a word the translator accepts the pc. -/
theorem State.Fetches.translate {s : State} {w : InstrWord} (h : s.Fetches w) :
    s.translate s.pc 4 = .ok (s.offset s.pc) :=
  (s.translate_ok_iff _ _ _).2 ⟨rfl, h.1, h.2.1, rfl⟩

/-- The state after steps 1 and 2 of a cycle that fetches `w`. -/
def State.fetched (s : State) (w : InstrWord) : State :=
  (s.zeroForce.setFl { word := w, addr := s.pc }).setPc (s.pc + 4)

/-- Steps 1 and 2 of a cycle that fetches `w` (R131 to R133). -/
theorem State.Fetches.fetch {s : State} {w : InstrWord} (h : s.Fetches w) :
    s.zeroForce.fetch = .ok (s.fetched w) := by
  have hr : s.zeroForce.memRead s.zeroForce.pc 4 = .ok (BitVec.ofNat 64 w.toNat) := by
    refine (State.memRead_ok_iff _ _ _ _).2 ⟨_, h.translate, ?_⟩
    rw [show s.zeroForce.mem = s.mem from rfl, Memory.readLE_four h.2.2]
  have hw : (BitVec.ofNat 64 w.toNat).extractLsb' 0 32 = w := by
    apply BitVec.eq_of_toNat_eq
    have := w.isLt
    simp [BitVec.extractLsb'_toNat]
    omega
  simp only [State.fetch, hr, hw]
  rfl

/-- A fetch the translator refuses answers its fault (R132). -/
theorem State.fetch_error {s : State} {f : Fault} (h : s.translate s.pc 4 = .error f) :
    s.zeroForce.fetch = .error f := by
  have hr : s.zeroForce.memRead s.zeroForce.pc 4 = .error f := (State.memRead_error_iff _ _ _ _).2 h
  simp only [State.fetch, hr]

/-! ### Execute -/

/-- The end of a cycle in the two ways it is written. -/
theorem State.afterEffect_eq (t : State) {d : Descriptor} {i : Instr} (h : d.mn = i.mnemonic) :
    t.afterEffect d = t.afterCycle i := by
  unfold State.afterEffect State.afterCycle
  cases hf : t.fault with
  | some f => rfl
  | none =>
    by_cases hm : i.mnemonic ∈ t.cfg.haltClass
    · simp [State.completeEffect, h, hm, State.retire, State.setDl, State.countStep, State.finishAs, State.finish, hf]
    · simp [State.completeEffect, h, hm, State.retire, State.setDl, State.countStep, hf]

/-- Whatever the end of a cycle does, it changes only the decode latch, the count and the halt flag. -/
theorem State.afterEffect_frame (t : State) (d : Descriptor) :
    (t.afterEffect d).cfg = t.cfg ∧ (t.afterEffect d).trace = t.trace ∧ (t.afterEffect d).x = t.x ∧
      (t.afterEffect d).pc = t.pc ∧ (t.afterEffect d).mem = t.mem ∧ (t.afterEffect d).fl = t.fl ∧
      (t.afterEffect d).fault = t.fault ∧ (t.afterEffect d).events = t.events ∧
      (t.halted = true → (t.afterEffect d).halted = true) ∧
      (t.fault = none → (t.afterEffect d).count = t.count + 1 ∧ (t.afterEffect d).dl = none) ∧
      (t.fault ≠ none → t.afterEffect d = t) := by
  unfold State.afterEffect State.completeEffect
  cases h : t.fault with
  | some f => simp [h]
  | none => by_cases hm : d.mn ∈ t.cfg.haltClass <;> simp [hm, h, State.retire, State.countStep]

/-- Execute of a descriptor, for every decoder: the bound effect in the state with the snapshot taken, then the
end of the cycle (R137 to R140). -/
theorem State.executeStage_some (D : Decoder) {s : State} {d : Descriptor} (h : s.dl = some d) :
    s.executeStage D = match D.effect d.word (s.snapshotStage d) with
      | .next t => .next (t.afterEffect d)
      | .fault f => .fault f
      | .refused r => .refused r := by
  cases hD : D.effect d.word (s.snapshotStage d) <;> simp only [State.executeStage, h, hD]

/-- With an empty latch the stage only counts, for every decoder (R136, R140). -/
theorem State.executeStage_none (D : Decoder) {s : State} (h : s.dl = none) :
    s.executeStage D = .next s.countStep := by
  simp only [State.executeStage, h]
  rfl

/-- Execute of a descriptor under the reference decoder: one of the ways an effect ends, then the end of the
cycle. -/
theorem State.executeStage_rv64i {s : State} {d : Descriptor} (h : s.dl = some d) :
    ∃ u, exec (decoder d.word) (s.snapshotStage d) = .next u ∧
      EffectOf (decoder d.word) (s.snapshotStage d) u ∧
      s.executeStage Decoder.rv64i = .next (u.afterEffect d) := by
  obtain ⟨u, hu, he⟩ := exec_effect (decoder d.word) (s.snapshotStage d)
  refine ⟨u, hu, he, ?_⟩
  rw [State.executeStage_some _ h, show Decoder.rv64i.effect d.word = exec (decoder d.word) from rfl, hu]

/-- Decode of a non-empty word fills the latch with its descriptor, whatever the latch held (R135). -/
theorem State.decodeStage_nonempty (D : Decoder) {s : State} (h : s.fl.word ≠ 0#32) :
    s.decodeStage D = s.setDl (some (s.fl.descriptor D)) := if_neg h

/-- Decode of the empty word changes nothing (R134). -/
theorem State.decodeStage_empty (D : Decoder) {s : State} (h : s.fl.word = 0#32) : s.decodeStage D = s := if_pos h

/-- A non-empty word is decoded, whatever the latch held (R135). -/
theorem decode_eq_decoder {w : InstrWord} (h : w ≠ 0#32) : decode w = decoder w := by
  unfold decode
  split
  · exact absurd rfl h
  · rfl

/-! ### The snapshot stage: only the events change, and only by a snapshot at their end (R137) -/

@[simp] theorem State.snapshotStage_cfg (s : State) (d : Descriptor) : (s.snapshotStage d).cfg = s.cfg := by
  unfold State.snapshotStage; split <;> rfl
@[simp] theorem State.snapshotStage_trace (s : State) (d : Descriptor) : (s.snapshotStage d).trace = s.trace := by
  unfold State.snapshotStage; split <;> rfl
@[simp] theorem State.snapshotStage_x (s : State) (d : Descriptor) : (s.snapshotStage d).x = s.x := by
  unfold State.snapshotStage; split <;> rfl
@[simp] theorem State.snapshotStage_pc (s : State) (d : Descriptor) : (s.snapshotStage d).pc = s.pc := by
  unfold State.snapshotStage; split <;> rfl
@[simp] theorem State.snapshotStage_mem (s : State) (d : Descriptor) : (s.snapshotStage d).mem = s.mem := by
  unfold State.snapshotStage; split <;> rfl
@[simp] theorem State.snapshotStage_fl (s : State) (d : Descriptor) : (s.snapshotStage d).fl = s.fl := by
  unfold State.snapshotStage; split <;> rfl
@[simp] theorem State.snapshotStage_dl (s : State) (d : Descriptor) : (s.snapshotStage d).dl = s.dl := by
  unfold State.snapshotStage; split <;> rfl
@[simp] theorem State.snapshotStage_halted (s : State) (d : Descriptor) : (s.snapshotStage d).halted = s.halted := by
  unfold State.snapshotStage; split <;> rfl
@[simp] theorem State.snapshotStage_count (s : State) (d : Descriptor) : (s.snapshotStage d).count = s.count := by
  unfold State.snapshotStage; split <;> rfl
@[simp] theorem State.snapshotStage_fault (s : State) (d : Descriptor) : (s.snapshotStage d).fault = s.fault := by
  unfold State.snapshotStage; split <;> rfl
@[simp] theorem State.snapshotStage_reg (s : State) (d : Descriptor) (r : RegIdx) :
    (s.snapshotStage d).reg r = s.reg r := by
  unfold State.snapshotStage; split <;> rfl
/-- What the stage does to the events. -/
theorem State.snapshotStage_events (s : State) (d : Descriptor) :
    (s.snapshotStage d).events = s.events ∨ (s.snapshotStage d).events = s.events ++ [.snapshot s.pc s.x] := by
  unfold State.snapshotStage
  split
  · exact .inr rfl
  · exact .inl rfl

/-! ### The end of a cycle -/

/-- After a raise nothing of the cycle is left to do (R312). -/
theorem State.afterCycle_of_fault {t : State} {f : Fault} (h : t.fault = some f) (i : Instr) :
    t.afterCycle i = t := by
  simp only [State.afterCycle, h]

/-- Without a fault the descriptor is retired, the count goes up, and a halt-class mnemonic has set the halt
flag (R139 to R141). -/
theorem State.afterCycle_of_none {t : State} (h : t.fault = none) (i : Instr) :
    t.afterCycle i =
      { t with
        dl := none
        count := t.count + 1
        halted := t.halted || decide (i.mnemonic ∈ t.cfg.haltClass) } := by
  simp only [State.afterCycle, h]

/-- Whatever the end of a cycle does, it changes only the decode latch, the count and the halt flag. -/
theorem State.afterCycle_frame (t : State) (i : Instr) :
    (t.afterCycle i).cfg = t.cfg ∧ (t.afterCycle i).trace = t.trace ∧ (t.afterCycle i).x = t.x ∧
      (t.afterCycle i).pc = t.pc ∧ (t.afterCycle i).mem = t.mem ∧ (t.afterCycle i).fl = t.fl ∧
      (t.afterCycle i).fault = t.fault ∧ (t.afterCycle i).events = t.events ∧
      (t.halted = true → (t.afterCycle i).halted = true) ∧ t.count ≤ (t.afterCycle i).count := by
  unfold State.afterCycle
  cases h : t.fault <;> simp_all

/-- The state of the effect of a fetched word is `atEffect`. -/
theorem State.fetched_atEffect (s : State) {w : InstrWord} (h : w ≠ 0#32) :
    ((s.fetched w).decodeStage Decoder.rv64i).snapshotStage
      { mn := (decode w).mnemonic, addr := s.pc, word := w } = s.atEffect w := by
  rw [State.decodeStage_nonempty _ (show (s.fetched w).fl.word ≠ 0#32 from h)]
  have hd : (s.fetched w).fl.descriptor Decoder.rv64i = { mn := (decode w).mnemonic, addr := s.pc, word := w } := by
    rw [decode_eq_decoder h]; rfl
  rw [hd]
  unfold State.snapshotStage State.atEffect State.snapshots
  by_cases hc : s.trace = true ∧ (decode w).mnemonic ∈ s.cfg.callReturnClass
  · rw [if_pos hc, if_pos (by simpa [State.fetched, State.zeroForce] using hc)]
    rfl
  · rw [if_neg hc, if_neg (by simpa [State.fetched, State.zeroForce] using hc), List.append_nil]
    rfl

/-! ### A cycle, for every decoder -/

/-- A cycle of a state that holds a fault stops with it (R312). -/
theorem State.cycle_faulted (D : Decoder) {s : State} {f : Fault} (h : s.fault = some f) :
    s.cycle D = .fault f := by
  simp only [State.cycle, h]

/-- A cycle whose fetch faults (R132, R313). -/
theorem State.cycle_fetch_error (D : Decoder) {s : State} {f : Fault} (hf : s.fault = none)
    (h : s.translate s.pc 4 = .error f) : s.cycle D = .next (s.zeroForce.raise f) := by
  simp only [State.cycle, hf, State.fetch_error h]

/-- A cycle that fetches a word decodes and executes it (R142). -/
theorem State.Fetches.cycle (D : Decoder) {s : State} {w : InstrWord} (h : s.Fetches w) (hf : s.fault = none) :
    s.cycle D = ((s.fetched w).decodeStage D).executeStage D := by
  simp only [State.cycle, hf, h.fetch]

/-- A cycle that fetches the empty word with an empty decode latch is a bubble (R134, R136). -/
theorem State.Fetches.cycle_bubble (D : Decoder) {s : State} (h : s.Fetches 0#32) (hf : s.fault = none)
    (hl : s.dl = none) : s.cycle D = .next (s.fetched 0#32).countStep := by
  rw [h.cycle D hf, State.decodeStage_empty D rfl]
  exact State.executeStage_none D hl

/-- A cycle that fetches a non-empty word applies the effect the decoder binds to it, in the state with its
descriptor in the latch and its snapshot taken (R135 to R140). -/
theorem State.Fetches.cycle_effect (D : Decoder) {s : State} {w : InstrWord} (h : s.Fetches w)
    (hf : s.fault = none) (hw : w ≠ 0#32) :
    let d : Descriptor := { mn := D.mnemonic w, addr := s.pc, word := w }
    s.cycle D = match D.effect w (((s.fetched w).setDl (some d)).snapshotStage d) with
      | .next t => .next (t.afterEffect d)
      | .fault f => .fault f
      | .refused r => .refused r := by
  rw [h.cycle D hf, State.decodeStage_nonempty D (show (s.fetched w).fl.word ≠ 0#32 from hw)]
  exact State.executeStage_some (s := (s.fetched w).setDl (some ((s.fetched w).fl.descriptor D))) D rfl

/-! ### A step -/

/-- The step of a state that fetches a non-empty word: the effect of what it decodes to, then the end of the
cycle (R142). -/
theorem State.Fetches.step {s : State} {w : InstrWord} (h : s.Fetches w) (hf : s.fault = none) (hw : w ≠ 0#32) :
    ∃ u, exec (decode w) (s.atEffect w) = .next u ∧ EffectOf (decode w) (s.atEffect w) u ∧
      step s = .next (u.afterCycle (decode w)) := by
  have hd : ((s.fetched w).decodeStage Decoder.rv64i).dl =
      some { mn := (decode w).mnemonic, addr := s.pc, word := w } := by
    rw [State.decodeStage_nonempty _ (show (s.fetched w).fl.word ≠ 0#32 from hw), decode_eq_decoder hw]
    rfl
  obtain ⟨u, hu, he, hs⟩ := State.executeStage_rv64i hd
  rw [State.fetched_atEffect s hw, ← decode_eq_decoder hw] at hu he
  refine ⟨u, hu, he, ?_⟩
  rw [← State.afterEffect_eq u (d := { mn := (decode w).mnemonic, addr := s.pc, word := w }) rfl, ← hs]
  exact h.cycle _ hf

/-- The step of a state that fetches the empty word, by what the decode latch holds (R134, R136). -/
theorem State.Fetches.step_empty {s : State} (h : s.Fetches 0#32) (hf : s.fault = none) :
    (s.dl = none ∧ Sys2Proof.Machine.step s = .next (s.fetched 0#32).countStep) ∨
    (∃ d u, s.dl = some d ∧ EffectOf (decoder d.word) ((s.fetched 0#32).snapshotStage d) u ∧
      Sys2Proof.Machine.step s = .next (u.afterEffect d)) := by
  cases hl : s.dl with
  | none => exact .inl ⟨rfl, h.cycle_bubble _ hf hl⟩
  | some d =>
    obtain ⟨u, -, he, hs⟩ := State.executeStage_rv64i (s := s.fetched 0#32) hl
    refine .inr ⟨d, u, rfl, he, ?_⟩
    rw [← hs, ← State.decodeStage_empty Decoder.rv64i (s := s.fetched 0#32) rfl]
    exact h.cycle _ hf

/-- The step of a state whose fetch faults (R132, R313). -/
theorem step_fetch_error {s : State} {f : Fault} (hf : s.fault = none) (h : s.translate s.pc 4 = .error f) :
    step s = .next (s.zeroForce.raise f) := State.cycle_fetch_error _ hf h

/-- A step of a state that holds a fault stops with it (R312). -/
theorem step_faulted {s : State} {f : Fault} (h : s.fault = some f) : step s = .fault f :=
  State.cycle_faulted _ h

/-- The ways a step that answers a next state goes: the fetch faulted; an empty word with an empty latch; an
empty word with a descriptor left in the latch, which no invariant state has; or an instruction ran. -/
theorem step_cases {s t : State} (h : step s = .next t) :
    s.fault = none ∧
    ((∃ f, s.translate s.pc 4 = .error f ∧ t = s.zeroForce.raise f) ∨
     (s.Fetches 0#32 ∧ s.dl = none ∧ t = (s.fetched 0#32).countStep) ∨
     (∃ d u, s.Fetches 0#32 ∧ s.dl = some d ∧ EffectOf (decoder d.word) ((s.fetched 0#32).snapshotStage d) u ∧
       t = u.afterEffect d) ∨
     (∃ w u, s.Fetches w ∧ w ≠ 0#32 ∧ EffectOf (decode w) (s.atEffect w) u ∧
       t = u.afterCycle (decode w))) := by
  cases hf : s.fault with
  | some f => rw [step_faulted hf] at h; cases h
  | none =>
    refine ⟨rfl, ?_⟩
    cases ht : s.translate s.pc 4 with
    | error f =>
      rw [step_fetch_error hf ht] at h
      cases h
      exact .inl ⟨f, rfl, rfl⟩
    | ok off =>
      have hw := State.fetches_of_translate ht
      generalize BitVec.ofNat 32 (s.mem.readLE (s.offset s.pc) 4) = w at hw
      by_cases h0 : w = 0#32
      · subst h0
        rcases hw.step_empty hf with ⟨hl, hs⟩ | ⟨d, u, hl, he, hs⟩
        · rw [hs] at h; cases h
          exact .inr (.inl ⟨hw, hl, rfl⟩)
        · rw [hs] at h; cases h
          exact .inr (.inr (.inl ⟨d, u, hw, hl, he, rfl⟩))
      · obtain ⟨u, -, he, hs⟩ := hw.step hf h0
        rw [hs] at h; cases h
        exact .inr (.inr (.inr ⟨w, u, hw, h0, he, rfl⟩))

/-! ### The decoder and the hart -/

/-- Everything an effect routine can do (R138): it answers a next state, in which neither latch, nor the
count, the events or the configuration has changed; the halt flag is only ever set, and only under a tag of the
halt class; and memory keeps its canonical form. -/
theorem EffectRoutine.frame {m : Mnemonic} {e : State → Result} (he : EffectRoutine m e) (s : State) :
    ∃ t, e s = .next t ∧ t.fl = s.fl ∧ t.dl = s.dl ∧ t.count = s.count ∧ t.events = s.events ∧ t.cfg = s.cfg ∧
      t.trace = s.trace ∧ (t.halted = s.halted ∨ t.halted = true ∧ m ∈ s.cfg.haltClass) ∧
      (s.mem.wf = true → t.mem.wf = true) := by
  induction he generalizing s with
  | done => exact ⟨s, rfl, by simp⟩
  | get i _ ih => exact ih _ s
  | set i v _ ih => simpa using ih (s.setReg i v)
  | getPc _ ih => exact ih _ s
  | setPc target _ ih => simpa using ih (s.setPc target)
  | memRead va n _ ih =>
    cases h : s.memRead va n with
    | ok v => simpa only [h] using ih v s
    | error f => exact ⟨s.raise f, by simp [h]⟩
  | memWrite va n v _ ih =>
    cases h : s.memWrite va n v with
    | ok t =>
      obtain ⟨off, -, rfl⟩ := (State.memWrite_ok_iff _ _ _ _ _).1 h
      obtain ⟨t, h1, h2, h3, h4, h5, h6, h7, h8, h9⟩ := ih (s.setMem (s.mem.writeLE off n v))
      exact ⟨t, by simpa only [h] using h1, h2, h3, h4, h5, h6, h7, h8,
        fun hm => h9 (Memory.writeLE_wf hm _ _ _)⟩
    | error f => exact ⟨s.raise f, by simp [h]⟩
  | finish _ ih =>
    obtain ⟨t, h1, h2, h3, h4, h5, h6, h7, h8, h9⟩ := ih (s.finishAs m)
    refine ⟨t, h1, by simpa using h2, by simpa using h3, by simpa using h4, by simpa using h5, by simpa using h6,
      by simpa using h7, ?_, by simpa using h9⟩
    rcases h8 with h8 | h8
    · by_cases hm : m ∈ s.cfg.haltClass
      · exact .inr ⟨by simpa [hm] using h8, hm⟩
      · exact .inl (by simpa [hm] using h8)
    · exact .inr (by simpa using h8)
  | addr _ ih => exact ih _ s
  | raise f => exact ⟨s.raise f, rfl, by simp⟩

/-- `s` with another halt flag, count, events and trace flag: what no effect routine reads. -/
def State.veil (s : State) (halted : Bool) (count : Nat) (events : List Event) (trace : Bool) : State :=
  { s with halted := halted, count := count, events := events, trace := trace }

/-- An effect routine reads none of the halt flag, the count, the events and the trace flag (R138): from states
that differ in these only, it answers states that agree in everything else. -/
theorem EffectRoutine.blind {m : Mnemonic} {e : State → Result} (he : EffectRoutine m e) (s : State)
    (b : Bool) (n : Nat) (ev : List Event) (tr : Bool) :
    ∃ t b', e s = .next t ∧ e (s.veil b n ev tr) = .next (t.veil b' n ev tr) := by
  induction he generalizing s b with
  | done => exact ⟨s, b, rfl, rfl⟩
  | get i _ ih => exact ih _ s b
  | set i v _ ih => exact ih (s.setReg i v) b
  | getPc _ ih => exact ih _ s b
  | setPc target _ ih => exact ih (s.setPc target) b
  | memRead va k _ ih =>
    have hv : (s.veil b n ev tr).memRead va k = s.memRead va k := rfl
    cases h : s.memRead va k with
    | ok v => simpa only [hv, h] using ih v s b
    | error f => exact ⟨s.raise f, b, by simp [h], by simp only [hv, h]; rfl⟩
  | memWrite va k v _ ih =>
    cases h : s.translate va k with
    | ok off =>
      have h1 : s.memWrite va k v = .ok (s.setMem (s.mem.writeLE off k v)) := by simp only [State.memWrite, h]
      have h2 : (s.veil b n ev tr).memWrite va k v = .ok ((s.setMem (s.mem.writeLE off k v)).veil b n ev tr) := by
        simp only [State.memWrite, show (s.veil b n ev tr).translate va k = .ok off from h]; rfl
      simpa only [h1, h2] using ih (s.setMem (s.mem.writeLE off k v)) b
    | error f =>
      have h1 : s.memWrite va k v = .error f := by simp only [State.memWrite, h]
      have h2 : (s.veil b n ev tr).memWrite va k v = .error f := by
        simp only [State.memWrite, show (s.veil b n ev tr).translate va k = .error f from h]
      exact ⟨s.raise f, b, by simp only [h1], by simp only [h2]; rfl⟩
  | finish _ ih =>
    obtain ⟨t, b', h1, h2⟩ := ih (s.finishAs m) (b || decide (m ∈ s.cfg.haltClass))
    refine ⟨t, b', h1, ?_⟩
    have hv : (s.veil b n ev tr).finishAs m =
        (s.finishAs m).veil (b || decide (m ∈ s.cfg.haltClass)) n ev tr := by
      unfold State.finishAs State.veil
      by_cases hm : m ∈ s.cfg.haltClass <;> simp [hm, State.finish]
    simpa only [hv] using h2
  | addr _ ih => exact ih _ s b
  | raise f => exact ⟨s.raise f, b, rfl, rfl⟩

/-- The effects of every decoder keep to the operations of R138. -/
theorem Decoder.keepsChannel (D : Decoder) : D.KeepsChannel := by
  intro w s t h
  obtain ⟨u, hu, h1, h2, h3, h4, h5, h6, -⟩ := (D.2 w).frame s
  rw [show D.effect w s = .next u from hu] at h
  cases h
  exact ⟨h1, h2, h3, h4, h5, h6⟩

/-- A hart's cycle is the cycle of its state with its own decoder and the trace flag given. -/
theorem Hart.cycle_next_iff {D : Decoder} (h t : Hart D) (trace : Bool) :
    h.cycle trace = .next t ↔ State.cycle D { h.state with trace := trace } = .next t.state := by
  unfold Hart.cycle State.cycleWith
  cases State.cycle D { h.state with trace := trace } <;> simp
  constructor
  · rintro rfl; rfl
  · rintro rfl; rfl

/-- A hart is booted with any decoder exactly when `boot` gives its state. -/
theorem Hart.boot_hart_iff {D : Decoder} (h : Hart D) (gate : LeadInGate) (flagBits : FlagBits) (p : BootParams) :
    Hart.boot D gate flagBits p = .hart h ↔ Sys2Proof.Machine.boot (gate flagBits) p = .hart h.state := by
  unfold Hart.boot
  cases Sys2Proof.Machine.boot (gate flagBits) p <;> simp [BootResult.map]
  constructor
  · rintro rfl; rfl
  · rintro rfl; rfl

end Sys2Proof.Machine
end

