-- ==== Sys2Proof/Laws/Encoding.lean ====
section
/-!
SUPPORT. The fields of an encoded word: reading a field back from a format's word gives the field.
-/

namespace Sys2Proof

/-- Concatenation as arithmetic: the left part is shifted above the right. -/
theorem toNat_append_eq {m n : Nat} (a : BitVec m) (b : BitVec n) :
    (a ++ b).toNat = a.toNat * 2 ^ n + b.toNat := by
  rw [BitVec.toNat_append, ← Nat.shiftLeft_add_eq_or_of_lt b.isLt, Nat.shiftLeft_eq]

/-- A field as arithmetic. -/
theorem toNat_extract_eq {m : Nat} (s n : Nat) (a : BitVec m) :
    (a.extractLsb' s n).toNat = a.toNat / 2 ^ s % 2 ^ n := by
  rw [BitVec.extractLsb'_toNat, Nat.shiftRight_eq_div_pow]

/-! ### encR -/

@[simp] theorem encR_opcode (f7 : BitVec 7) (rs2 rs1 : BitVec 5) (f3 : BitVec 3) (rd : BitVec 5) (op : BitVec 7) :
    opcodeOf (encR f7 rs2 rs1 f3 rd op) = op := by
  apply BitVec.eq_of_toNat_eq; simp only [opcodeOf, encR, toNat_extract_eq, toNat_append_eq]; omega
@[simp] theorem encR_rd (f7 : BitVec 7) (rs2 rs1 : BitVec 5) (f3 : BitVec 3) (rd : BitVec 5) (op : BitVec 7) :
    rdOf (encR f7 rs2 rs1 f3 rd op) = rd := by
  apply BitVec.eq_of_toNat_eq; simp only [rdOf, encR, toNat_extract_eq, toNat_append_eq]; omega
@[simp] theorem encR_funct3 (f7 : BitVec 7) (rs2 rs1 : BitVec 5) (f3 : BitVec 3) (rd : BitVec 5) (op : BitVec 7) :
    funct3Of (encR f7 rs2 rs1 f3 rd op) = f3 := by
  apply BitVec.eq_of_toNat_eq; simp only [funct3Of, encR, toNat_extract_eq, toNat_append_eq]; omega
@[simp] theorem encR_rs1 (f7 : BitVec 7) (rs2 rs1 : BitVec 5) (f3 : BitVec 3) (rd : BitVec 5) (op : BitVec 7) :
    rs1Of (encR f7 rs2 rs1 f3 rd op) = rs1 := by
  apply BitVec.eq_of_toNat_eq; simp only [rs1Of, encR, toNat_extract_eq, toNat_append_eq]; omega
@[simp] theorem encR_rs2 (f7 : BitVec 7) (rs2 rs1 : BitVec 5) (f3 : BitVec 3) (rd : BitVec 5) (op : BitVec 7) :
    rs2Of (encR f7 rs2 rs1 f3 rd op) = rs2 := by
  apply BitVec.eq_of_toNat_eq; simp only [rs2Of, encR, toNat_extract_eq, toNat_append_eq]; omega
@[simp] theorem encR_shamt5 (f7 : BitVec 7) (rs2 rs1 : BitVec 5) (f3 : BitVec 3) (rd : BitVec 5) (op : BitVec 7) :
    shamt5Of (encR f7 rs2 rs1 f3 rd op) = rs2 := by
  apply BitVec.eq_of_toNat_eq; simp only [shamt5Of, encR, toNat_extract_eq, toNat_append_eq]; omega
@[simp] theorem encR_funct7 (f7 : BitVec 7) (rs2 rs1 : BitVec 5) (f3 : BitVec 3) (rd : BitVec 5) (op : BitVec 7) :
    funct7Of (encR f7 rs2 rs1 f3 rd op) = f7 := by
  apply BitVec.eq_of_toNat_eq; simp only [funct7Of, encR, toNat_extract_eq, toNat_append_eq]; omega

/-! ### encI -/

@[simp] theorem encI_opcode (imm : BitVec 12) (rs1 : BitVec 5) (f3 : BitVec 3) (rd : BitVec 5) (op : BitVec 7) :
    opcodeOf (encI imm rs1 f3 rd op) = op := by
  apply BitVec.eq_of_toNat_eq; simp only [opcodeOf, encI, toNat_extract_eq, toNat_append_eq]; omega
@[simp] theorem encI_rd (imm : BitVec 12) (rs1 : BitVec 5) (f3 : BitVec 3) (rd : BitVec 5) (op : BitVec 7) :
    rdOf (encI imm rs1 f3 rd op) = rd := by
  apply BitVec.eq_of_toNat_eq; simp only [rdOf, encI, toNat_extract_eq, toNat_append_eq]; omega
@[simp] theorem encI_funct3 (imm : BitVec 12) (rs1 : BitVec 5) (f3 : BitVec 3) (rd : BitVec 5) (op : BitVec 7) :
    funct3Of (encI imm rs1 f3 rd op) = f3 := by
  apply BitVec.eq_of_toNat_eq; simp only [funct3Of, encI, toNat_extract_eq, toNat_append_eq]; omega
@[simp] theorem encI_rs1 (imm : BitVec 12) (rs1 : BitVec 5) (f3 : BitVec 3) (rd : BitVec 5) (op : BitVec 7) :
    rs1Of (encI imm rs1 f3 rd op) = rs1 := by
  apply BitVec.eq_of_toNat_eq; simp only [rs1Of, encI, toNat_extract_eq, toNat_append_eq]; omega
@[simp] theorem encI_imm12 (imm : BitVec 12) (rs1 : BitVec 5) (f3 : BitVec 3) (rd : BitVec 5) (op : BitVec 7) :
    imm12IOf (encI imm rs1 f3 rd op) = imm := by
  apply BitVec.eq_of_toNat_eq; simp only [imm12IOf, encI, toNat_extract_eq, toNat_append_eq]; omega

/-! ### encShift6 -/

@[simp] theorem encShift6_opcode (f6 sh : BitVec 6) (rs1 : BitVec 5) (f3 : BitVec 3) (rd : BitVec 5) (op : BitVec 7) :
    opcodeOf (encShift6 f6 sh rs1 f3 rd op) = op := by
  apply BitVec.eq_of_toNat_eq; simp only [opcodeOf, encShift6, toNat_extract_eq, toNat_append_eq]; omega
@[simp] theorem encShift6_rd (f6 sh : BitVec 6) (rs1 : BitVec 5) (f3 : BitVec 3) (rd : BitVec 5) (op : BitVec 7) :
    rdOf (encShift6 f6 sh rs1 f3 rd op) = rd := by
  apply BitVec.eq_of_toNat_eq; simp only [rdOf, encShift6, toNat_extract_eq, toNat_append_eq]; omega
@[simp] theorem encShift6_funct3 (f6 sh : BitVec 6) (rs1 : BitVec 5) (f3 : BitVec 3) (rd : BitVec 5) (op : BitVec 7) :
    funct3Of (encShift6 f6 sh rs1 f3 rd op) = f3 := by
  apply BitVec.eq_of_toNat_eq; simp only [funct3Of, encShift6, toNat_extract_eq, toNat_append_eq]; omega
@[simp] theorem encShift6_rs1 (f6 sh : BitVec 6) (rs1 : BitVec 5) (f3 : BitVec 3) (rd : BitVec 5) (op : BitVec 7) :
    rs1Of (encShift6 f6 sh rs1 f3 rd op) = rs1 := by
  apply BitVec.eq_of_toNat_eq; simp only [rs1Of, encShift6, toNat_extract_eq, toNat_append_eq]; omega
@[simp] theorem encShift6_shamt6 (f6 sh : BitVec 6) (rs1 : BitVec 5) (f3 : BitVec 3) (rd : BitVec 5) (op : BitVec 7) :
    shamt6Of (encShift6 f6 sh rs1 f3 rd op) = sh := by
  apply BitVec.eq_of_toNat_eq; simp only [shamt6Of, encShift6, toNat_extract_eq, toNat_append_eq]; omega
@[simp] theorem encShift6_funct6 (f6 sh : BitVec 6) (rs1 : BitVec 5) (f3 : BitVec 3) (rd : BitVec 5) (op : BitVec 7) :
    funct6Of (encShift6 f6 sh rs1 f3 rd op) = f6 := by
  apply BitVec.eq_of_toNat_eq; simp only [funct6Of, encShift6, toNat_extract_eq, toNat_append_eq]; omega

/-! ### encFence -/

@[simp] theorem encFence_opcode (fm pred succ : BitVec 4) (rs1 : BitVec 5) (f3 : BitVec 3) (rd : BitVec 5) (op : BitVec 7) :
    opcodeOf (encFence fm pred succ rs1 f3 rd op) = op := by
  apply BitVec.eq_of_toNat_eq; simp only [opcodeOf, encFence, toNat_extract_eq, toNat_append_eq]; omega
@[simp] theorem encFence_rd (fm pred succ : BitVec 4) (rs1 : BitVec 5) (f3 : BitVec 3) (rd : BitVec 5) (op : BitVec 7) :
    rdOf (encFence fm pred succ rs1 f3 rd op) = rd := by
  apply BitVec.eq_of_toNat_eq; simp only [rdOf, encFence, toNat_extract_eq, toNat_append_eq]; omega
@[simp] theorem encFence_funct3 (fm pred succ : BitVec 4) (rs1 : BitVec 5) (f3 : BitVec 3) (rd : BitVec 5) (op : BitVec 7) :
    funct3Of (encFence fm pred succ rs1 f3 rd op) = f3 := by
  apply BitVec.eq_of_toNat_eq; simp only [funct3Of, encFence, toNat_extract_eq, toNat_append_eq]; omega
@[simp] theorem encFence_rs1 (fm pred succ : BitVec 4) (rs1 : BitVec 5) (f3 : BitVec 3) (rd : BitVec 5) (op : BitVec 7) :
    rs1Of (encFence fm pred succ rs1 f3 rd op) = rs1 := by
  apply BitVec.eq_of_toNat_eq; simp only [rs1Of, encFence, toNat_extract_eq, toNat_append_eq]; omega
@[simp] theorem encFence_fm (fm pred succ : BitVec 4) (rs1 : BitVec 5) (f3 : BitVec 3) (rd : BitVec 5) (op : BitVec 7) :
    fmOf (encFence fm pred succ rs1 f3 rd op) = fm := by
  apply BitVec.eq_of_toNat_eq; simp only [fmOf, encFence, toNat_extract_eq, toNat_append_eq]; omega
@[simp] theorem encFence_pred (fm pred succ : BitVec 4) (rs1 : BitVec 5) (f3 : BitVec 3) (rd : BitVec 5) (op : BitVec 7) :
    predOf (encFence fm pred succ rs1 f3 rd op) = pred := by
  apply BitVec.eq_of_toNat_eq; simp only [predOf, encFence, toNat_extract_eq, toNat_append_eq]; omega
@[simp] theorem encFence_succ (fm pred succ : BitVec 4) (rs1 : BitVec 5) (f3 : BitVec 3) (rd : BitVec 5) (op : BitVec 7) :
    succOf (encFence fm pred succ rs1 f3 rd op) = succ := by
  apply BitVec.eq_of_toNat_eq; simp only [succOf, encFence, toNat_extract_eq, toNat_append_eq]; omega

/-! ### encS -/

/-- The S-format is the R-format with the immediate in two parts (R95). -/
theorem encS_eq_encR (imm : BitVec 12) (rs2 rs1 : BitVec 5) (f3 : BitVec 3) (op : BitVec 7) :
    encS imm rs2 rs1 f3 op = encR (imm.extractLsb' 5 7) rs2 rs1 f3 (imm.extractLsb' 0 5) op := rfl

@[simp] theorem encS_opcode (imm : BitVec 12) (rs2 rs1 : BitVec 5) (f3 : BitVec 3) (op : BitVec 7) :
    opcodeOf (encS imm rs2 rs1 f3 op) = op := by
  rw [encS_eq_encR, encR_opcode]
@[simp] theorem encS_funct3 (imm : BitVec 12) (rs2 rs1 : BitVec 5) (f3 : BitVec 3) (op : BitVec 7) :
    funct3Of (encS imm rs2 rs1 f3 op) = f3 := by
  rw [encS_eq_encR, encR_funct3]
@[simp] theorem encS_rs1 (imm : BitVec 12) (rs2 rs1 : BitVec 5) (f3 : BitVec 3) (op : BitVec 7) :
    rs1Of (encS imm rs2 rs1 f3 op) = rs1 := by
  rw [encS_eq_encR, encR_rs1]
@[simp] theorem encS_rs2 (imm : BitVec 12) (rs2 rs1 : BitVec 5) (f3 : BitVec 3) (op : BitVec 7) :
    rs2Of (encS imm rs2 rs1 f3 op) = rs2 := by
  rw [encS_eq_encR, encR_rs2]
@[simp] theorem encS_imm12 (imm : BitVec 12) (rs2 rs1 : BitVec 5) (f3 : BitVec 3) (op : BitVec 7) :
    imm12SOf (encS imm rs2 rs1 f3 op) = imm := by
  have h7 := encR_funct7 (imm.extractLsb' 5 7) rs2 rs1 f3 (imm.extractLsb' 0 5) op
  have h5 := encR_rd (imm.extractLsb' 5 7) rs2 rs1 f3 (imm.extractLsb' 0 5) op
  rw [funct7Of] at h7
  rw [rdOf] at h5
  rw [imm12SOf, encS_eq_encR, h7, h5]
  apply BitVec.eq_of_toNat_eq; simp only [toNat_extract_eq, toNat_append_eq]; omega

/-! ### encB -/

@[simp] theorem encB_opcode (off : BitVec 13) (rs2 rs1 : BitVec 5) (f3 : BitVec 3) (op : BitVec 7) :
    opcodeOf (encB off rs2 rs1 f3 op) = op := by
  rw [opcodeOf, encB]
  generalize off.extractLsb' 12 1 = b12
  generalize off.extractLsb' 5 6 = b10
  generalize off.extractLsb' 1 4 = b4
  generalize off.extractLsb' 11 1 = b11
  apply BitVec.eq_of_toNat_eq; simp only [toNat_extract_eq, toNat_append_eq]; omega
@[simp] theorem encB_funct3 (off : BitVec 13) (rs2 rs1 : BitVec 5) (f3 : BitVec 3) (op : BitVec 7) :
    funct3Of (encB off rs2 rs1 f3 op) = f3 := by
  rw [funct3Of, encB]
  generalize off.extractLsb' 12 1 = b12
  generalize off.extractLsb' 5 6 = b10
  generalize off.extractLsb' 1 4 = b4
  generalize off.extractLsb' 11 1 = b11
  apply BitVec.eq_of_toNat_eq; simp only [toNat_extract_eq, toNat_append_eq]; omega
@[simp] theorem encB_rs1 (off : BitVec 13) (rs2 rs1 : BitVec 5) (f3 : BitVec 3) (op : BitVec 7) :
    rs1Of (encB off rs2 rs1 f3 op) = rs1 := by
  rw [rs1Of, encB]
  generalize off.extractLsb' 12 1 = b12
  generalize off.extractLsb' 5 6 = b10
  generalize off.extractLsb' 1 4 = b4
  generalize off.extractLsb' 11 1 = b11
  apply BitVec.eq_of_toNat_eq; simp only [toNat_extract_eq, toNat_append_eq]; omega
@[simp] theorem encB_rs2 (off : BitVec 13) (rs2 rs1 : BitVec 5) (f3 : BitVec 3) (op : BitVec 7) :
    rs2Of (encB off rs2 rs1 f3 op) = rs2 := by
  rw [rs2Of, encB]
  generalize off.extractLsb' 12 1 = b12
  generalize off.extractLsb' 5 6 = b10
  generalize off.extractLsb' 1 4 = b4
  generalize off.extractLsb' 11 1 = b11
  apply BitVec.eq_of_toNat_eq; simp only [toNat_extract_eq, toNat_append_eq]; omega
/-- The offset read back from a branch word, piece by piece (R98). -/
theorem encB_offset13_pieces (off : BitVec 13) (rs2 rs1 : BitVec 5) (f3 : BitVec 3) (op : BitVec 7) :
    offset13Of (encB off rs2 rs1 f3 op) =
      off.extractLsb' 12 1 ++ off.extractLsb' 11 1 ++ off.extractLsb' 5 6 ++ off.extractLsb' 1 4 ++ 0#1 := by
  rw [offset13Of, encB]
  generalize off.extractLsb' 12 1 = b12
  generalize off.extractLsb' 5 6 = b10
  generalize off.extractLsb' 1 4 = b4
  generalize off.extractLsb' 11 1 = b11
  have e0 : BitVec.extractLsb' 31 1 (b12 ++ b10 ++ rs2 ++ rs1 ++ f3 ++ b4 ++ b11 ++ op : InstrWord) = b12 := by
    apply BitVec.eq_of_toNat_eq; simp only [toNat_extract_eq, toNat_append_eq]; omega
  have e1 : BitVec.extractLsb' 7 1 (b12 ++ b10 ++ rs2 ++ rs1 ++ f3 ++ b4 ++ b11 ++ op : InstrWord) = b11 := by
    apply BitVec.eq_of_toNat_eq; simp only [toNat_extract_eq, toNat_append_eq]; omega
  have e2 : BitVec.extractLsb' 25 6 (b12 ++ b10 ++ rs2 ++ rs1 ++ f3 ++ b4 ++ b11 ++ op : InstrWord) = b10 := by
    apply BitVec.eq_of_toNat_eq; simp only [toNat_extract_eq, toNat_append_eq]; omega
  have e3 : BitVec.extractLsb' 8 4 (b12 ++ b10 ++ rs2 ++ rs1 ++ f3 ++ b4 ++ b11 ++ op : InstrWord) = b4 := by
    apply BitVec.eq_of_toNat_eq; simp only [toNat_extract_eq, toNat_append_eq]; omega
  rw [e0, e1, e2, e3]
/-- A branch offset is read back when it is even (R98). -/
theorem encB_offset13 (off : BitVec 13) (rs2 rs1 : BitVec 5) (f3 : BitVec 3) (op : BitVec 7)
    (h : off.extractLsb' 0 1 = 0#1) : offset13Of (encB off rs2 rs1 f3 op) = off := by
  have h0 := congrArg BitVec.toNat h
  rw [encB_offset13_pieces]
  apply BitVec.eq_of_toNat_eq
  simp only [toNat_extract_eq, toNat_append_eq] at h0 ⊢
  simp at h0 ⊢; omega

/-! ### encU -/

@[simp] theorem encU_opcode (imm : BitVec 20) (rd : BitVec 5) (op : BitVec 7) :
    opcodeOf (encU imm rd op) = op := by
  apply BitVec.eq_of_toNat_eq; simp only [opcodeOf, encU, toNat_extract_eq, toNat_append_eq]; omega
@[simp] theorem encU_rd (imm : BitVec 20) (rd : BitVec 5) (op : BitVec 7) :
    rdOf (encU imm rd op) = rd := by
  apply BitVec.eq_of_toNat_eq; simp only [rdOf, encU, toNat_extract_eq, toNat_append_eq]; omega
@[simp] theorem encU_imm20 (imm : BitVec 20) (rd : BitVec 5) (op : BitVec 7) :
    imm20Of (encU imm rd op) = imm := by
  apply BitVec.eq_of_toNat_eq; simp only [imm20Of, encU, toNat_extract_eq, toNat_append_eq]; omega

/-! ### encJ -/

@[simp] theorem encJ_opcode (off : BitVec 21) (rd : BitVec 5) (op : BitVec 7) :
    opcodeOf (encJ off rd op) = op := by
  rw [opcodeOf, encJ]
  generalize off.extractLsb' 20 1 = b20
  generalize off.extractLsb' 1 10 = b10
  generalize off.extractLsb' 11 1 = b11
  generalize off.extractLsb' 12 8 = b19
  apply BitVec.eq_of_toNat_eq; simp only [toNat_extract_eq, toNat_append_eq]; omega
@[simp] theorem encJ_rd (off : BitVec 21) (rd : BitVec 5) (op : BitVec 7) :
    rdOf (encJ off rd op) = rd := by
  rw [rdOf, encJ]
  generalize off.extractLsb' 20 1 = b20
  generalize off.extractLsb' 1 10 = b10
  generalize off.extractLsb' 11 1 = b11
  generalize off.extractLsb' 12 8 = b19
  apply BitVec.eq_of_toNat_eq; simp only [toNat_extract_eq, toNat_append_eq]; omega
/-- The offset read back from a jump word, piece by piece (R100). -/
theorem encJ_offset21_pieces (off : BitVec 21) (rd : BitVec 5) (op : BitVec 7) :
    offset21Of (encJ off rd op) =
      off.extractLsb' 20 1 ++ off.extractLsb' 12 8 ++ off.extractLsb' 11 1 ++ off.extractLsb' 1 10 ++ 0#1 := by
  rw [offset21Of, encJ]
  generalize off.extractLsb' 20 1 = b20
  generalize off.extractLsb' 1 10 = b10
  generalize off.extractLsb' 11 1 = b11
  generalize off.extractLsb' 12 8 = b19
  have e0 : BitVec.extractLsb' 31 1 (b20 ++ b10 ++ b11 ++ b19 ++ rd ++ op : InstrWord) = b20 := by
    apply BitVec.eq_of_toNat_eq; simp only [toNat_extract_eq, toNat_append_eq]; omega
  have e1 : BitVec.extractLsb' 12 8 (b20 ++ b10 ++ b11 ++ b19 ++ rd ++ op : InstrWord) = b19 := by
    apply BitVec.eq_of_toNat_eq; simp only [toNat_extract_eq, toNat_append_eq]; omega
  have e2 : BitVec.extractLsb' 20 1 (b20 ++ b10 ++ b11 ++ b19 ++ rd ++ op : InstrWord) = b11 := by
    apply BitVec.eq_of_toNat_eq; simp only [toNat_extract_eq, toNat_append_eq]; omega
  have e3 : BitVec.extractLsb' 21 10 (b20 ++ b10 ++ b11 ++ b19 ++ rd ++ op : InstrWord) = b10 := by
    apply BitVec.eq_of_toNat_eq; simp only [toNat_extract_eq, toNat_append_eq]; omega
  rw [e0, e1, e2, e3]
/-- A jump offset is read back when it is even (R100). -/
theorem encJ_offset21 (off : BitVec 21) (rd : BitVec 5) (op : BitVec 7)
    (h : off.extractLsb' 0 1 = 0#1) : offset21Of (encJ off rd op) = off := by
  have h0 := congrArg BitVec.toNat h
  rw [encJ_offset21_pieces]
  apply BitVec.eq_of_toNat_eq
  simp only [toNat_extract_eq, toNat_append_eq] at h0 ⊢
  simp at h0 ⊢; omega

end Sys2Proof
end

