-- ==== Sys2Proof/Laws/PerInstr.lean ====
section
/-!
SUPPORT. The family `EncodeInRow`: that the word of a well-formed instruction is in the opcode table's row of its
mnemonic, one lemma per constructor.
-/

namespace Sys2Proof

/-! ### The fixed bits of each format's word (R95) -/

theorem and_ones3 (a : BitVec 3) : a &&& 0b111#3 = a := by
  rw [show 0b111#3 = BitVec.allOnes 3 by decide, BitVec.and_allOnes]
theorem and_ones6 (a : BitVec 6) : a &&& 0b111111#6 = a := by
  rw [show 0b111111#6 = BitVec.allOnes 6 by decide, BitVec.and_allOnes]
theorem and_ones7 (a : BitVec 7) : a &&& 0b1111111#7 = a := by
  rw [show 0b1111111#7 = BitVec.allOnes 7 by decide, BitVec.and_allOnes]

/-- The bits of the mask of a table row are what `encR` puts there (R93, R95). -/
theorem encR_and_mask (f7 : BitVec 7) (rs2 rs1 : BitVec 5) (f3 : BitVec 3) (rd : BitVec 5) (op : BitVec 7) :
    encR f7 rs2 rs1 f3 rd op &&& 0xfe00707f#32 = encR f7 0 0 f3 0 op := by
  rw [show 0xfe00707f#32 = encR 0b1111111#7 0 0 0b111#3 0 0b1111111#7 by decide]
  unfold encR
  rw [BitVec.and_append, BitVec.and_append, BitVec.and_append, BitVec.and_append, BitVec.and_append]
  simp [and_ones3, and_ones7]

/-- The bits of the mask of a table row are what `encI` puts there (R93, R95). -/
theorem encI_and_mask (imm : BitVec 12) (rs1 : BitVec 5) (f3 : BitVec 3) (rd : BitVec 5) (op : BitVec 7) :
    encI imm rs1 f3 rd op &&& 0x0000707f#32 = encI 0 0 f3 0 op := by
  rw [show 0x0000707f#32 = encI 0 0 0b111#3 0 0b1111111#7 by decide]
  unfold encI
  rw [BitVec.and_append, BitVec.and_append, BitVec.and_append, BitVec.and_append]
  simp [and_ones3, and_ones7]

/-- The bits of the mask of a table row are what `encShift6` puts there (R93, R95). -/
theorem encShift6_and_mask (f6 sh : BitVec 6) (rs1 : BitVec 5) (f3 : BitVec 3) (rd : BitVec 5) (op : BitVec 7) :
    encShift6 f6 sh rs1 f3 rd op &&& 0xfc00707f#32 = encShift6 f6 0 0 f3 0 op := by
  rw [show 0xfc00707f#32 = encShift6 0b111111#6 0 0 0b111#3 0 0b1111111#7 by decide]
  unfold encShift6
  rw [BitVec.and_append, BitVec.and_append, BitVec.and_append, BitVec.and_append, BitVec.and_append]
  simp [and_ones3, and_ones6, and_ones7]

/-- The bits of the mask of a table row are what `encFence` puts there (R93, R95). -/
theorem encFence_and_mask (fm pred succ : BitVec 4) (rs1 : BitVec 5) (f3 : BitVec 3) (rd : BitVec 5) (op : BitVec 7) :
    encFence fm pred succ rs1 f3 rd op &&& 0x0000707f#32 = encFence 0 0 0 0 f3 0 op := by
  rw [show 0x0000707f#32 = encFence 0 0 0 0 0b111#3 0 0b1111111#7 by decide]
  unfold encFence
  rw [BitVec.and_append, BitVec.and_append, BitVec.and_append, BitVec.and_append, BitVec.and_append, BitVec.and_append]
  simp [and_ones3, and_ones7]

/-- The bits of the mask of a table row are what `encS` puts there (R93, R95). -/
theorem encS_and_mask (imm : BitVec 12) (rs2 rs1 : BitVec 5) (f3 : BitVec 3) (op : BitVec 7) :
    encS imm rs2 rs1 f3 op &&& 0x0000707f#32 = encS 0 0 0 f3 op := by
  rw [show 0x0000707f#32 = encS 0 0 0 0b111#3 0b1111111#7 by decide]
  unfold encS
  rw [BitVec.and_append, BitVec.and_append, BitVec.and_append, BitVec.and_append, BitVec.and_append]
  simp [and_ones3, and_ones7]

/-- The bits of the mask of a table row are what `encB` puts there (R93, R95). -/
theorem encB_and_mask (off : BitVec 13) (rs2 rs1 : BitVec 5) (f3 : BitVec 3) (op : BitVec 7) :
    encB off rs2 rs1 f3 op &&& 0x0000707f#32 = encB 0 0 0 f3 op := by
  rw [show 0x0000707f#32 = encB 0 0 0 0b111#3 0b1111111#7 by decide]
  unfold encB
  rw [BitVec.and_append, BitVec.and_append, BitVec.and_append, BitVec.and_append, BitVec.and_append, BitVec.and_append, BitVec.and_append]
  simp [and_ones3, and_ones7]

/-- The bits of the mask of a table row are what `encU` puts there (R93, R95). -/
theorem encU_and_mask (imm : BitVec 20) (rd : BitVec 5) (op : BitVec 7) :
    encU imm rd op &&& 0x0000007f#32 = encU 0 0 op := by
  rw [show 0x0000007f#32 = encU 0 0 0b1111111#7 by decide]
  unfold encU
  rw [BitVec.and_append, BitVec.and_append]
  simp [and_ones7]

/-- The bits of the mask of a table row are what `encJ` puts there (R93, R95). -/
theorem encJ_and_mask (off : BitVec 21) (rd : BitVec 5) (op : BitVec 7) :
    encJ off rd op &&& 0x0000007f#32 = encJ 0 0 op := by
  rw [show 0x0000007f#32 = encJ 0 0 0b1111111#7 by decide]
  unfold encJ
  rw [BitVec.and_append, BitVec.and_append, BitVec.and_append, BitVec.and_append, BitVec.and_append]
  simp [and_ones7]

/-! ### The family -/

namespace Laws.EncodeInRow

/-- The word of a well-formed instruction is in the row of its mnemonic; for ILLEGAL, which has no row, the word
is non-zero and the decoder finds no row for it (R93). -/
def Statement (i : Instr) : Prop :=
  i.wf = true →
    (∀ mask pat, i.mnemonic.row = some (mask, pat) → encode i &&& mask = pat) ∧
    (i.mnemonic.row = none → encode i ≠ 0#32 ∧ decodeRow (encode i) = none)

/-- A mnemonic with a row needs only the row. -/
theorem of_row {i : Instr} {mask pat : InstrWord} (hr : i.mnemonic.row = some (mask, pat))
    (h : encode i &&& mask = pat) : Statement i := by
  intro _
  refine ⟨fun m p e => ?_, fun e => ?_⟩
  · rw [hr] at e
    cases e
    exact h
  · rw [hr] at e
    cases e

theorem emptyFetch : Statement .emptyFetch := of_row rfl (by decide)
theorem lui (rd : RegIdx) (imm20 : BitVec 20) : Statement (.lui rd imm20) :=
  of_row rfl ((encU_and_mask ..).trans (by decide))
theorem auipc (rd : RegIdx) (imm20 : BitVec 20) : Statement (.auipc rd imm20) :=
  of_row rfl ((encU_and_mask ..).trans (by decide))
theorem addi (rd : RegIdx) (rs1 : RegIdx) (imm : BitVec 12) : Statement (.addi rd rs1 imm) :=
  of_row rfl ((encI_and_mask ..).trans (by decide))
theorem slti (rd : RegIdx) (rs1 : RegIdx) (imm : BitVec 12) : Statement (.slti rd rs1 imm) :=
  of_row rfl ((encI_and_mask ..).trans (by decide))
theorem sltiu (rd : RegIdx) (rs1 : RegIdx) (imm : BitVec 12) : Statement (.sltiu rd rs1 imm) :=
  of_row rfl ((encI_and_mask ..).trans (by decide))
theorem xori (rd : RegIdx) (rs1 : RegIdx) (imm : BitVec 12) : Statement (.xori rd rs1 imm) :=
  of_row rfl ((encI_and_mask ..).trans (by decide))
theorem ori (rd : RegIdx) (rs1 : RegIdx) (imm : BitVec 12) : Statement (.ori rd rs1 imm) :=
  of_row rfl ((encI_and_mask ..).trans (by decide))
theorem andi (rd : RegIdx) (rs1 : RegIdx) (imm : BitVec 12) : Statement (.andi rd rs1 imm) :=
  of_row rfl ((encI_and_mask ..).trans (by decide))
theorem slli (rd : RegIdx) (rs1 : RegIdx) (shamt : BitVec 6) : Statement (.slli rd rs1 shamt) :=
  of_row rfl ((encShift6_and_mask ..).trans (by decide))
theorem srli (rd : RegIdx) (rs1 : RegIdx) (shamt : BitVec 6) : Statement (.srli rd rs1 shamt) :=
  of_row rfl ((encShift6_and_mask ..).trans (by decide))
theorem srai (rd : RegIdx) (rs1 : RegIdx) (shamt : BitVec 6) : Statement (.srai rd rs1 shamt) :=
  of_row rfl ((encShift6_and_mask ..).trans (by decide))
theorem add (rd : RegIdx) (rs1 : RegIdx) (rs2 : RegIdx) : Statement (.add rd rs1 rs2) :=
  of_row rfl ((encR_and_mask ..).trans (by decide))
theorem sub (rd : RegIdx) (rs1 : RegIdx) (rs2 : RegIdx) : Statement (.sub rd rs1 rs2) :=
  of_row rfl ((encR_and_mask ..).trans (by decide))
theorem sll (rd : RegIdx) (rs1 : RegIdx) (rs2 : RegIdx) : Statement (.sll rd rs1 rs2) :=
  of_row rfl ((encR_and_mask ..).trans (by decide))
theorem slt (rd : RegIdx) (rs1 : RegIdx) (rs2 : RegIdx) : Statement (.slt rd rs1 rs2) :=
  of_row rfl ((encR_and_mask ..).trans (by decide))
theorem sltu (rd : RegIdx) (rs1 : RegIdx) (rs2 : RegIdx) : Statement (.sltu rd rs1 rs2) :=
  of_row rfl ((encR_and_mask ..).trans (by decide))
theorem xor (rd : RegIdx) (rs1 : RegIdx) (rs2 : RegIdx) : Statement (.xor rd rs1 rs2) :=
  of_row rfl ((encR_and_mask ..).trans (by decide))
theorem srl (rd : RegIdx) (rs1 : RegIdx) (rs2 : RegIdx) : Statement (.srl rd rs1 rs2) :=
  of_row rfl ((encR_and_mask ..).trans (by decide))
theorem sra (rd : RegIdx) (rs1 : RegIdx) (rs2 : RegIdx) : Statement (.sra rd rs1 rs2) :=
  of_row rfl ((encR_and_mask ..).trans (by decide))
theorem or (rd : RegIdx) (rs1 : RegIdx) (rs2 : RegIdx) : Statement (.or rd rs1 rs2) :=
  of_row rfl ((encR_and_mask ..).trans (by decide))
theorem and (rd : RegIdx) (rs1 : RegIdx) (rs2 : RegIdx) : Statement (.and rd rs1 rs2) :=
  of_row rfl ((encR_and_mask ..).trans (by decide))
theorem addiw (rd : RegIdx) (rs1 : RegIdx) (imm : BitVec 12) : Statement (.addiw rd rs1 imm) :=
  of_row rfl ((encI_and_mask ..).trans (by decide))
theorem slliw (rd : RegIdx) (rs1 : RegIdx) (shamt : BitVec 5) : Statement (.slliw rd rs1 shamt) :=
  of_row rfl ((encR_and_mask ..).trans (by decide))
theorem srliw (rd : RegIdx) (rs1 : RegIdx) (shamt : BitVec 5) : Statement (.srliw rd rs1 shamt) :=
  of_row rfl ((encR_and_mask ..).trans (by decide))
theorem sraiw (rd : RegIdx) (rs1 : RegIdx) (shamt : BitVec 5) : Statement (.sraiw rd rs1 shamt) :=
  of_row rfl ((encR_and_mask ..).trans (by decide))
theorem addw (rd : RegIdx) (rs1 : RegIdx) (rs2 : RegIdx) : Statement (.addw rd rs1 rs2) :=
  of_row rfl ((encR_and_mask ..).trans (by decide))
theorem subw (rd : RegIdx) (rs1 : RegIdx) (rs2 : RegIdx) : Statement (.subw rd rs1 rs2) :=
  of_row rfl ((encR_and_mask ..).trans (by decide))
theorem sllw (rd : RegIdx) (rs1 : RegIdx) (rs2 : RegIdx) : Statement (.sllw rd rs1 rs2) :=
  of_row rfl ((encR_and_mask ..).trans (by decide))
theorem srlw (rd : RegIdx) (rs1 : RegIdx) (rs2 : RegIdx) : Statement (.srlw rd rs1 rs2) :=
  of_row rfl ((encR_and_mask ..).trans (by decide))
theorem sraw (rd : RegIdx) (rs1 : RegIdx) (rs2 : RegIdx) : Statement (.sraw rd rs1 rs2) :=
  of_row rfl ((encR_and_mask ..).trans (by decide))
theorem jal (rd : RegIdx) (offset : BitVec 21) : Statement (.jal rd offset) :=
  of_row rfl ((encJ_and_mask ..).trans (by decide))
theorem jalr (rd : RegIdx) (rs1 : RegIdx) (imm : BitVec 12) : Statement (.jalr rd rs1 imm) :=
  of_row rfl ((encI_and_mask ..).trans (by decide))
theorem beq (rs1 : RegIdx) (rs2 : RegIdx) (offset : BitVec 13) : Statement (.beq rs1 rs2 offset) :=
  of_row rfl ((encB_and_mask ..).trans (by decide))
theorem bne (rs1 : RegIdx) (rs2 : RegIdx) (offset : BitVec 13) : Statement (.bne rs1 rs2 offset) :=
  of_row rfl ((encB_and_mask ..).trans (by decide))
theorem blt (rs1 : RegIdx) (rs2 : RegIdx) (offset : BitVec 13) : Statement (.blt rs1 rs2 offset) :=
  of_row rfl ((encB_and_mask ..).trans (by decide))
theorem bge (rs1 : RegIdx) (rs2 : RegIdx) (offset : BitVec 13) : Statement (.bge rs1 rs2 offset) :=
  of_row rfl ((encB_and_mask ..).trans (by decide))
theorem bltu (rs1 : RegIdx) (rs2 : RegIdx) (offset : BitVec 13) : Statement (.bltu rs1 rs2 offset) :=
  of_row rfl ((encB_and_mask ..).trans (by decide))
theorem bgeu (rs1 : RegIdx) (rs2 : RegIdx) (offset : BitVec 13) : Statement (.bgeu rs1 rs2 offset) :=
  of_row rfl ((encB_and_mask ..).trans (by decide))
theorem lb (rd : RegIdx) (rs1 : RegIdx) (imm : BitVec 12) : Statement (.lb rd rs1 imm) :=
  of_row rfl ((encI_and_mask ..).trans (by decide))
theorem lh (rd : RegIdx) (rs1 : RegIdx) (imm : BitVec 12) : Statement (.lh rd rs1 imm) :=
  of_row rfl ((encI_and_mask ..).trans (by decide))
theorem lw (rd : RegIdx) (rs1 : RegIdx) (imm : BitVec 12) : Statement (.lw rd rs1 imm) :=
  of_row rfl ((encI_and_mask ..).trans (by decide))
theorem ld (rd : RegIdx) (rs1 : RegIdx) (imm : BitVec 12) : Statement (.ld rd rs1 imm) :=
  of_row rfl ((encI_and_mask ..).trans (by decide))
theorem lbu (rd : RegIdx) (rs1 : RegIdx) (imm : BitVec 12) : Statement (.lbu rd rs1 imm) :=
  of_row rfl ((encI_and_mask ..).trans (by decide))
theorem lhu (rd : RegIdx) (rs1 : RegIdx) (imm : BitVec 12) : Statement (.lhu rd rs1 imm) :=
  of_row rfl ((encI_and_mask ..).trans (by decide))
theorem lwu (rd : RegIdx) (rs1 : RegIdx) (imm : BitVec 12) : Statement (.lwu rd rs1 imm) :=
  of_row rfl ((encI_and_mask ..).trans (by decide))
theorem sb (rs1 : RegIdx) (rs2 : RegIdx) (imm : BitVec 12) : Statement (.sb rs1 rs2 imm) :=
  of_row rfl ((encS_and_mask ..).trans (by decide))
theorem sh (rs1 : RegIdx) (rs2 : RegIdx) (imm : BitVec 12) : Statement (.sh rs1 rs2 imm) :=
  of_row rfl ((encS_and_mask ..).trans (by decide))
theorem sw (rs1 : RegIdx) (rs2 : RegIdx) (imm : BitVec 12) : Statement (.sw rs1 rs2 imm) :=
  of_row rfl ((encS_and_mask ..).trans (by decide))
theorem sd (rs1 : RegIdx) (rs2 : RegIdx) (imm : BitVec 12) : Statement (.sd rs1 rs2 imm) :=
  of_row rfl ((encS_and_mask ..).trans (by decide))
theorem fence (fm : BitVec 4) (pred : BitVec 4) (succ : BitVec 4) (rs1 : RegIdx) (rd : RegIdx) : Statement (.fence fm pred succ rs1 rd) :=
  of_row rfl ((encFence_and_mask ..).trans (by decide))
theorem ecall : Statement .ecall := of_row rfl (by decide)
theorem ebreak : Statement .ebreak := of_row rfl (by decide)
theorem illegal (word : InstrWord) : Statement (.illegal word) := by
  intro h
  simp only [Instr.wf, Bool.and_eq_true, bne_iff_ne, Option.isNone_iff_eq_none] at h
  exact ⟨fun _ _ e => (by cases e), fun _ => h⟩

end Laws.EncodeInRow

end Sys2Proof
end

