-- ==== Sys2Proof/Machine/Assembly.lean ====
section
/-!
DEFINITION. The assembler's operand orders and the pseudo-instructions (spec 30_encoding R107, R108; 10_state R21).
They are other spellings of the core's instructions and change nothing in the machine.
-/

namespace Sys2Proof.Machine

/-! ### Register names (R21, R107) -/

/-- The ABI names of the registers, from x0 up (R21). x8 is also called fp. -/
def abiNames : List String :=
  ["zero", "ra", "sp", "gp", "tp", "t0", "t1", "t2", "s0", "s1", "a0", "a1", "a2", "a3", "a4", "a5"] ++
  ["a6", "a7", "s2", "s3", "s4", "s5", "s6", "s7", "s8", "s9", "s10", "s11", "t3", "t4", "t5", "t6"]

/-- The ABI name of a register. -/
def abiName (r : RegIdx) : String := abiNames.getD r.toNat ""

/-! ### Operand orders (R107) -/

/-- An operand as the assembler writes it. -/
inductive AsmOperand where
  /-- A register. -/
  | reg (r : RegIdx)
  /-- An immediate, a shift amount, or the 20 bits of LUI and AUIPC. -/
  | imm (v : Int)
  /-- `imm(rs1)`. -/
  | based (offset : Int) (base : RegIdx)
  /-- The target address of a branch or jump, which the encoding holds relative to the instruction. -/
  | target (address : Word)
  /-- A set of FENCE, with the bits i, o, r, w from the top. -/
  | order (set : BitVec 4)
  deriving DecidableEq, Repr

/-- The name the assembler of the profile gives a mnemonic; the empty fetch and ILLEGAL have none. -/
def asmName : Mnemonic → Option String
  | .emptyFetch => none
  | .lui => some "lui"
  | .auipc => some "auipc"
  | .addi => some "addi"
  | .slti => some "slti"
  | .sltiu => some "sltiu"
  | .xori => some "xori"
  | .ori => some "ori"
  | .andi => some "andi"
  | .slli => some "slli"
  | .srli => some "srli"
  | .srai => some "srai"
  | .add => some "add"
  | .sub => some "sub"
  | .sll => some "sll"
  | .slt => some "slt"
  | .sltu => some "sltu"
  | .xor => some "xor"
  | .srl => some "srl"
  | .sra => some "sra"
  | .or => some "or"
  | .and => some "and"
  | .addiw => some "addiw"
  | .slliw => some "slliw"
  | .srliw => some "srliw"
  | .sraiw => some "sraiw"
  | .addw => some "addw"
  | .subw => some "subw"
  | .sllw => some "sllw"
  | .srlw => some "srlw"
  | .sraw => some "sraw"
  | .jal => some "jal"
  | .jalr => some "jalr"
  | .beq => some "beq"
  | .bne => some "bne"
  | .blt => some "blt"
  | .bge => some "bge"
  | .bltu => some "bltu"
  | .bgeu => some "bgeu"
  | .lb => some "lb"
  | .lh => some "lh"
  | .lw => some "lw"
  | .ld => some "ld"
  | .lbu => some "lbu"
  | .lhu => some "lhu"
  | .lwu => some "lwu"
  | .sb => some "sb"
  | .sh => some "sh"
  | .sw => some "sw"
  | .sd => some "sd"
  | .fence => some "fence"
  | .ecall => some "ecall"
  | .ebreak => some "ebreak"
  | .illegal => none
  | .other _ => none

/-- The operands of an instruction at the address `a`, in the order of R107. FENCE has none when both sets are
`iorw`, and its other fields have no spelling. -/
def asmOperands (a : Word) : Instr → List AsmOperand
  | .emptyFetch => []
  | .lui rd imm20 => [.reg rd, .imm imm20.toNat]
  | .auipc rd imm20 => [.reg rd, .imm imm20.toNat]
  | .addi rd rs1 imm => [.reg rd, .reg rs1, .imm imm.toInt]
  | .slti rd rs1 imm => [.reg rd, .reg rs1, .imm imm.toInt]
  | .sltiu rd rs1 imm => [.reg rd, .reg rs1, .imm imm.toInt]
  | .xori rd rs1 imm => [.reg rd, .reg rs1, .imm imm.toInt]
  | .ori rd rs1 imm => [.reg rd, .reg rs1, .imm imm.toInt]
  | .andi rd rs1 imm => [.reg rd, .reg rs1, .imm imm.toInt]
  | .slli rd rs1 shamt => [.reg rd, .reg rs1, .imm shamt.toNat]
  | .srli rd rs1 shamt => [.reg rd, .reg rs1, .imm shamt.toNat]
  | .srai rd rs1 shamt => [.reg rd, .reg rs1, .imm shamt.toNat]
  | .add rd rs1 rs2 => [.reg rd, .reg rs1, .reg rs2]
  | .sub rd rs1 rs2 => [.reg rd, .reg rs1, .reg rs2]
  | .sll rd rs1 rs2 => [.reg rd, .reg rs1, .reg rs2]
  | .slt rd rs1 rs2 => [.reg rd, .reg rs1, .reg rs2]
  | .sltu rd rs1 rs2 => [.reg rd, .reg rs1, .reg rs2]
  | .xor rd rs1 rs2 => [.reg rd, .reg rs1, .reg rs2]
  | .srl rd rs1 rs2 => [.reg rd, .reg rs1, .reg rs2]
  | .sra rd rs1 rs2 => [.reg rd, .reg rs1, .reg rs2]
  | .or rd rs1 rs2 => [.reg rd, .reg rs1, .reg rs2]
  | .and rd rs1 rs2 => [.reg rd, .reg rs1, .reg rs2]
  | .addiw rd rs1 imm => [.reg rd, .reg rs1, .imm imm.toInt]
  | .slliw rd rs1 shamt => [.reg rd, .reg rs1, .imm shamt.toNat]
  | .srliw rd rs1 shamt => [.reg rd, .reg rs1, .imm shamt.toNat]
  | .sraiw rd rs1 shamt => [.reg rd, .reg rs1, .imm shamt.toNat]
  | .addw rd rs1 rs2 => [.reg rd, .reg rs1, .reg rs2]
  | .subw rd rs1 rs2 => [.reg rd, .reg rs1, .reg rs2]
  | .sllw rd rs1 rs2 => [.reg rd, .reg rs1, .reg rs2]
  | .srlw rd rs1 rs2 => [.reg rd, .reg rs1, .reg rs2]
  | .sraw rd rs1 rs2 => [.reg rd, .reg rs1, .reg rs2]
  | .jal rd offset => [.reg rd, .target (a + immJ offset)]
  | .jalr rd rs1 imm => [.reg rd, .based imm.toInt rs1]
  | .beq rs1 rs2 offset => [.reg rs1, .reg rs2, .target (a + immB offset)]
  | .bne rs1 rs2 offset => [.reg rs1, .reg rs2, .target (a + immB offset)]
  | .blt rs1 rs2 offset => [.reg rs1, .reg rs2, .target (a + immB offset)]
  | .bge rs1 rs2 offset => [.reg rs1, .reg rs2, .target (a + immB offset)]
  | .bltu rs1 rs2 offset => [.reg rs1, .reg rs2, .target (a + immB offset)]
  | .bgeu rs1 rs2 offset => [.reg rs1, .reg rs2, .target (a + immB offset)]
  | .lb rd rs1 imm => [.reg rd, .based imm.toInt rs1]
  | .lh rd rs1 imm => [.reg rd, .based imm.toInt rs1]
  | .lw rd rs1 imm => [.reg rd, .based imm.toInt rs1]
  | .ld rd rs1 imm => [.reg rd, .based imm.toInt rs1]
  | .lbu rd rs1 imm => [.reg rd, .based imm.toInt rs1]
  | .lhu rd rs1 imm => [.reg rd, .based imm.toInt rs1]
  | .lwu rd rs1 imm => [.reg rd, .based imm.toInt rs1]
  | .sb rs1 rs2 imm => [.reg rs2, .based imm.toInt rs1]
  | .sh rs1 rs2 imm => [.reg rs2, .based imm.toInt rs1]
  | .sw rs1 rs2 imm => [.reg rs2, .based imm.toInt rs1]
  | .sd rs1 rs2 imm => [.reg rs2, .based imm.toInt rs1]
  | .fence _ pred succ _ _ => if pred = 0xF ∧ succ = 0xF then [] else [.order pred, .order succ]
  | .ecall => []
  | .ebreak => []
  | .illegal _ => []

/-- The branch offset that the target `t` has at the address `a` (R107). -/
def branchOffset (a t : Word) : BitVec 13 := (t - a).extractLsb' 0 13
/-- The jump offset that the target `t` has at the address `a` (R107). -/
def jumpOffset (a t : Word) : BitVec 21 := (t - a).extractLsb' 0 21

/-! ### Pseudo-instructions (R108) -/

/-- `lo12` of a 32-bit value: its low 12 bits. -/
def lo12 (v : BitVec 32) : BitVec 12 := v.extractLsb' 0 12
/-- `hi20 = (v - sext_12(lo12))[31:12]`. -/
def hi20 (v : BitVec 32) : BitVec 20 := (v - (lo12 v).signExtend 32).extractLsb' 12 20
/-- The 32-bit offset that the address `t` has at the address `a`. -/
def pcOffset (a t : Word) : BitVec 32 := (t - a).extractLsb' 0 32

/-- The pseudo-instructions. Targets and symbols are addresses. -/
inductive Pseudo where
  | nop
  | li12 (rd : RegIdx) (imm : BitVec 12)
  | li32 (rd : RegIdx) (imm : BitVec 32)
  | mv (rd rs : RegIdx)
  | not (rd rs : RegIdx)
  | neg (rd rs : RegIdx)
  | negw (rd rs : RegIdx)
  | sextw (rd rs : RegIdx)
  | seqz (rd rs : RegIdx)
  | snez (rd rs : RegIdx)
  | sltz (rd rs : RegIdx)
  | sgtz (rd rs : RegIdx)
  | beqz (rs : RegIdx) (t : Word)
  | bnez (rs : RegIdx) (t : Word)
  | blez (rs : RegIdx) (t : Word)
  | bgez (rs : RegIdx) (t : Word)
  | bltz (rs : RegIdx) (t : Word)
  | bgtz (rs : RegIdx) (t : Word)
  | bgt (a b : RegIdx) (t : Word)
  | ble (a b : RegIdx) (t : Word)
  | bgtu (a b : RegIdx) (t : Word)
  | bleu (a b : RegIdx) (t : Word)
  /-- `j t`. -/
  | jump (t : Word)
  /-- `jal t`, with the link in x1. -/
  | jumpAndLink (t : Word)
  /-- `jr rs`. -/
  | jumpRegister (rs : RegIdx)
  /-- `jalr rs`, with the link in x1. -/
  | jumpAndLinkRegister (rs : RegIdx)
  | ret
  | call (t : Word)
  | tail (t : Word)
  | la (rd : RegIdx) (sym : Word)
  /-- `fence` without operands. -/
  | fenceAll
  deriving DecidableEq, Repr

/-- The instructions a pseudo-instruction at the address `a` stands for (R108). -/
def Pseudo.expand (a : Word) : Pseudo → List Instr
  | .nop => [.addi 0 0 0]
  | .li12 rd imm => [.addi rd 0 imm]
  | .li32 rd imm => [.lui rd (hi20 imm), .addiw rd rd (lo12 imm)]
  | .mv rd rs => [.addi rd rs 0]
  | .not rd rs => [.xori rd rs (-1)]
  | .neg rd rs => [.sub rd 0 rs]
  | .negw rd rs => [.subw rd 0 rs]
  | .sextw rd rs => [.addiw rd rs 0]
  | .seqz rd rs => [.sltiu rd rs 1]
  | .snez rd rs => [.sltu rd 0 rs]
  | .sltz rd rs => [.slt rd rs 0]
  | .sgtz rd rs => [.slt rd 0 rs]
  | .beqz rs t => [.beq rs 0 (branchOffset a t)]
  | .bnez rs t => [.bne rs 0 (branchOffset a t)]
  | .blez rs t => [.bge 0 rs (branchOffset a t)]
  | .bgez rs t => [.bge rs 0 (branchOffset a t)]
  | .bltz rs t => [.blt rs 0 (branchOffset a t)]
  | .bgtz rs t => [.blt 0 rs (branchOffset a t)]
  | .bgt x y t => [.blt y x (branchOffset a t)]
  | .ble x y t => [.bge y x (branchOffset a t)]
  | .bgtu x y t => [.bltu y x (branchOffset a t)]
  | .bleu x y t => [.bgeu y x (branchOffset a t)]
  | .jump t => [.jal 0 (jumpOffset a t)]
  | .jumpAndLink t => [.jal 1 (jumpOffset a t)]
  | .jumpRegister rs => [.jalr 0 rs 0]
  | .jumpAndLinkRegister rs => [.jalr 1 rs 0]
  | .ret => [.jalr 0 1 0]
  | .call t => [.auipc 1 (hi20 (pcOffset a t)), .jalr 1 1 (lo12 (pcOffset a t))]
  | .tail t => [.auipc 6 (hi20 (pcOffset a t)), .jalr 0 6 (lo12 (pcOffset a t))]
  | .la rd sym => [.auipc rd (hi20 (pcOffset a sym)), .addi rd rd (lo12 (pcOffset a sym))]
  | .fenceAll => [.fence 0 0xF 0xF 0 0]

end Sys2Proof.Machine
end

