-- ==== Sys2Proof/Tests/Slice0.lean ====
section
/-!
SUPPORT. The model's own tests: each expected value is from spec/95_test_vectors.md (the section or rule is named),
or a word written out bit by bit from the encodings of spec/30_encoding.md. Then, for every statement with
hypotheses, witnesses that meet them.
-/

namespace Sys2Proof.Tests

open Sys2Proof Sys2Proof.Machine

/-! ### Helpers -/

/-- The next state of an answer, if it is one. -/
def nextOf : Result → Option State
  | .next t => some t
  | .fault _ => none
  | .refused _ => none

/-- The machine at reset (95 section 0) with `w` at 0x10000 and the operands in x1 and x2. -/
def probe (w : InstrWord) (x1 x2 : Word) : State := ((State.reset.placeAtPc w).setReg 1 x1).setReg 2 x2

/-- One step of `probe`. -/
def stepped (w : InstrWord) (x1 x2 : Word) : Option State := nextOf (step (probe w x1 x2))

/-- x3, pc and count after one step: what every row of 95 sections 2.4 and 2.5 gives. -/
def result (w : InstrWord) (x1 x2 : Word) : Option (Word × Word × Nat) :=
  (stepped w x1 x2).map fun t => (t.reg 3, t.pc, t.count)

/-- The memory of 95 section 2.6, by offset: the two doublewords at 0x10100. -/
def loadMem : Memory :=
  Memory.writeLE (Memory.writeLE [] 0x100 8 0x1122334455667788) 0x108 8 0x00008000007FFF80

/-- x3, pc and fault after one step of a load with the memory of 95 section 2.6. -/
def loaded (w : InstrWord) (x1 : Word) : Option (Word × Word × Option Fault) :=
  (nextOf (step (((State.reset.setMem loadMem).placeAtPc w).setReg 1 x1))).map
    fun t => (t.reg 3, t.pc, t.fault)

/-- The bytes at 0x10200 to 0x10207 and the fault after one step of a store of x2 = 0x1122334455667788. -/
def stored (w : InstrWord) (x1 : Word) : Option (List Byte × Option Fault) :=
  (stepped w x1 0x1122334455667788).map
    fun t => ((List.range 8).map fun k => t.mem.read (0x200 + k), t.fault)

/-! ### WellFormed: an ill-formed term for each check, refused -/

theorem test_wf_jal_odd : (Instr.jal 1 0x00001).wf = false := by decide
theorem test_wf_beq_odd : (Instr.beq 1 2 0x0001).wf = false := by decide
theorem test_wf_bne_odd : (Instr.bne 1 2 0x1FFF).wf = false := by decide
theorem test_wf_blt_odd : (Instr.blt 1 2 0x0003).wf = false := by decide
theorem test_wf_bge_odd : (Instr.bge 1 2 0x0005).wf = false := by decide
theorem test_wf_bltu_odd : (Instr.bltu 1 2 0x0007).wf = false := by decide
theorem test_wf_bgeu_odd : (Instr.bgeu 1 2 0x1001).wf = false := by decide
theorem test_wf_illegal_empty : (Instr.illegal 0x00000000#32).wf = false := by decide
theorem test_wf_illegal_row : (Instr.illegal 0x000000B3#32).wf = false := by decide
theorem test_wf_accepts :
    (Instr.jal 1 0xFFFFE).wf = true ∧ (Instr.beq 1 2 0x1000).wf = true ∧
      (Instr.illegal 0x02000033#32).wf = true ∧ (Instr.addi 31 31 0xFFF).wf = true := by decide

/-! ### Decode: every row by a word, fields written out by R95, selectors by R102 and R103 -/

theorem test_decode_empty_illegal :
    decode 0x00000000#32 = .emptyFetch ∧ decode 0x00000001#32 = .illegal 0x00000001#32 ∧
    decode 0xFFFFFFFF#32 = .illegal 0xFFFFFFFF#32 ∧ decode 0x0000100F#32 = .illegal 0x0000100F#32 ∧
    decode 0x00001073#32 = .illegal 0x00001073#32 ∧ decode 0x02000033#32 = .illegal 0x02000033#32 ∧
    decode 0x00007003#32 = .illegal 0x00007003#32 ∧ decode 0x00004023#32 = .illegal 0x00004023#32 ∧
    decode 0x00002063#32 = .illegal 0x00002063#32 ∧ decode 0x00001067#32 = .illegal 0x00001067#32 ∧
    decode 0x30200073#32 = .illegal 0x30200073#32 := by decide
theorem test_decode_upper :
    decode 0b1000_0000_0000_0000_0001_00011_0110111#32 = .lui 3 0x80001 ∧
    decode 0b0111_1111_1111_1111_1110_11111_0010111#32 = .auipc 31 0x7FFFE := by decide
theorem test_decode_op_imm :
    decode 0b111111111001_00001_000_00011_0010011#32 = .addi 3 1 0xFF9 ∧
    decode 0b000000000011_00001_010_00011_0010011#32 = .slti 3 1 3 ∧
    decode 0b100000000000_00001_011_00011_0010011#32 = .sltiu 3 1 0x800 ∧
    decode 0b111111111111_00001_100_00011_0010011#32 = .xori 3 1 0xFFF ∧
    decode 0b000011110000_00001_110_00011_0010011#32 = .ori 3 1 0x0F0 ∧
    decode 0b000011111111_00001_111_00011_0010011#32 = .andi 3 1 0x0FF := by decide
theorem test_decode_shift_imm :
    decode 0b000000_111111_00001_001_00011_0010011#32 = .slli 3 1 63 ∧
    decode 0b000000_100001_00001_101_00011_0010011#32 = .srli 3 1 33 ∧
    decode 0b010000_100000_00001_101_00000_0010011#32 = .srai 0 1 32 := by decide
theorem test_decode_op :
    decode 0b0000000_00010_00001_000_00011_0110011#32 = .add 3 1 2 ∧
    decode 0b0100000_00010_00001_000_00011_0110011#32 = .sub 3 1 2 ∧
    decode 0b0000000_00010_00001_001_00011_0110011#32 = .sll 3 1 2 ∧
    decode 0b0000000_00010_00001_010_00011_0110011#32 = .slt 3 1 2 ∧
    decode 0b0000000_00010_00001_011_00011_0110011#32 = .sltu 3 1 2 ∧
    decode 0b0000000_00010_00001_100_00011_0110011#32 = .xor 3 1 2 ∧
    decode 0b0000000_00010_00001_101_00011_0110011#32 = .srl 3 1 2 ∧
    decode 0b0100000_00010_00001_101_00011_0110011#32 = .sra 3 1 2 ∧
    decode 0b0000000_00010_00001_110_00011_0110011#32 = .or 3 1 2 ∧
    decode 0b0000000_00010_00001_111_00011_0110011#32 = .and 3 1 2 := by decide
theorem test_decode_word_ops :
    decode 0b111111111111_00001_000_00011_0011011#32 = .addiw 3 1 0xFFF ∧
    decode 0b0000000_11111_00001_001_00011_0011011#32 = .slliw 3 1 31 ∧
    decode 0b0000000_00100_00001_101_00011_0011011#32 = .srliw 3 1 4 ∧
    decode 0b0100000_00100_00001_101_00011_0011011#32 = .sraiw 3 1 4 ∧
    decode 0b0000000_00010_00001_000_00011_0111011#32 = .addw 3 1 2 ∧
    decode 0b0100000_00010_00001_000_00011_0111011#32 = .subw 3 1 2 ∧
    decode 0b0000000_00010_00001_001_00011_0111011#32 = .sllw 3 1 2 ∧
    decode 0b0000000_00010_00001_101_00011_0111011#32 = .srlw 3 1 2 ∧
    decode 0b0100000_00010_00001_101_00011_0111011#32 = .sraw 3 1 2 := by decide
/-- JAL's word has imm[20|10:1|11|19:12]: offset -1048576 + 4096 + 2048 + 2 sets bits 20, 12, 11 and 1. -/
theorem test_decode_jumps :
    decode 0b1_0000000001_1_00000001_00011_1101111#32 = .jal 3 0x101802 ∧
    decode 0b000000000100_00001_000_00011_1100111#32 = .jalr 3 1 4 := by decide
/-- A branch word has imm[12|10:5] and imm[4:1|11]: -4096 sets bit 12, 2048 bit 11, 32 bit 5, 2 bit 1. -/
theorem test_decode_branches :
    decode 0b1_000000_00010_00001_000_0000_0_1100011#32 = .beq 1 2 0x1000 ∧
    decode 0b0_111111_00010_00001_001_1111_1_1100011#32 = .bne 1 2 0x0FFE ∧
    decode 0b0_000001_00010_00001_100_0000_0_1100011#32 = .blt 1 2 0x0020 ∧
    decode 0b0_000000_00010_00001_101_0001_0_1100011#32 = .bge 1 2 0x0002 ∧
    decode 0b0_000000_00010_00001_110_0000_1_1100011#32 = .bltu 1 2 0x0800 ∧
    decode 0b0_000000_00010_00001_111_0100_0_1100011#32 = .bgeu 1 2 0x0008 := by decide
theorem test_decode_loads :
    decode 0b111111111000_00010_000_00011_0000011#32 = .lb 3 2 0xFF8 ∧
    decode 0b000000000100_00001_001_00011_0000011#32 = .lh 3 1 4 ∧
    decode 0b000000000100_00001_010_00011_0000011#32 = .lw 3 1 4 ∧
    decode 0b111111111000_00001_011_00011_0000011#32 = .ld 3 1 0xFF8 ∧
    decode 0b000000000000_00001_100_00011_0000011#32 = .lbu 3 1 0 ∧
    decode 0b000000000000_00001_101_00011_0000011#32 = .lhu 3 1 0 ∧
    decode 0b000000000100_00001_110_00011_0000011#32 = .lwu 3 1 4 := by decide
theorem test_decode_stores :
    decode 0b0000000_00010_00001_000_00001_0100011#32 = .sb 1 2 1 ∧
    decode 0b0000001_00010_00001_001_00000_0100011#32 = .sh 1 2 0x020 ∧
    decode 0b0111111_00010_00001_010_11111_0100011#32 = .sw 1 2 0x7FF ∧
    decode 0b1111111_00010_00001_011_11000_0100011#32 = .sd 1 2 0xFF8 := by decide
theorem test_decode_system :
    decode 0b0000_1111_1111_00000_000_00000_0001111#32 = .fence 0 0xF 0xF 0 0 ∧
    decode 0b1000_0011_0011_00001_000_00010_0001111#32 = .fence 8 3 3 1 2 ∧
    decode 0b000000000000_00000_000_00000_1110011#32 = .ecall ∧
    decode 0b000000000001_00000_000_00000_1110011#32 = .ebreak := by decide
theorem test_decode_bytes :
    decodeBytes [0xB3, 0x00, 0x00, 0x00, 0x99] = some (.add 1 0 0, [0x99]) ∧
    decodeTableWord 32 0x4200D013 = some (.srai 0 1 32) := by decide

/-! ### One step of each computational instruction (95 section 2.4) -/

theorem test_lui : result 0x800001B7#32 0x0 0x0 = some (0xFFFFFFFF80000000, 0x10004, 1) := by decide
theorem test_auipc : result 0xFFFFF197#32 0x0 0x0 = some (0xF000, 0x10004, 1) := by decide
theorem test_addi : result 0xFF908193#32 0x5 0x0 = some (0xFFFFFFFFFFFFFFFE, 0x10004, 1) := by decide
theorem test_slti : result 0x0030A193#32 0xFFFFFFFFFFFFFFFB 0x0 = some (0x1, 0x10004, 1) := by decide
theorem test_slti_2 : result 0xFFD0A193#32 0x5 0x0 = some (0x0, 0x10004, 1) := by decide
theorem test_sltiu : result 0xFFF0B193#32 0x5 0x0 = some (0x1, 0x10004, 1) := by decide
theorem test_sltiu_2 : result 0x0010B193#32 0x1 0x0 = some (0x0, 0x10004, 1) := by decide
theorem test_xori : result 0xFFF0C193#32 0xF 0x0 = some (0xFFFFFFFFFFFFFFF0, 0x10004, 1) := by decide
theorem test_ori : result 0x0F00E193#32 0xF00 0x0 = some (0xFF0, 0x10004, 1) := by decide
theorem test_andi : result 0x8000F193#32 0xFFFFFFFFFFFFFFFF 0x0 = some (0xFFFFFFFFFFFFF800, 0x10004, 1) := by decide
theorem test_slli : result 0x03F09193#32 0x1 0x0 = some (0x8000000000000000, 0x10004, 1) := by decide
theorem test_slli_2 : result 0x00109193#32 0x8000000000000001 0x0 = some (0x2, 0x10004, 1) := by decide
theorem test_srli : result 0x03C0D193#32 0xFFFFFFFFFFFFFFFF 0x0 = some (0xF, 0x10004, 1) := by decide
theorem test_srai : result 0x43F0D193#32 0x8000000000000000 0x0 = some (0xFFFFFFFFFFFFFFFF, 0x10004, 1) := by decide
theorem test_add : result 0x002081B3#32 0xFFFFFFFFFFFFFFFF 0x1 = some (0x0, 0x10004, 1) := by decide
theorem test_sub : result 0x402081B3#32 0x5 0x7 = some (0xFFFFFFFFFFFFFFFE, 0x10004, 1) := by decide
theorem test_sll : result 0x002091B3#32 0x1 0x41 = some (0x2, 0x10004, 1) := by decide
theorem test_sll_2 : result 0x002091B3#32 0x3 0x40 = some (0x3, 0x10004, 1) := by decide
theorem test_slt : result 0x0020A1B3#32 0xFFFFFFFFFFFFFFFF 0x0 = some (0x1, 0x10004, 1) := by decide
theorem test_slt_2 : result 0x0020A1B3#32 0x0 0xFFFFFFFFFFFFFFFF = some (0x0, 0x10004, 1) := by decide
theorem test_sltu : result 0x0020B1B3#32 0x0 0xFFFFFFFFFFFFFFFF = some (0x1, 0x10004, 1) := by decide
theorem test_sltu_2 : result 0x0020B1B3#32 0xFFFFFFFFFFFFFFFF 0x0 = some (0x0, 0x10004, 1) := by decide
theorem test_xor : result 0x0020C1B3#32 0xFF00 0xFF0 = some (0xF0F0, 0x10004, 1) := by decide
theorem test_srl : result 0x0020D1B3#32 0xFFFFFFFFFFFFFFFF 0x44 = some (0xFFFFFFFFFFFFFFF, 0x10004, 1) := by decide
theorem test_sra : result 0x4020D1B3#32 0xFFFFFFFFFFFFFF00 0x44 = some (0xFFFFFFFFFFFFFFF0, 0x10004, 1) := by decide
theorem test_or : result 0x0020E1B3#32 0xF0 0xF = some (0xFF, 0x10004, 1) := by decide
theorem test_and : result 0x0020F1B3#32 0xF0 0x3C = some (0x30, 0x10004, 1) := by decide
theorem test_addiw : result 0x0000819B#32 0xFFFFFFFF00000005 0x0 = some (0x5, 0x10004, 1) := by decide
theorem test_slliw : result 0x01F0919B#32 0x1 0x0 = some (0xFFFFFFFF80000000, 0x10004, 1) := by decide
theorem test_slliw_2 : result 0x0040919B#32 0x100000001 0x0 = some (0x10, 0x10004, 1) := by decide
theorem test_srliw : result 0x0040D19B#32 0xFFFFFFFF80000000 0x0 = some (0x8000000, 0x10004, 1) := by decide
theorem test_sraiw : result 0x4040D19B#32 0x80000000 0x0 = some (0xFFFFFFFFF8000000, 0x10004, 1) := by decide
theorem test_addw : result 0x002081BB#32 0x7FFFFFFF 0x1 = some (0xFFFFFFFF80000000, 0x10004, 1) := by decide
theorem test_subw : result 0x402081BB#32 0x0 0x1 = some (0xFFFFFFFFFFFFFFFF, 0x10004, 1) := by decide
theorem test_sllw : result 0x002091BB#32 0x1 0x1F = some (0xFFFFFFFF80000000, 0x10004, 1) := by decide
theorem test_sllw_2 : result 0x002091BB#32 0x1 0x20 = some (0x1, 0x10004, 1) := by decide
theorem test_srlw : result 0x0020D1BB#32 0x80000000 0x24 = some (0x8000000, 0x10004, 1) := by decide
theorem test_sraw : result 0x4020D1BB#32 0x123456780 0x4 = some (0x2345678, 0x10004, 1) := by decide
theorem test_sraw_2 : result 0x4020D1BB#32 0x80000000 0x1F = some (0xFFFFFFFFFFFFFFFF, 0x10004, 1) := by decide

/-! ### Control transfer (95 section 2.5) -/

theorem test_jal : result 0x008001EF#32 0x0 0x0 = some (0x10004, 0x10008, 1) := by decide
theorem test_jal_2 : result 0xFFDFF1EF#32 0x0 0x0 = some (0x10004, 0xFFFC, 1) := by decide
theorem test_jalr : result 0x004081E7#32 0x10101 0x0 = some (0x10004, 0x10104, 1) := by decide
theorem test_beq : result 0x80208063#32 0x5 0x5 = some (0x0, 0xF000, 1) := by decide
theorem test_beq_2 : result 0x00208463#32 0x5 0x6 = some (0x0, 0x10004, 1) := by decide
theorem test_bne : result 0x7E209FE3#32 0x5 0x6 = some (0x0, 0x10FFE, 1) := by decide
theorem test_bne_2 : result 0x00209463#32 0x5 0x5 = some (0x0, 0x10004, 1) := by decide
theorem test_blt : result 0x0020C463#32 0xFFFFFFFFFFFFFFFF 0x0 = some (0x0, 0x10008, 1) := by decide
theorem test_blt_2 : result 0x0020C463#32 0x0 0xFFFFFFFFFFFFFFFF = some (0x0, 0x10004, 1) := by decide
theorem test_bge : result 0x0020D463#32 0xFFFFFFFFFFFFFFFF 0xFFFFFFFFFFFFFFFF = some (0x0, 0x10008, 1) := by decide
theorem test_bge_2 : result 0x0020D463#32 0xFFFFFFFFFFFFFFFE 0xFFFFFFFFFFFFFFFF = some (0x0, 0x10004, 1) := by decide
theorem test_bltu : result 0x0020E463#32 0x0 0xFFFFFFFFFFFFFFFF = some (0x0, 0x10008, 1) := by decide
theorem test_bltu_2 : result 0x0020E463#32 0xFFFFFFFFFFFFFFFF 0x0 = some (0x0, 0x10004, 1) := by decide
theorem test_bgeu : result 0x0020F463#32 0xFFFFFFFFFFFFFFFF 0x0 = some (0x0, 0x10008, 1) := by decide
theorem test_bgeu_2 : result 0x0020F463#32 0x0 0x1 = some (0x0, 0x10004, 1) := by decide
/-- The target uses the old x1 where the link register is the base. -/
theorem test_jalr_2 : (stepped 0x000080E7#32 0x10100 0).map (fun t => (t.reg 1, t.pc)) = some (0x10004, 0x10100) := by
  decide

/-! ### Loads and stores (95 section 2.6) -/

theorem test_lb : loaded 0x00008183#32 0x10100 = some (0xFFFFFFFFFFFFFF88, 0x10004, none) := by decide
theorem test_lb_2 : loaded 0x00008183#32 0xFFFF = some (0, 0x10004, some (.outOfBounds 0xFFFF 1)) := by decide
theorem test_lh : loaded 0x00009183#32 0x10108 = some (0xFFFFFFFFFFFFFF80, 0x10004, none) := by decide
theorem test_lh_2 : loaded 0x00009183#32 0x10101 = some (0, 0x10004, some (.misaligned 0x10101 2)) := by decide
theorem test_lw : loaded 0x0000A183#32 0x10108 = some (0x7FFF80, 0x10004, none) := by decide
theorem test_lw_2 : loaded 0x0000A183#32 0x10102 = some (0, 0x10004, some (.misaligned 0x10102 4)) := by decide
theorem test_ld : loaded 0xFF80B183#32 0x10110 = some (0x8000007FFF80, 0x10004, none) := by decide
theorem test_ld_2 : loaded 0x0000B183#32 0x20004 = some (0, 0x10004, some (.misaligned 0x20004 8)) := by decide
theorem test_lbu : loaded 0x0000C183#32 0x10108 = some (0x80, 0x10004, none) := by decide
theorem test_lhu : loaded 0x0000D183#32 0x10108 = some (0xFF80, 0x10004, none) := by decide
theorem test_lwu : loaded 0x0040E183#32 0x10100 = some (0x11223344, 0x10004, none) := by decide
theorem test_sb : stored 0x00208023#32 0x10200 = some ([0x88, 0, 0, 0, 0, 0, 0, 0], none) := by decide
theorem test_sh : stored 0x00209023#32 0x10200 = some ([0x88, 0x77, 0, 0, 0, 0, 0, 0], none) := by decide
theorem test_sw : stored 0x0020A023#32 0x10200 = some ([0x88, 0x77, 0x66, 0x55, 0, 0, 0, 0], none) := by decide
theorem test_sw_2 : stored 0x0020A023#32 0x10202 =
    some ([0, 0, 0, 0, 0, 0, 0, 0], some (.misaligned 0x10202 4)) := by decide
theorem test_sd : stored 0x0020B023#32 0x10200 =
    some ([0x88, 0x77, 0x66, 0x55, 0x44, 0x33, 0x22, 0x11], none) := by decide
theorem test_sd_2 : stored 0x0020B023#32 0x20000 =
    some ([0, 0, 0, 0, 0, 0, 0, 0], some (.outOfBounds 0x20000 8)) := by decide

/-! ### System instructions, bubbles and faults (95 sections 2.7 and 2.8) -/

theorem test_fence : (stepped 0x0FF0000F#32 7 9).map (fun t => (t.x.toList, t.mem, t.pc, t.count)) =
    some ((probe 0x0FF0000F#32 7 9).x.toList, (probe 0x0FF0000F#32 7 9).mem, 0x10004, 1) := by decide
theorem test_ecall : (stepped 0x00000073#32 0 0).map (fun t => (t.halted, t.fault, t.dl, t.pc, t.count)) =
    some (true, none, none, 0x10004, 1) := by decide
theorem test_ebreak : (stepped 0x00100073#32 0 0).map (fun t => (t.fault, t.pc, t.count, t.halted)) =
    some (some (.unmodelled .ebreak 0x10000), 0x10004, 0, false) := by decide
theorem test_illegal : (stepped 0x02000033#32 0 0).map (fun t => (t.fault, t.pc, t.count, t.halted)) =
    some (some (.illegalInstruction 0x02000033#32 0x10000), 0x10004, 0, false) := by decide
theorem test_emptyFetch : (stepped 0x00000000#32 5 6).map (fun t => (t.reg 0, t.reg 1, t.fl.addr, t.pc, t.count)) =
    some (0, 5, 0x10000, 0x10004, 1) := by decide
/-- A write to x0 is kept until the next cycle (95 section 2.4, corner cases). -/
theorem test_transient_zero : (stepped 0x00208033#32 2 3).map (fun t => t.reg 0) = some 5 := by decide
/-- And is gone before the next read (95 section 1.1, second case). -/
theorem test_zero_forced : (nextOf (step ((probe 0x00000513#32 0 0).setReg 0 9))).map (fun t => (t.reg 10, t.reg 0)) =
    some (0, 0) := by decide
theorem test_entry_misaligned :
    (nextOf (step (State.reset.setPc 0x10002))).map (fun t => (t.fault, t.pc, t.count, t.dl)) =
      some (some (.misaligned 0x10002 4), 0x10002, 0, none) := by decide
theorem test_entry_out_of_range :
    (nextOf (step (State.reset.setPc 0x20000))).map (fun t => (t.fault, t.pc, t.count, t.dl)) =
      some (some (.outOfBounds 0x20000 4), 0x20000, 0, none) := by decide
theorem test_snapshot :
    (nextOf (({ State.reset with trace := true }).placeAtPc 0x008000EF#32 |> step)).map
        (fun t => (t.events, t.reg 1)) =
      some ([.snapshot 0x10004 State.reset.x], 0x10004) := by decide +kernel
theorem test_no_snapshot_for_branches :
    (nextOf (({ State.reset with trace := true }).placeAtPc 0x00000463#32 |> step)).map
        (fun t => (t.events, t.pc)) = some ([], 0x10008) := by decide +kernel
/-- The three checks and their order (95 section 2.1). -/
theorem test_translate_order :
    State.reset.translate 0x10000 3 = .error (.badSize 0x10000 3) ∧
    State.reset.translate 0x10003 0 = .error (.badSize 0x10003 0) ∧
    State.reset.translate 0x20004 8 = .error (.misaligned 0x20004 8) ∧
    State.reset.translate 0xFFF8 8 = .error (.outOfBounds 0xFFF8 8) ∧
    State.reset.translate 0x1FFF8 8 = .ok 0xFFF8 ∧ State.reset.translate 0x1FFFF 1 = .ok 0xFFFF := by decide
/-- Installation across a page boundary (95 section 2.2, the rows with base 0x10FFC). -/
theorem test_install_lead_in :
    ((State.reset.install (fun _ => false) ⟨0x10FFC, 8, [1, 2, 3, 4, 5, 6, 7, 8], 1⟩).mem =
      [(0x1000, 5), (0x1001, 6), (0x1002, 7), (0x1003, 8)]) ∧
    ((State.reset.install (fun _ => true) ⟨0x10FFC, 2, [1, 2], 0⟩).mem = [(0xFFC, 1), (0xFFD, 2)]) := by decide
/-- The stack pointer wraps modulo 2^64 (95 section 1.8). -/
theorem test_stack_pointer_wraps :
    (({ State.reset with cfg := { Config.reference with loadBase := 0xFFFFFFFFFFFFF000, capacity := 0x1000 } } :
      State).setStackPointer).reg 2 = 0 := by decide
/-- Pseudo-instructions by the words of 30_encoding R108 and 95 sections 2.3 and 3 (P1's `bne`, `nop`, `ret`, `fence`). -/
theorem test_pseudo :
    (Pseudo.nop.expand 0).map encode = [0x00000013#32] ∧ (Pseudo.ret.expand 0).map encode = [0x00008067#32] ∧
    (Pseudo.fenceAll.expand 0).map encode = [0x0FF0000F#32] ∧
    ((Pseudo.bnez 11 0x10008).expand 0x10010).map encode = [0xFE059CE3#32] ∧
    (Pseudo.li32 5 0x7FFFFFFF).expand 0 = [.lui 5 0x80000, .addiw 5 5 0xFFF] := by decide
theorem test_operand_order :
    asmOperands 0x10010 (decode 0xFE059CE3#32) = [.reg 11, .reg 0, .target 0x10008] ∧
    asmOperands 0 (decode 0xFE20BC23#32) = [.reg 2, .based (-8) 1] ∧ abiName 2 = "sp" ∧ abiName 31 = "t6" := by decide
theorem test_reset_memory_canonical : State.reset.mem.wf = true := by decide
theorem test_withFetchWord :
    (State.reset.withFetchWord 32 0x000000B3).mem = [(0, 0xB3)] ∧
    (nextOf (step (State.reset.withFetchWord 32 0x000000B3))).map (fun t => (t.reg 1, t.pc)) = some (0, 0x10004) := by
  decide

/-! ### The OPEN parameters (R7): another decoder, another halt class, and the host's moves (R327) -/

/-- A decoder that binds every word to a variant of its own, which sets the halt flag (R2, R7). -/
def stopDecoder : Decoder :=
  ⟨fun _ => (.other "STOP", fun s => .next (s.finishAs (.other "STOP"))), fun _ => .finish .done⟩
/-- A decoder whose effects read three bytes at 0x10000, a size only such a decoder can name (R51). -/
def badSizeDecoder : Decoder :=
  ⟨fun _ => (.other "READ3", fun s => s.loadInto 1 0x10000 3 id),
    fun _ => .memRead (k := fun v s => .next (s.setReg 1 v)) 0x10000 3 fun v => .set 1 v .done⟩

/-- Its tag in the halt class: the cycle halts (R141). Its tag outside: `finish()` is no call (log entry 22). -/
theorem test_replacement_decoder :
    (nextOf (State.cycle stopDecoder { probe 0x000000B3#32 1 2 with
        cfg := { Config.reference with haltClass := [.other "STOP"] } })).map
      (fun t => (t.halted, t.reg 1, t.count, t.pc)) = some (true, 1, 1, 0x10004) ∧
    (nextOf ((probe 0x000000B3#32 1 2).cycle stopDecoder)).map (fun t => (t.halted, t.reg 1, t.count, t.pc)) =
      some (false, 1, 1, 0x10004) := by decide
theorem test_replacement_decoder_bad_size :
    (nextOf ((probe 0x000000B3#32 1 2).cycle badSizeDecoder)).map (fun t => (t.fault, t.dl, t.count)) =
      some (some (.badSize 0x10000 3), some ⟨.other "READ3", 0x10000, 0xB3⟩, 0) := by decide
/-- With ECALL left out of the halt class and FENCE put in, FENCE halts the run and ECALL does not (R141). -/
theorem test_haltClass :
    (nextOf (step { probe 0x00000073#32 1 2 with cfg := { Config.reference with haltClass := [.fence] } })).map
        (·.halted) = some false ∧
      (nextOf (step { probe 0x0FF0000F#32 1 2 with cfg := { Config.reference with haltClass := [.fence] } })).map
        (·.halted) = some true := by decide
/-- A segment whose data length is not its size is refused by the host's `install` (R314, D26). -/
theorem test_install_refuses :
    (Hart.construct Decoder.rv64i BootParams.reference).install LeadInGate.asBuilt ⟨1, 2, 4⟩ ⟨0x10000, 5, [0x73], 0⟩ =
      .refused ⟨0x10000, 5, [0x73], 0⟩ := by rfl
/-- A hart booted with a decoder of its own runs by it. -/
theorem test_hart_boot :
    ∃ h, Hart.boot stopDecoder LeadInGate.asBuilt ⟨1, 2, 4⟩ BootParams.reference = .hart h ∧ h.state = State.reset :=
  ⟨_, rfl, by decide⟩
/-- The as-built gate copies the lead-in when bit 0 of the flags is clear, for non-zero masks (R65). -/
theorem test_leadInGate_asBuilt :
    LeadInGate.asBuilt ⟨1, 2, 4⟩ 6 = true ∧ LeadInGate.asBuilt ⟨1, 2, 4⟩ 7 = false ∧
      leadInGateAsBuilt 6 = true ∧ leadInGateAsBuilt 7 = false := by decide

/-! ### Witnesses: for every statement with hypotheses, inputs that meet them, one per clause -/

/-- Which mnemonics have a row that holds the word: none, for the words R104 makes ILLEGAL. -/
theorem no_row (w : InstrWord) (h : w = 0xFFFFFFFF#32 ∨ w = 0x02000033#32) (m : Mnemonic) :
    m.matchesWord w = false := by
  rcases h with rfl | rfl <;> cases m <;> rfl

/-- A hart whose decode latch holds an instruction at 0x10000: the state an effect runs in. -/
def inEffect : State :=
  { State.reset with dl := some { mn := .add, addr := 0x10000, word := 0xB3 }, pc := 0x10004 }

theorem witness_DecodeEncodeRoundTrip :
    (Instr.beq 1 2 0x1FFE).wf = true ∧ (Instr.jal 0 0x100000).wf = true ∧ (Instr.illegal 1).wf = true ∧
      Instr.emptyFetch.wf = true := by decide
theorem witness_WordClassesPartition :
    (Mnemonic.srai.matchesWord 0x4200D013#32 = true ∧ Mnemonic.emptyFetch.matchesWord 0x00000000#32 = true) ∧
      (∀ m : Mnemonic, m.matchesWord 0xFFFFFFFF#32 = false) ∧
      (decode 0x00000073#32).mnemonic ≠ .illegal := ⟨by decide, no_row _ (.inl rfl), by decide⟩
theorem witness_OutsideProfileIsIllegal :
    opcodeOf 0x0000002F#32 ∉ [0b0000011#7, 0b0001111#7, 0b0010011#7, 0b0010111#7, 0b0011011#7, 0b0100011#7,
      0b0110011#7, 0b0110111#7, 0b0111011#7, 0b1100011#7, 0b1100111#7, 0b1101111#7, 0b1110011#7] ∧
    (0x00000001#32).extractLsb' 0 2 ≠ 0b11#2 ∧
    (opcodeOf 0x02000033#32 = 0b0110011#7 ∧ funct7Of 0x02000033#32 = 0b0000001#7) ∧
    (opcodeOf 0x0200003B#32 = 0b0111011#7 ∧ funct7Of 0x0200003B#32 = 0b0000001#7) ∧
    (opcodeOf 0x0000100F#32 = 0b0001111#7 ∧ funct3Of 0x0000100F#32 ≠ 0b000#3) ∧
    (opcodeOf 0x10500073#32 = 0b1110011#7 ∧ 0x10500073#32 ≠ 0x00000073#32 ∧ 0x10500073#32 ≠ 0x00100073#32) ∧
    (∀ m : Mnemonic, m.matchesWord 0x02000033#32 = false) :=
  ⟨by decide, by decide, by decide, by decide, by decide, by decide, no_row _ (.inr rfl)⟩
theorem witness_UpperImmediateResults : inEffect.dl = some ⟨.add, 0x10000, 0xB3⟩ := by decide
theorem witness_ShiftImmediateResults :
    (0b010000#6 ≠ 0b000000#6) ∧ (0b010001#6 ≠ 0b000000#6 ∧ 0b010001#6 ≠ 0b010000#6) := by decide
/-- The clause on the next fetch, at the jump's least misaligning offset. -/
theorem witness_JalResult :
    inEffect.dl = some ⟨.add, 0x10000, 0xB3⟩ ∧
    (nextOf (exec (.jal 1 (0#1 ++ 0#8 ++ 0#1 ++ 1#10 ++ 0#1)) inEffect)).map (·.pc) =
      some (({ State.reset with pc := 0x10002 } : State).pc) ∧
    State.reset.fault = none ∧
    ((0x10000#64).toNat + (0#1 ++ 0#8 ++ 0#1 ++ 1#10 ++ 0#1 : BitVec 21).toInt) % 4 = 2 := by decide
/-- The clause on `jal x0, 0`. -/
theorem witness_JalResult_loop :
    (probe 0x0000006F#32 1 2).fault = none ∧ (probe 0x0000006F#32 1 2).Fetches 0x0000006F#32 ∧
      Mnemonic.jal ∉ (probe 0x0000006F#32 1 2).cfg.haltClass := by
  unfold State.Fetches; decide
theorem witness_JalrResult :
    (0b111#3 ≠ 0b000#3) ∧ inEffect.dl = some ⟨.add, 0x10000, 0xB3⟩ ∧
    (nextOf (exec (.jalr 1 0 3) inEffect)).map (·.pc) = some (({ State.reset with pc := 2 } : State).pc) ∧
    2 ≤ ((inEffect.reg 0).toInt + (3#12).toInt) % 4 := by decide
theorem witness_BranchEqualResults :
    inEffect.dl = some ⟨.add, 0x10000, 0xB3⟩ ∧
    inEffect.reg 0 = inEffect.reg 1 ∧ inEffect.reg 0 ≠ inEffect.reg 2 ∧
    ({ State.reset with pc := 0x10FFE } : State).pc = BitVec.ofInt 64 ((0x10000#64).toNat + (0x0FFE#13).toInt) ∧
    ((0x10000#64).toNat + (0x0FFE#13).toInt) % 4 = 2 := by decide
theorem witness_BranchOrderResults :
    inEffect.dl = some ⟨.add, 0x10000, 0xB3⟩ ∧
    (inEffect.reg 0).toInt < (inEffect.reg 2).toInt ∧ ¬ (inEffect.reg 0).toInt < (inEffect.reg 1).toInt ∧
    (inEffect.reg 0).toNat < (inEffect.reg 2).toNat ∧ ¬ (inEffect.reg 2).toNat < (inEffect.reg 0).toNat := by decide
/-- The three cases of a load of 8 bytes from x2 = 0x20000 with offsets 4, 0 and -8. -/
theorem witness_Loads :
    (BitVec.ofInt 64 ((inEffect.reg 2).toInt + (4#12).toInt)).toNat % 8 ≠ 0 ∧
    ((BitVec.ofInt 64 ((inEffect.reg 2).toInt + (0#12).toInt)).toNat % 8 = 0 ∧
      inEffect.cfg.capacity <
        (BitVec.ofInt 64 ((inEffect.reg 2).toInt + (0#12).toInt) - inEffect.cfg.loadBase).toNat + 8) ∧
    ((BitVec.ofInt 64 ((inEffect.reg 2).toInt + (0xFF8#12).toInt)).toNat % 8 = 0 ∧
      ¬ inEffect.cfg.capacity <
        (BitVec.ofInt 64 ((inEffect.reg 2).toInt + (0xFF8#12).toInt) - inEffect.cfg.loadBase).toNat + 8) := by
  decide
theorem witness_StoreResults :
    inEffect.mem.wf = true ∧ loadMem.wf = true ∧ 4 ≤ (0b100#3).toNat ∧ inEffect.fault = none ∧
    (nextOf (exec (.sw 2 2 0xFFC) inEffect)).map (·.fault) = some none ∧
    (inEffect.setPc 0x1FFFC).pc = BitVec.ofInt 64 ((inEffect.reg 2).toInt + (0xFFC#12).toInt) := by decide
/-- SRAIW's funct7 with bit 25 set, SLLIW's, and a whole word of either. -/
theorem witness_WordImmediateResults :
    0b0000001#7 ≠ 0b0000000#7 ∧ (0b0100001#7 ≠ 0b0000000#7 ∧ 0b0100001#7 ≠ 0b0100000#7) ∧
    (opcodeOf 0x0200101B#32 = 0b0011011#7 ∧ funct3Of 0x0200101B#32 = 0b001#3 ∧ (0x0200101B#32).getLsbD 25 = true) ∧
    (opcodeOf 0x4200501B#32 = 0b0011011#7 ∧ funct3Of 0x4200501B#32 = 0b101#3 ∧ (0x4200501B#32).getLsbD 25 = true) := by
  decide
theorem witness_FenceIsNoOperation : 0b001#3 ≠ 0b000#3 := by decide
theorem witness_EcallHalts :
    (opcodeOf 0x00200073#32 = 0b1110011#7 ∧ 0x00200073#32 ≠ 0x00000073#32 ∧ 0x00200073#32 ≠ 0x00100073#32) ∧
    Mnemonic.ecall ∈ (probe 0x00000073#32 1 2).cfg.haltClass ∧
    (probe 0x00000073#32 1 2).fault = none ∧ (probe 0x00000073#32 1 2).Fetches 0x00000073#32 ∧
    (probe 0x00000073#32 1 2).halted = false := by
  unfold State.Fetches; decide
theorem witness_EbreakStops :
    inEffect.dl = some ⟨.add, 0x10000, 0xB3⟩ ∧
    (probe 0x00100073#32 1 2).fault = none ∧ (probe 0x00100073#32 1 2).Fetches 0x00100073#32 := by
  unfold State.Fetches; decide
theorem witness_IllegalWordFaults :
    inEffect.dl = some ⟨.add, 0x10000, 0xB3⟩ ∧
    ((probe 0xFFFFFFFF#32 1 2).fault = none ∧ (probe 0xFFFFFFFF#32 1 2).Fetches 0xFFFFFFFF#32) ∧
    0xFFFFFFFF#32 ≠ 0#32 ∧ (∀ m : Mnemonic, m.matchesWord 0xFFFFFFFF#32 = false) ∧
    Mnemonic.illegal ∉ (probe 0xFFFFFFFF#32 1 2).cfg.callReturnClass :=
  ⟨by decide, by unfold State.Fetches; decide, by decide, no_row _ (.inl rfl), by decide⟩
theorem witness_EmptyWordIsBubble :
    State.reset.fl.word = 0#32 ∧ State.reset.fault = none ∧ State.reset.dl = none ∧ State.reset.Fetches 0#32 := by
  unfold State.Fetches; decide
/-- A register other than the destination, and an instruction with no destination at all. -/
theorem witness_RegisterFrame :
    ((nextOf (exec (.add 1 0 2) inEffect)).isSome ∧ destOf (.add 1 0 2) ≠ some 2) ∧
    ((nextOf (exec (.sd 2 1 0xFF8) inEffect)).isSome ∧ destOf (.sd 2 1 0xFF8) ≠ some 1) := by decide
theorem witness_PcFrame :
    (nextOf (exec (.lui 0 1) inEffect)).isSome ∧ isControl (.lui 0 1) = false ∧ isControl .ecall = false := by decide
/-- A form that stores nothing, and a store of the last doubleword with a byte on either side of it. -/
theorem witness_MemoryFrame :
    inEffect.mem.wf = true ∧
    ((nextOf (exec (.ld 1 2 0xFF8) inEffect)).isSome ∧ storeRange inEffect (.ld 1 2 0xFF8) = none) ∧
    ((nextOf (exec (.sd 2 2 0xFF0) inEffect)).isSome ∧
      storeRange inEffect (.sd 2 2 0xFF0) = some (0xFFF0, 8) ∧ (0xFFEF < 0xFFF0 ∧ 0xFFF0 + 8 ≤ 0xFFF8)) := by decide
theorem witness_EffectChannel :
    (nextOf (exec .ebreak inEffect)).isSome ∧ Instr.ebreak ≠ .ecall ∧ mayFault .ecall = false ∧
      (nextOf (exec .ecall inEffect)).isSome := by decide
theorem witness_TranslatorChecks :
    (3 ≠ 1 ∧ 3 ≠ 2 ∧ 3 ≠ 4 ∧ 3 ≠ 8) ∧ (0x20004#64).toNat % 8 ≠ 0 ∧
    ((0x20000#64).toNat % 8 = 0 ∧
      State.reset.cfg.capacity < (0x20000#64 - State.reset.cfg.loadBase).toNat + 8) ∧
    ((0x1FFF8#64).toNat % 8 = 0 ∧
      ¬ State.reset.cfg.capacity < (0x1FFF8#64 - State.reset.cfg.loadBase).toNat + 8) := by decide
theorem witness_LoadUnitValue :
    State.reset.translate 0x1FFF8 8 = .ok 0xFFF8 ∧
      State.reset.translate 0x1FFFC 8 = .error (.misaligned 0x1FFFC 8) := by decide
theorem witness_StoreUnitEffect :
    loadMem.wf = true ∧ State.reset.translate 0x1FFFF 1 = .ok 0xFFFF ∧
      State.reset.translate 0x20000 1 = .error (.outOfBounds 0x20000 1) := by decide
theorem witness_StoreLoadRoundTrip :
    State.reset.mem.wf = true ∧
      (8 ∈ [1, 2, 4, 8] ∧ (0x1FFF8#64).toNat % 8 = 0 ∧ State.reset.offset 0x1FFF8 + 8 ≤ State.reset.cfg.capacity) ∧
      3 ∉ [1, 2, 4, 8] ∧ (0x10001#64).toNat % 2 ≠ 0 := by decide
theorem witness_NarrowLoadOfWideStore :
    State.reset.cfg.Valid ∧ State.reset.mem.wf = true ∧
      (∃ t, State.reset.memWrite 0x1FFF8 8 0x1122334455667788 = .ok t) ∧ 6 + 2 ≤ 8 ∧ 2 ∈ [1, 2, 4, 8] ∧ 6 % 2 = 0 :=
  ⟨by decide, by decide, ⟨_, rfl⟩, by decide⟩
theorem witness_MemoryCanonicalForm : loadMem.wf = true ∧ Memory.wf [] = true := by decide
theorem witness_StepRunsDecodedInstruction :
    (probe 0x002081B3#32 1 2).fault = none ∧ (probe 0x002081B3#32 1 2).Fetches 0x002081B3#32 ∧
      0x002081B3#32 ≠ 0#32 ∧ decode 0x002081B3#32 = .add 3 1 2 := by
  unfold State.Fetches; decide
theorem witness_StepAnswersUnlessFaulted :
    State.reset.fault = none ∧ (State.reset.raise (.badSize 0 3)).fault = some (.badSize 0 3) := by decide
/-- The two clauses at the addresses where they meet the fetches that succeed. -/
theorem witness_FetchFaultState :
    State.reset.fault = none ∧ (State.reset.setPc 0x1FFFE).pc.toNat % 4 ≠ 0 ∧
    ((State.reset.setPc 0x20000).pc.toNat % 4 = 0 ∧
      State.reset.cfg.capacity < ((State.reset.setPc 0x20000).pc - State.reset.cfg.loadBase).toNat + 4) := by decide
theorem witness_ExecuteFaultState :
    (probe 0x0000B183#32 0x20000 0).fault = none ∧ (probe 0x0000B183#32 0x20000 0).Fetches 0x0000B183#32 ∧
    0x0000B183#32 ≠ 0#32 ∧
    (stepped 0x0000B183#32 0x20000 0).map (·.fault) = some (some (.outOfBounds 0x20000 8)) := by
  unfold State.Fetches; decide
theorem witness_CountRule :
    (stepped 0x002081B3#32 1 2).map (·.fault) = some none ∧
      (stepped 0x00100073#32 1 2).map (·.fault) ≠ some none := by decide
theorem witness_SnapshotRule :
    (probe 0x008000EF#32 1 2).fault = none ∧ (probe 0x008000EF#32 1 2).dl = none ∧
      (probe 0x008000EF#32 1 2).Fetches 0x008000EF#32 ∧ (stepped 0x008000EF#32 1 2).isSome ∧
      (decode 0x008000EF#32).mnemonic ∈ (probe 0x008000EF#32 1 2).cfg.callReturnClass := by
  unfold State.Fetches; decide
theorem witness_HaltRule :
    (probe 0x00000073#32 1 2).fault = none ∧
      (probe 0x00000073#32 1 2).dl = none ∧ (probe 0x00000073#32 1 2).Fetches 0x00000073#32 ∧
      (stepped 0x00000073#32 1 2).map (·.fault) = some none := by
  unfold State.Fetches; decide
theorem witness_TransientZeroUnobservable : State.reset.fault = none ∧ (State.reset.setReg 0 9).reg 0 = 9 := by decide
theorem witness_StaleFetchLatchUnobservable :
    (probe 0x002081B3#32 1 2).fault = none ∧ (probe 0x002081B3#32 1 2).Fetches 0x002081B3#32 := by
  unfold State.Fetches; decide
theorem witness_SequentialPc :
    (probe 0x002081B3#32 1 2).fault = none ∧ (probe 0x002081B3#32 1 2).dl = none ∧
      (probe 0x002081B3#32 1 2).Fetches 0x002081B3#32 ∧ isControl (decode 0x002081B3#32) = false ∧
      (stepped 0x002081B3#32 1 2).isSome := by
  unfold State.Fetches; decide
/-- `beq x1, x2, 8` with x1 = 1 and x2 = 2. -/
theorem witness_SequentialPc_untaken :
    (probe 0x00208463#32 1 2).fault = none ∧ (probe 0x00208463#32 1 2).dl = none ∧
      (probe 0x00208463#32 1 2).Fetches 0x00208463#32 ∧ (stepped 0x00208463#32 1 2).isSome ∧
      decode 0x00208463#32 = .beq 1 2 8 ∧ (probe 0x00208463#32 1 2).zeroForce.untakenBranch (.beq 1 2 8) := by
  unfold State.Fetches State.untakenBranch; decide
/-- `sw x2, 0(x1)` with x1 = 0x10004 stores the next instruction (95 section 4, P4, in one step). -/
theorem witness_StoreIsFetchedNext :
    (probe 0x0020A023#32 0x10004 0x73).fault = none ∧ (probe 0x0020A023#32 0x10004 0x73).mem.wf = true ∧
      (probe 0x0020A023#32 0x10004 0x73).Fetches 0x0020A023#32 ∧ decode 0x0020A023#32 = .sw 1 2 0 ∧
      (stepped 0x0020A023#32 0x10004 0x73).map (·.fault) = some none ∧
      (probe 0x0020A023#32 0x10004 0x73).zeroForce.storeAddress 1 0 = (probe 0x0020A023#32 0x10004 0x73).pc + 4 ∧
      ((probe 0x0020A023#32 0x10004 0x73).zeroForce.reg 2).extractLsb' 0 32 = 0x00000073#32 := by
  unfold State.Fetches; decide
/-- `sb x2, 0(x1)` to byte 1 of the next word: only that byte of the word fetched next is the stored one. -/
theorem witness_StoreIsFetchedNext_sb :
    let s := probe 0x00208023#32 0x10005 0x73
    s.fault = none ∧ s.mem.wf = true ∧ s.Fetches 0x00208023#32 ∧ decode 0x00208023#32 = .sb 1 2 0 ∧
      (stepped 0x00208023#32 0x10005 0x73).map (·.fault) = some none ∧
      s.offset (s.pc + 4) + 4 ≤ s.cfg.capacity ∧
      ∀ k, k < 4 → (0x00007300#32).toNat / 256 ^ k % 256 =
        if s.offset (s.zeroForce.storeAddress 1 0) ≤ s.offset (s.pc + 4) + k ∧
            s.offset (s.pc + 4) + k < s.offset (s.zeroForce.storeAddress 1 0) + 1 then
          (s.zeroForce.reg 2).toNat / 256 ^ (s.offset (s.pc + 4) + k - s.offset (s.zeroForce.storeAddress 1 0)) % 256
        else (s.mem.read (s.offset (s.pc + 4) + k)).toNat := by
  unfold State.Fetches; decide
theorem witness_CycleKeepsHistory :
    (stepped 0x002081B3#32 1 2).isSome ∧
      (nextOf (step { probe 0x002081B3#32 1 2 with halted := true })).isSome := by decide
theorem witness_StepKeepsInvariant :
    (probe 0x002081B3#32 1 2).Inv ∧ (stepped 0x002081B3#32 1 2).isSome :=
  ⟨{ cfgValid := by decide
     memCanonical := by decide
     memBounded := by decide
     latchEmpty := fun _ => rfl
     latchDescriptor := by intro d h; cases h
     snapshotsZero := by intro pc x h; cases h
     noBadSize := by intro va n h; cases h
     illegalWord := by intro w a h; cases h }, by decide⟩

/-! Boot and run -/

/-- Boot parameters with one segment, `ecall` at the entry, and one with a segment of the wrong length. -/
def oneSegment (size : Nat) : BootParams :=
  { BootParams.reference with segments := [⟨0x10000, size, [0x73, 0, 0, 0], 0⟩] }

/-- The hart of a boot, if there is one. -/
def hartOf : BootResult State → Option State
  | .hart s => some s
  | .refused _ => none

theorem witness_BootEstablishesLaunch :
    (hartOf (boot leadInGateAsBuilt (oneSegment 4))).map (fun s => (s.fault, s.mem, s.pc, s.reg 2)) =
      some (none, [(0, 0x73)], 0x10000, 0x20000) := by decide
theorem witness_BootEstablishesInvariant :
    (oneSegment 4).cfg.Valid ∧ (oneSegment 4).initMem.wf = true ∧
      (∀ c ∈ (oneSegment 4).initMem, c.1 < (oneSegment 4).cfg.capacity) ∧
      (hartOf (boot leadInGateAsBuilt (oneSegment 4))).isSome :=
  ⟨by decide, by decide, (by intro c h; cases h), by decide⟩
theorem witness_BootRefusesBadSegment :
    boot leadInGateAsBuilt (oneSegment 5) = .refused ⟨0x10000, 5, [0x73, 0, 0, 0], 0⟩ := by decide
/-- A segment with a lead-in that the gate keeps out, and with one that it lets in. -/
theorem witness_InstallPlacesBytes :
    State.reset.cfg.Valid ∧ State.reset.mem.wf = true ∧ State.reset.fault = none ∧ [1, 2, 3, 4, 5, 6, 7, 8].length = 8 ∧
      8 ≤ 2 ^ 64 ∧ (State.reset.install (fun _ => false) ⟨0x10FFC, 8, [1, 2, 3, 4, 5, 6, 7, 8], 1⟩).fault = none ∧
      (State.reset.install (fun _ => true) ⟨0x10FFC, 8, [1, 2, 3, 4, 5, 6, 7, 8], 0⟩).fault = none := by decide
/-- Page-aligned with a whole number of pages, and not. -/
theorem witness_ChunkCountLaw :
    1 ≤ 4 ∧ [1, 2, 3, 4, 5, 6, 7, 8].length = 8 ∧ ((0x10000#64).toNat % 4 = 0 ∧ 8 % 4 = 0) ∧
      (Segment.copies ⟨0x10002, 8, [1, 2, 3, 4, 5, 6, 7, 8], 0⟩ leadInGateAsBuilt 4).length = 3 := by decide
theorem witness_CopyOutsideImageFaults :
    State.reset.fault = none ∧ State.reset.cfg.capacity < State.reset.offset 0x1FFFF + [1, 2].length := by decide
/-- A run that halts and a run that faults, each in its first cycle. -/
theorem witness_RunOutcomes :
    (∃ t, State.run 1 true 0 2 0 (probe 0x00000073#32 0 0) = .halted t) ∧
      ∃ t, State.run 1 true 0 2 0 (probe 0x00100073#32 0 0) = .faulted t := ⟨⟨_, rfl⟩, ⟨_, rfl⟩⟩
theorem witness_LoneEcallRun :
    Mnemonic.ecall ∈ (State.reset.placeAtPc 0x00000073#32).cfg.haltClass ∧
    ((State.reset.placeAtPc 0x00000073#32).Launch 0x10000) ∧
      (State.reset.placeAtPc 0x00000073#32).Fetches 0x00000073#32 :=
  ⟨by decide,
   { noFault := by decide
     notHalted := by decide
     latchIsEmpty := by decide
     countZero := by decide
     noEvents := by decide
     stackSet := by decide
     atEntry := by decide }, by unfold State.Fetches; decide⟩

end Sys2Proof.Tests
end

section
/-!
PROOFS. The invariant of the machine (spec 00_scope, R8, R144, R313, R348): reset has it, boot establishes it and
every step keeps it. Inside a cycle the decode latch is full, so what is carried through an effect is
`State.MidInv`, the invariant without its clause on the empty latch.
-/

namespace Sys2Proof

/-! ### The decoder answers ILLEGAL only for a word in no row -/

theorem decodeLoad_ne_illegal (w v : InstrWord) : decodeLoad w ≠ some (.illegal v) := by
  unfold decodeLoad; split <;> simp [iForm]

theorem decodeMiscMem_ne_illegal (w v : InstrWord) : decodeMiscMem w ≠ some (.illegal v) := by
  unfold decodeMiscMem; split <;> simp

theorem decodeOpImm_ne_illegal (w v : InstrWord) : decodeOpImm w ≠ some (.illegal v) := by
  unfold decodeOpImm; repeat' split
  all_goals simp [iForm, shift6Form]

theorem decodeOpImm32_ne_illegal (w v : InstrWord) : decodeOpImm32 w ≠ some (.illegal v) := by
  unfold decodeOpImm32; repeat' split
  all_goals simp [iForm, shift5Form]

theorem decodeStore_ne_illegal (w v : InstrWord) : decodeStore w ≠ some (.illegal v) := by
  unfold decodeStore; split <;> simp [sForm]

theorem decodeOp_ne_illegal (w v : InstrWord) : decodeOp w ≠ some (.illegal v) := by
  unfold decodeOp; repeat' split
  all_goals simp [rForm]

theorem decodeOp32_ne_illegal (w v : InstrWord) : decodeOp32 w ≠ some (.illegal v) := by
  unfold decodeOp32; repeat' split
  all_goals simp [rForm]

theorem decodeBranch_ne_illegal (w v : InstrWord) : decodeBranch w ≠ some (.illegal v) := by
  unfold decodeBranch; split <;> simp [bForm]

theorem decodeJalr_ne_illegal (w v : InstrWord) : decodeJalr w ≠ some (.illegal v) := by
  unfold decodeJalr; split <;> simp [iForm]

theorem decodeSystem_ne_illegal (w v : InstrWord) : decodeSystem w ≠ some (.illegal v) := by
  unfold decodeSystem; split <;> simp

/-- No row of the opcode table is ILLEGAL (R93). -/
theorem decodeRow_ne_illegal (w v : InstrWord) : decodeRow w ≠ some (.illegal v) := by
  unfold decodeRow
  split
  · exact decodeLoad_ne_illegal w v
  · exact decodeMiscMem_ne_illegal w v
  · exact decodeOpImm_ne_illegal w v
  · simp
  · exact decodeOpImm32_ne_illegal w v
  · exact decodeStore_ne_illegal w v
  · exact decodeOp_ne_illegal w v
  · simp
  · exact decodeOp32_ne_illegal w v
  · exact decodeBranch_ne_illegal w v
  · exact decodeJalr_ne_illegal w v
  · simp
  · exact decodeSystem_ne_illegal w v
  · simp

/-- The decoder answers ILLEGAL of the word itself, and only where no row matches (R92). -/
theorem decoder_eq_illegal {w v : InstrWord} (h : decoder w = .illegal v) : v = w ∧ decodeRow w = none := by
  unfold decoder at h
  cases hr : decodeRow w with
  | some i =>
    rw [hr] at h
    cases h
    exact absurd hr (decodeRow_ne_illegal w v)
  | none =>
    rw [hr] at h
    cases h
    exact ⟨rfl, rfl⟩

end Sys2Proof

namespace Sys2Proof.Machine

/-! ### Memory inside the image -/

/-- A canonical memory with no byte outside an image of `capacity` bytes (R26). -/
def Memory.Fits (m : Memory) (capacity : Nat) : Prop := m.wf = true ∧ ∀ c ∈ m, c.1 < capacity

/-- A store inside the image keeps the memory inside it (R56). -/
theorem Memory.Fits.writeLE {m : Memory} {capacity off n : Nat} (h : m.Fits capacity) (v : Word)
    (hb : off + n ≤ capacity) : (m.writeLE off n v).Fits capacity := by
  refine ⟨Memory.writeLE_wf h.1 off n v, fun c hc => ?_⟩
  rcases Memory.mem_writeLE hc with hc | hc
  · exact h.2 c hc
  · omega

/-- A copy inside the image keeps the memory inside it (R69). -/
theorem Memory.Fits.copy {m : Memory} {capacity off : Nat} {bs : List Byte} (h : m.Fits capacity)
    (hb : off + bs.length ≤ capacity) : (m.copy off bs).Fits capacity := by
  refine ⟨Memory.copy_wf h.1 off bs, fun c hc => ?_⟩
  rcases Memory.mem_copy hc with hc | hc
  · exact h.2 c hc
  · omega

/-! ### The faults of the reference profile -/

/-- The faults a hart with the reference profile can hold: no bad size (R51), and an illegal instruction only of
a non-empty word in no row (R293). -/
def Fault.OfProfile : Fault → Prop
  | .badSize _ _ => False
  | .illegalInstruction w _ => w ≠ 0#32 ∧ decodeRow w = none
  | .misaligned _ _ | .outOfBounds _ _ | .unmodelled _ _ => True

/-- The two clauses of the invariant on the fault, as one. -/
theorem Fault.ofProfile_iff (f : Fault) :
    f.OfProfile ↔ (∀ va n, f ≠ .badSize va n) ∧
      ∀ w a, f = .illegalInstruction w a → w ≠ 0#32 ∧ decodeRow w = none := by
  cases f <;> simp [Fault.OfProfile]

/-- An access of a legal size faults within the profile (R54). -/
theorem State.translate_error_ofProfile {s : State} {va : Word} {n : Nat} {f : Fault} (hn : legalSize n = true)
    (h : s.translate va n = .error f) : f.OfProfile := by
  rcases State.translate_error_kind hn h with rfl | rfl <;> trivial

/-! ### The invariant inside a cycle -/

/-- What of the invariant holds inside a cycle too, where the decode latch may be full without a fault. -/
structure State.MidInv (s : State) : Prop where
  cfgValid : s.cfg.Valid
  memFits : s.mem.Fits s.cfg.capacity
  latchDescriptor : ∀ d, s.dl = some d → d = s.fl.descriptor Decoder.rv64i ∧ s.fl.word ≠ 0#32
  snapshotsZero : ∀ pc x, Event.snapshot pc x ∈ s.events → x[0] = 0
  faultOfProfile : ∀ f, s.fault = some f → f.OfProfile

/-- The invariant is that of the inside of a cycle, with the latch empty where no fault is held (R144). -/
theorem State.inv_iff (s : State) : s.Inv ↔ s.MidInv ∧ (s.fault = none → s.dl = none) := by
  constructor
  · intro h
    refine ⟨⟨h.cfgValid, ⟨h.memCanonical, h.memBounded⟩, h.latchDescriptor, h.snapshotsZero, fun f hf => ?_⟩,
      h.latchEmpty⟩
    refine f.ofProfile_iff.2 ⟨fun va n e => h.noBadSize va n (e ▸ hf), fun w a e => h.illegalWord w a (e ▸ hf)⟩
  · rintro ⟨h, hl⟩
    exact
      { cfgValid := h.cfgValid
        memCanonical := h.memFits.1
        memBounded := h.memFits.2
        latchEmpty := hl
        latchDescriptor := h.latchDescriptor
        snapshotsZero := h.snapshotsZero
        noBadSize := fun va n hf => h.faultOfProfile _ hf
        illegalWord := fun w a hf => h.faultOfProfile _ hf }

theorem State.Inv.mid {s : State} (h : s.Inv) : s.MidInv := (s.inv_iff.1 h).1

/-! One lemma per state operation: what it leaves of the invariant. -/

theorem State.MidInv.setReg {s : State} (h : s.MidInv) (i : RegIdx) (v : Word) : (s.setReg i v).MidInv :=
  { h with }

theorem State.MidInv.setPc {s : State} (h : s.MidInv) (target : Word) : (s.setPc target).MidInv := { h with }

theorem State.MidInv.finish {s : State} (h : s.MidInv) : s.finish.MidInv := { h with }

theorem State.MidInv.setMem {s : State} (h : s.MidInv) {m : Memory} (hm : m.Fits s.cfg.capacity) :
    (s.setMem m).MidInv :=
  { h with memFits := hm }

theorem State.MidInv.raise {s : State} (h : s.MidInv) {f : Fault} (hf : f.OfProfile) : (s.raise f).MidInv :=
  { h with faultOfProfile := by rintro g ⟨⟩; exact hf }

/-- A raised fault makes the invariant of the inside of a cycle the whole one (R313). -/
theorem State.MidInv.raise_inv {s : State} (h : s.MidInv) {f : Fault} (hf : f.OfProfile) : (s.raise f).Inv :=
  (State.inv_iff _).2 ⟨h.raise hf, by simp⟩

/-! ### A step -/

/-- The effect of a decoded non-empty word keeps the invariant of the inside of a cycle. -/
theorem State.MidInv.effect {w : InstrWord} {s u : State} (hw : w ≠ 0#32) (h : s.MidInv)
    (he : EffectOf (decode w) s u) : u.MidInv := by
  cases he with
  | wroteReg rd v _ _ => exact h.setReg rd v
  | jumped rd v p _ _ => exact (h.setReg rd v).setPc p
  | branched p _ => exact h.setPc p
  | didNothing => exact h
  | stored va n off v _ ht =>
    obtain ⟨-, -, hb, rfl⟩ := (s.translate_ok_iff va n off).1 ht
    exact h.setMem (h.memFits.writeLE v hb)
  | halted _ _ => exact h.finish
  | raised f _ hb hi =>
    refine h.raise (f.ofProfile_iff.2 ⟨hb, fun v a e => ?_⟩)
    obtain ⟨rfl, hr⟩ := decoder_eq_illegal ((decode_eq_decoder hw).symm.trans (hi v a e))
    exact ⟨hw, hr⟩

/-- The snapshots of a cycle show `x[0] = 0` (R137, R348). -/
theorem State.snapshots_zero {s : State} {i : Instr} {pc : Word} {x : Vector Word 32}
    (h : Event.snapshot pc x ∈ s.snapshots i) : x[0] = 0 := by
  unfold State.snapshots at h
  split at h
  · obtain ⟨-, rfl⟩ := Event.snapshot.inj (List.mem_singleton.1 h)
    exact Vector.getElem_set_self _
  · cases h

/-- The state in which the effect of a non-empty word runs has the invariant of the inside of a cycle. -/
theorem State.Inv.atEffect {s : State} {w : InstrWord} (h : s.Inv) (hw : w ≠ 0#32) : (s.atEffect w).MidInv :=
  { h.mid with
    latchDescriptor := by
      rintro d ⟨⟩
      rw [decode_eq_decoder hw]
      exact ⟨rfl, hw⟩
    snapshotsZero := fun pc x hx => (List.mem_append.1 hx).elim (h.snapshotsZero pc x) State.snapshots_zero }

/-- The end of a cycle restores the whole invariant: a fault is held, or the latch is emptied (R139, R144). -/
theorem State.MidInv.afterCycle {u : State} (h : u.MidInv) (i : Instr) : (u.afterCycle i).Inv := by
  rw [State.inv_iff]
  cases hf : u.fault with
  | some f =>
    rw [State.afterCycle_of_fault hf]
    exact ⟨h, by simp [hf]⟩
  | none =>
    rw [State.afterCycle_of_none hf]
    exact ⟨{ h with latchDescriptor := by simp }, fun _ => rfl⟩

/-- A bubble keeps the invariant (R134, R136). -/
theorem State.Inv.bubble {s : State} (h : s.Inv) (hl : s.dl = none) : (s.fetched 0#32).countStep.Inv :=
  (State.inv_iff _).2
    ⟨{ h.mid with latchDescriptor := fun d hd => by cases hl.symm.trans hd }, fun _ => hl⟩

/-- Every step keeps the invariant. -/
theorem step_inv {s t : State} (h : s.Inv) (hs : step s = .next t) : t.Inv := by
  obtain ⟨hf, hcases⟩ := step_cases hs
  rcases hcases with ⟨f, ht, rfl⟩ | ⟨-, hl, rfl⟩ | ⟨d, u, -, hd, -, -⟩ | ⟨w, u, -, hw, he, rfl⟩
  · exact (h.mid.setReg 0 0).raise_inv (State.translate_error_ofProfile rfl ht)
  · exact h.bubble hl
  · cases (h.latchEmpty hf).symm.trans hd
  · exact ((h.atEffect hw).effect hw he).afterCycle _

/-! ### Boot -/

/-- A copy keeps the invariant: it fits, or it faults and writes nothing (R68, R69). -/
theorem State.Inv.copyBytes {s : State} (h : s.Inv) (va : Word) (bytes : List Byte) : (s.copyBytes va bytes).Inv := by
  unfold State.copyBytes
  split
  · exact h
  · split
    · exact h.mid.raise_inv trivial
    · exact (State.inv_iff _).2 ⟨h.mid.setMem (h.mid.memFits.copy (by omega)), h.latchEmpty⟩

/-- Installation of a segment keeps the invariant. -/
theorem State.Inv.install {s : State} (h : s.Inv) (gate : Nat → Bool) (seg : Segment) : (s.install gate seg).Inv :=
  List.foldlRecOn (motive := State.Inv) _ _ h fun _ ht c _ => ht.copyBytes c.1 c.2

/-- The installation loop keeps the invariant of a hart it returns. -/
theorem installAll_inv {gate : Nat → Bool} {segs : List Segment} {s t : State} (h : s.Inv)
    (ht : installAll gate segs s = .hart t) : t.Inv := by
  induction segs generalizing s with
  | nil => cases ht; exact h
  | cons seg segs ih =>
    unfold installAll installSegment at ht
    split at ht
    · cases ht; exact h
    · by_cases hlen : seg.data.length = seg.size
      · rw [if_pos hlen] at ht
        exact ih (h.install gate seg) ht
      · rw [if_neg hlen] at ht
        cases ht

/-- The constructed hart has the invariant where its parameters and its memory do (R340). -/
theorem BootParams.construct_inv {p : BootParams} (hc : p.cfg.Valid) (hm : p.initMem.Fits p.cfg.capacity) :
    p.construct.Inv :=
  (State.inv_iff _).2
    ⟨{ cfgValid := hc
       memFits := hm
       latchDescriptor := fun _ hd => by cases hd
       snapshotsZero := fun _ _ hx => by cases hx
       faultOfProfile := fun _ hf => by cases hf }, fun _ => rfl⟩

/-- The last two steps of the boot sequence keep the invariant (R342, R343). -/
theorem State.Inv.setStackPointer_setPc {s : State} (h : s.Inv) (entryPc : Word) :
    (s.setStackPointer.setPc entryPc).Inv :=
  (State.inv_iff _).2 ⟨(h.mid.setReg 2 _).setPc entryPc, h.latchEmpty⟩

/-- A hart that boot returns has the invariant. -/
theorem boot_inv {gate : Nat → Bool} {p : BootParams} {s : State} (hc : p.cfg.Valid)
    (hm : p.initMem.Fits p.cfg.capacity) (hb : boot gate p = .hart s) : s.Inv := by
  unfold boot at hb
  cases hi : installAll gate p.segments p.construct with
  | refused seg => rw [hi] at hb; cases hb
  | hart t =>
    have ht : t.Inv := installAll_inv (BootParams.construct_inv hc hm) hi
    rw [hi] at hb
    dsimp only at hb
    split at hb
    · cases hb; exact ht
    · cases hb; exact ht.setStackPointer_setPc p.entryPc

/-! ### The obligations -/

/-- Settles O50: the effect is run through `State.MidInv`, and the end of the cycle restores the whole
invariant. -/
theorem stepKeepsInvariant : Obligations.StepKeepsInvariant := fun _ _ => step_inv

/-- Settles O54: the constructed hart has the invariant, and each copy of the installation keeps it. -/
theorem bootEstablishesInvariant : Obligations.BootEstablishesInvariant :=
  fun _ _ _ hc hw hb h => boot_inv hc ⟨hw, hb⟩ h

/-- Settles O51: reset is the boot of the reference parameters with nothing installed. -/
theorem resetHasInvariant : Obligations.ResetHasInvariant :=
  boot_inv (gate := leadInGateAsBuilt) (p := BootParams.reference) (by decide)
    ⟨rfl, by simp [BootParams.reference]⟩ rfl

end Sys2Proof.Machine
end

section
/-!
PROOFS. What a cycle keeps of the state and what it cannot read (spec 10_state; 40_cycle R131 to R143): the canonical
memory, the halt flag, the stale `x[0]` and fetch latch, the pc of straight-line code, the history, and reset as a
boot.
-/

namespace Sys2Proof.Machine

/-! ### What a cycle cannot read -/

/-- Zero-force forgets what register 0 held (R131). -/
@[simp] theorem State.setReg_zero_zeroForce (s : State) (v : Word) : (s.setReg 0 v).zeroForce = s.zeroForce :=
  s.setReg_setReg 0 v 0

/-- A cycle sees its start state only through zero-force, for every decoder (R142). -/
theorem State.cycle_eq_of_zeroForce_eq (D : Decoder) {s t : State} (h : s.zeroForce = t.zeroForce) :
    s.cycle D = t.cycle D := by
  have hf : s.fault = t.fault := by simpa [State.zeroForce] using congrArg State.fault h
  unfold State.cycle
  rw [hf, h]

/-- A fetch that succeeds overwrites whatever the fetch latch held (R27). -/
@[simp] theorem State.setFl_fetched (s : State) (l : FetchLatch) (w : InstrWord) :
    (s.setFl l).fetched w = s.fetched w := rfl

/-- What the fetch latch holds does not bear on what is fetched (R132). -/
theorem State.Fetches.setFl {s : State} {w : InstrWord} (h : s.Fetches w) (l : FetchLatch) :
    (s.setFl l).Fetches w := h

/-- A cycle whose fetch succeeds does not read the old fetch latch, for every decoder (R350). -/
theorem State.Fetches.cycle_setFl (D : Decoder) {s : State} {w : InstrWord} (h : s.Fetches w)
    (hf : s.fault = none) (l : FetchLatch) : (s.setFl l).cycle D = s.cycle D := by
  rw [(h.setFl l).cycle D hf, h.cycle D hf, State.setFl_fetched]

/-! ### What a cycle keeps of the history -/

/-- From `s` to `t` the parameters and the trace flag are the same, no event is taken back, the halt flag is not
cleared, and the count does not go down (R30, R31, R36, R37). -/
structure State.KeepsHistory (s t : State) : Prop where
  cfg : t.cfg = s.cfg
  trace : t.trace = s.trace
  events : s.events <+: t.events
  halted : s.halted = true → t.halted = true
  count : s.count ≤ t.count

theorem State.KeepsHistory.trans {s t u : State} (h : s.KeepsHistory t) (h' : t.KeepsHistory u) :
    s.KeepsHistory u where
  cfg := h'.cfg.trans h.cfg
  trace := h'.trace.trans h.trace
  events := h.events.trans h'.events
  halted := h'.halted ∘ h.halted
  count := h.count.trans h'.count

/-! One lemma per stage of the cycle. -/

theorem State.zeroForce_raise_keepsHistory (s : State) (f : Fault) : s.KeepsHistory (s.zeroForce.raise f) :=
  ⟨rfl, rfl, List.prefix_rfl, id, le_rfl⟩

theorem State.fetched_keepsHistory (s : State) (w : InstrWord) : s.KeepsHistory (s.fetched w) :=
  ⟨rfl, rfl, List.prefix_rfl, id, le_rfl⟩

theorem State.decodeStage_keepsHistory (D : Decoder) (s : State) : s.KeepsHistory (s.decodeStage D) := by
  unfold State.decodeStage
  split <;> exact ⟨rfl, rfl, List.prefix_rfl, id, le_rfl⟩

theorem State.countStep_keepsHistory (s : State) : s.KeepsHistory s.countStep :=
  ⟨rfl, rfl, List.prefix_rfl, id, Nat.le_succ _⟩

theorem State.snapshotStage_keepsHistory (s : State) (d : Descriptor) : s.KeepsHistory (s.snapshotStage d) where
  cfg := s.snapshotStage_cfg d
  trace := s.snapshotStage_trace d
  events := by rcases s.snapshotStage_events d with h | h <;> simp [h]
  halted := by simp
  count := by simp

theorem EffectRoutine.keepsHistory {m : Mnemonic} {e : State → Result} (he : EffectRoutine m e) (s : State) :
    ∃ t, e s = .next t ∧ s.KeepsHistory t := by
  obtain ⟨t, ht, -, -, hcount, hevents, hcfg, htrace, hhalted, -⟩ := he.frame s
  refine ⟨t, ht, hcfg, htrace, hevents ▸ List.prefix_rfl, fun hs => ?_, hcount.ge⟩
  rcases hhalted with h | ⟨h, -⟩
  · exact h.trans hs
  · exact h

theorem State.afterEffect_keepsHistory (s : State) (d : Descriptor) : s.KeepsHistory (s.afterEffect d) := by
  obtain ⟨hcfg, htrace, -, -, -, -, -, hevents, hhalted, hdone, hfault⟩ := s.afterEffect_frame d
  refine ⟨hcfg, htrace, hevents ▸ List.prefix_rfl, hhalted, ?_⟩
  by_cases hf : s.fault = none
  · exact (hdone hf).1 ▸ Nat.le_succ _
  · rw [hfault hf]

/-- Execute keeps the history, for every decoder (R136 to R140). -/
theorem State.executeStage_keepsHistory (D : Decoder) (s : State) :
    ∃ t, s.executeStage D = .next t ∧ s.KeepsHistory t := by
  cases hd : s.dl with
  | none => exact ⟨_, State.executeStage_none D hd, s.countStep_keepsHistory⟩
  | some d =>
    obtain ⟨u, hu, hk⟩ := (D.2 d.word).keepsHistory (s.snapshotStage d)
    refine ⟨u.afterEffect d, ?_,
      ((s.snapshotStage_keepsHistory d).trans hk).trans (u.afterEffect_keepsHistory d)⟩
    rw [State.executeStage_some D hd, show D.effect d.word (s.snapshotStage d) = .next u from hu]

/-- A cycle keeps the history, for every decoder (R142). -/
theorem State.cycle_keepsHistory (D : Decoder) {s t : State} (h : s.cycle D = .next t) : s.KeepsHistory t := by
  cases hf : s.fault with
  | some f => rw [State.cycle_faulted D hf] at h; cases h
  | none =>
    cases ht : s.translate s.pc 4 with
    | error f =>
      rw [State.cycle_fetch_error D hf ht] at h
      cases h
      exact s.zeroForce_raise_keepsHistory f
    | ok off =>
      obtain ⟨w, hw⟩ : ∃ w, s.Fetches w := ⟨_, State.fetches_of_translate ht⟩
      obtain ⟨u, hu, hk⟩ := ((s.fetched w).decodeStage D).executeStage_keepsHistory D
      rw [hw.cycle D hf, hu] at h
      cases h
      exact ((s.fetched_keepsHistory w).trans (State.decodeStage_keepsHistory D _)).trans hk

/-! ### A step from an empty decode latch -/

/-- The two ways of a step with an empty decode latch whose fetch succeeds: a bubble, or the effect of the decoded
word and the end of the cycle (R136, R142). -/
theorem State.Fetches.step_next_cases {s t : State} {w : InstrWord} (h : s.Fetches w) (hf : s.fault = none)
    (hl : s.dl = none) (hs : Sys2Proof.Machine.step s = .next t) :
    (w = 0#32 ∧ t = (s.fetched w).countStep) ∨
    (w ≠ 0#32 ∧ ∃ u, exec (decode w) (s.atEffect w) = .next u ∧ t = u.afterCycle (decode w)) := by
  by_cases hw : w = 0#32
  · subst hw
    cases (h.cycle_bubble Decoder.rv64i hf hl).symm.trans hs
    exact .inl ⟨rfl, rfl⟩
  · obtain ⟨u, hu, -, hstep⟩ := h.step hf hw
    cases hstep.symm.trans hs
    exact .inr ⟨hw, u, hu, rfl⟩

/-! ### The pc -/

/-- The effect of an instruction that is no control transfer leaves the pc (R143, R230). -/
theorem EffectOf.pc_of_not_control {i : Instr} {s u : State} (he : EffectOf i s u) (hc : isControl i = false) :
    u.pc = s.pc := by
  cases he with
  | jumped _ _ _ _ hc' => cases hc.symm.trans hc'
  | branched _ hc' => cases hc.symm.trans hc'
  | wroteReg | didNothing | stored | halted | raised => rfl

/-- A branch effect whose comparison fails does nothing (R230). -/
theorem State.branchIf_of_false (s : State) {c : Bool} (h : c = false) (off : Word) :
    s.branchIf c off = .next s := by
  rw [h]; rfl

theorem ltSigned_eq_true_iff (a b : Word) : ltSigned a b = true ↔ a.toInt < b.toInt := BitVec.slt_iff_toInt_lt

theorem ltUnsigned_eq_true_iff (a b : Word) : ltUnsigned a b = true ↔ a.toNat < b.toNat := BitVec.ult_iff_lt

/-- The effect of an untaken branch does nothing (R233 to R238). -/
theorem State.untakenBranch.exec_eq {s : State} {i : Instr} (h : s.untakenBranch i) : exec i s = .next s := by
  cases i with
  | beq => exact s.branchIf_of_false (beq_eq_false_iff_ne.2 h) _
  | bne => exact s.branchIf_of_false (bne_eq_false_iff_eq.2 h) _
  | blt =>
    exact s.branchIf_of_false (Bool.eq_false_iff.2 (mt (ltSigned_eq_true_iff _ _).1 h)) _
  | bge =>
    exact s.branchIf_of_false ((Bool.not_eq_false' _).mpr ((ltSigned_eq_true_iff _ _).2 (not_le.1 h))) _
  | bltu =>
    exact s.branchIf_of_false (Bool.eq_false_iff.2 (mt (ltUnsigned_eq_true_iff _ _).1 h)) _
  | bgeu =>
    exact s.branchIf_of_false ((Bool.not_eq_false' _).mpr ((ltUnsigned_eq_true_iff _ _).2 (not_le.1 h))) _
  | _ => exact h.elim

/-- An effect reads the registers with `x[0]` zero and every other as the cycle found it (R131). -/
@[simp] theorem State.atEffect_reg (s : State) (w : InstrWord) (j : RegIdx) :
    (s.atEffect w).reg j = s.zeroForce.reg j := rfl

/-- Whether a branch is taken depends on the registers only. -/
theorem State.untakenBranch_congr {s t : State} (h : ∀ j, s.reg j = t.reg j) (i : Instr) :
    s.untakenBranch i ↔ t.untakenBranch i := by
  cases i <;> simp only [State.untakenBranch, h]

/-- The effect of an instruction that transfers no control, or of an untaken branch, leaves the pc (R230). -/
theorem exec_pc_of_sequential {i : Instr} {s u : State} (h : isControl i = false ∨ s.untakenBranch i)
    (hu : exec i s = .next u) : u.pc = s.pc := by
  rcases h with hc | hb
  · exact (exec_cases hu).pc_of_not_control hc
  · cases hb.exec_eq.symm.trans hu
    rfl

/-- The end of a cycle leaves the pc. -/
@[simp] theorem State.afterCycle_pc (u : State) (i : Instr) : (u.afterCycle i).pc = u.pc := by
  obtain ⟨-, -, -, hpc, -⟩ := u.afterCycle_frame i
  exact hpc

/-! ### The halt flag -/

/-- After the end of a cycle that did not fault the halt flag is set where it was or where the instruction is of
the halt class, an effect that has set it included (R141). -/
theorem exec_afterCycle_halted {i : Instr} {s u : State} (hu : exec i s = .next u) (hf : u.fault = none) :
    (u.afterCycle i).halted = true ↔ s.halted = true ∨ i.mnemonic ∈ s.cfg.haltClass := by
  obtain ⟨u', hu', -, -, -, -, hcfg, -, hhalted, -⟩ := (exec_effectRoutine i).frame s
  cases hu'.symm.trans hu
  rw [State.afterCycle_of_none hf]
  simp only [Bool.or_eq_true, decide_eq_true_eq, hcfg]
  rcases hhalted with h | ⟨h, hm⟩
  · rw [h]
  · simp [h, hm]

/-- The end of a cycle that did not fault counts the instruction once, since its effect counts nothing
(R138, R140). -/
theorem exec_afterCycle_count {i : Instr} {s u : State} (hu : exec i s = .next u) (hf : u.fault = none) :
    (u.afterCycle i).count = s.count + 1 := by
  obtain ⟨u', hu', -, -, hcount, -⟩ := (exec_effectRoutine i).frame s
  cases hu'.symm.trans hu
  rw [State.afterCycle_of_none hf, ← hcount]

/-! ### The obligations -/

/-- Settles O37: a canonical memory is fixed by what it reads, entry by entry, and each byte of a store keeps the
form. -/
theorem memoryCanonicalForm : Obligations.MemoryCanonicalForm :=
  ⟨fun _ _ hm hn h => Memory.ext_above hm hn h, fun _ off n v h => Memory.writeLE_wf h off n v⟩

/-- Settles O44: a bubble is no instruction and sets no flag; otherwise the class of the decoded mnemonic decides
at the end of the cycle. -/
theorem haltRule : Obligations.HaltRule := by
  intro s t w hf hl hw hs ht
  rcases hw.step_next_cases hf hl hs with ⟨rfl, rfl⟩ | ⟨h0, u, hu, rfl⟩
  · exact ⟨hl, rfl, by simp [State.fetched, State.zeroForce]⟩
  · have huf : u.fault = none := by
      obtain ⟨-, -, -, -, -, -, hfault, -⟩ := u.afterCycle_frame (decode w)
      exact hfault.symm.trans ht
    refine ⟨by rw [State.afterCycle_of_none huf], (exec_afterCycle_count hu huf :), ?_⟩
    rw [exec_afterCycle_halted hu huf, and_iff_right h0]
    rfl

/-- Settles O45: zero-force overwrites the cell before anything reads it. -/
theorem transientZeroUnobservable : Obligations.TransientZeroUnobservable :=
  fun s v _ => State.cycle_eq_of_zeroForce_eq _ (s.setReg_zero_zeroForce v)

/-- Settles O46: the fetch overwrites the latch before decode reads it. -/
theorem staleFetchLatchUnobservable : Obligations.StaleFetchLatchUnobservable :=
  fun _ _ l hf hw => hw.cycle_setFl _ hf l

/-- Settles O47: the fetch moves the pc by 4, and the effect of such an instruction does not write it. -/
theorem sequentialPc : Obligations.SequentialPc := by
  intro s t w hf hl hw hseq hs
  rcases hw.step_next_cases hf hl hs with ⟨-, rfl⟩ | ⟨-, u, hu, rfl⟩
  · rfl
  · rw [← State.untakenBranch_congr (s.atEffect_reg w)] at hseq
    rw [State.afterCycle_pc, exec_pc_of_sequential hseq hu]
    rfl

/-- Settles O49: each stage of the cycle keeps the history. -/
theorem cycleKeepsHistory : Obligations.CycleKeepsHistory := by
  intro s t h
  obtain ⟨hcfg, htrace, hevents, hhalted, hcount⟩ := State.cycle_keepsHistory _ h
  exact ⟨hcfg, htrace, hevents, hhalted, hcount⟩

/-- Settles O52: the boot of the reference parameters computes reset, field by field. -/
theorem resetIsBoot : Obligations.ResetIsBoot :=
  ⟨rfl, rfl, rfl, rfl, rfl, rfl, rfl, rfl⟩

end Sys2Proof.Machine
end

section
/-!
PROOFS. The translator, the load/store unit and the memory frame (spec 20_memory R50 to R58, R72), and a store that
the next cycle fetches (R75, R349).
-/

namespace Sys2Proof.Machine

/-! ### The translator -/

/-- The legal access sizes, as a list (R51). -/
theorem legalSize_iff_mem (n : Nat) : legalSize n = true ↔ n ∈ [1, 2, 4, 8] := by
  simp [legalSize, or_assoc]

/-- The translator answers a fault exactly when the size is not legal or the address is misaligned or the access
is out of bounds (R54). -/
theorem State.exists_translate_error_iff (s : State) (va : Word) (n : Nat) :
    (∃ f, s.translate va n = .error f) ↔
      n ∉ [1, 2, 4, 8] ∨ va.toNat % n ≠ 0 ∨ s.cfg.capacity < s.offset va + n := by
  have hok := s.translate_ok_iff va n (s.offset va)
  rw [legalSize_iff_mem, and_iff_left rfl] at hok
  cases h : s.translate va n with
  | ok off =>
    obtain ⟨-, -, -, rfl⟩ := (s.translate_ok_iff va n off).1 h
    obtain ⟨hn, ha, hb⟩ := hok.1 h
    simp [hn, ha, hb]
  | error f =>
    simp only [h, reduceCtorEq, false_iff] at hok
    simp only [Except.error.injEq, exists_eq', true_iff]
    by_contra hc
    push Not at hc
    exact hok hc

/-- The offset of a byte above an address, where it does not wrap (R50). -/
theorem State.offset_add {s : State} {va : Word} {k : Nat} (h : s.offset va + k < 2 ^ 64) :
    s.offset (va + BitVec.ofNat 64 k) = s.offset va + k := by
  unfold State.offset at h ⊢
  have hk : (BitVec.ofNat 64 k).toNat = k := Nat.mod_eq_of_lt (by omega)
  rw [show va + BitVec.ofNat 64 k - s.cfg.loadBase = va - s.cfg.loadBase + BitVec.ofNat 64 k by ring,
    BitVec.toNat_add, hk, Nat.mod_eq_of_lt h]

/-! ### Bytes and their number -/

/-- A little-endian load is the number its bytes spell (R55). -/
theorem State.readLE_eq_bytesValue (s : State) (off n : Nat) : s.mem.readLE off n = s.bytesValue off n := by
  induction n generalizing off with
  | zero => rfl
  | succ n ih =>
    have hshift (k : Nat) : (s.mem.read (off + (k + 1))).toNat * 256 ^ (k + 1) =
        256 * ((s.mem.read (off + 1 + k)).toNat * 256 ^ k) := by
      rw [Nat.add_right_comm off 1 k, Nat.pow_succ]; ac_rfl
    rw [Memory.readLE, ih, State.bytesValue, State.bytesValue, List.range_succ_eq_map]
    simp [Function.comp_def, hshift, List.sum_map_mul_left]

/-- A byte of a value, by powers of 256 (R56). -/
theorem byteOf_toNat_pow (v : Word) (k : Nat) : (byteOf v k).toNat = v.toNat / 256 ^ k % 256 := by
  rw [byteOf_toNat, Nat.pow_mul]

/-- A load inside the bytes of a store answers the bits of the value at its place (R58). -/
theorem Memory.readLE_writeLE_inside {mem : Memory} (h : mem.wf = true) (off : Nat) (v : Word) {n m k : Nat}
    (hk : k + m ≤ n) : (mem.writeLE off n v).readLE (off + k) m = v.toNat / 2 ^ (8 * k) % 2 ^ (8 * m) := by
  rw [← Memory.readLE_writeFrom h (off + k) v k m]
  refine Memory.readLE_congr fun c h1 h2 => ?_
  rw [Memory.read_writeLE h, if_pos (by omega), Memory.read_writeFrom h, if_pos ⟨h1, h2⟩]
  congr 1
  omega

/-! ### The units -/

/-- The state with a value stored differs from the one before in the bytes stored only (R56). -/
theorem State.bytesWrite_writeLE {s : State} (h : s.mem.wf = true) (off n : Nat) (v : Word) :
    s.BytesWrite (s.setMem (s.mem.writeLE off n v)) off n v := by
  refine ⟨fun k hk => ?_, fun o ho => ?_, fun _ => rfl, rfl, rfl, rfl, rfl, rfl, rfl, rfl, rfl, rfl⟩
  · rw [State.setMem_mem, Memory.read_writeLE h, if_pos (by omega), Nat.add_sub_cancel_left, byteOf_toNat_pow]
  · rw [State.setMem_mem, Memory.read_writeLE h, if_neg (by omega)]

/-- A multiple of a legal size above an address aligned to a size no smaller is aligned to it: a legal size divides
every larger one, and 2^64 (R51, R52). -/
theorem aligned_add {va : Word} {n m k : Nat} (hn : n ∈ [1, 2, 4, 8]) (hm : m ∈ [1, 2, 4, 8]) (hle : m ≤ n)
    (ha : va.toNat % n = 0) (hk : k % m = 0) : (va + BitVec.ofNat 64 k).toNat % m = 0 := by
  have hdvd : ∀ n ∈ [1, 2, 4, 8], ∀ m ∈ [1, 2, 4, 8], m ≤ n → m ∣ n ∧ m ∣ 2 ^ 64 := by decide
  obtain ⟨hmn, hm64⟩ := hdvd n hn m hm hle
  rw [BitVec.toNat_add, BitVec.toNat_ofNat, Nat.add_mod_mod, Nat.mod_mod_of_dvd _ hm64]
  exact Nat.mod_eq_zero_of_dvd
    (dvd_add (hmn.trans (Nat.dvd_of_mod_eq_zero ha)) (Nat.dvd_of_mod_eq_zero hk))

/-- What a load inside a store that answered reads: the translator accepts its address, since a legal size divides
every larger one (R57, R58). -/
theorem State.memRead_of_memWrite {s t : State} {va : Word} {n m k : Nat} {v : Word} (hc : s.cfg.Valid)
    (hm : s.mem.wf = true) (h : s.memWrite va n v = .ok t) (hk : k + m ≤ n) (hs : m ∈ [1, 2, 4, 8])
    (hkm : k % m = 0) :
    t.memRead (va + BitVec.ofNat 64 k) m = .ok (BitVec.ofNat 64 (v.toNat / 2 ^ (8 * k) % 2 ^ (8 * m))) := by
  obtain ⟨off, ht, rfl⟩ := (s.memWrite_ok_iff va n v t).1 h
  obtain ⟨hn, ha, hb, rfl⟩ := (s.translate_ok_iff va n off).1 ht
  rw [legalSize_iff_mem] at hn
  obtain ⟨-, hcap, -⟩ := hc
  have hpos : ∀ m ∈ [1, 2, 4, 8], 0 < m := by decide
  have hmpos := hpos m hs
  have hoff : s.offset (va + BitVec.ofNat 64 k) = s.offset va + k := State.offset_add (by omega)
  refine (State.memRead_ok_iff _ _ _ _).2 ⟨s.offset va + k, ?_, ?_⟩
  · exact (s.translate_ok_iff _ m _).2
      ⟨(legalSize_iff_mem m).2 hs, aligned_add hn hs (by omega) ha hkm, by omega, hoff.symm⟩
  · rw [State.setMem_mem, Memory.readLE_writeLE_inside hm _ v hk]

/-! ### The frame of memory -/

/-- The bytes an effect stores are the only ones it changes (R72). -/
theorem EffectOf.read_of_outside {i : Instr} {s t : State} (he : EffectOf i s t) (hm : s.mem.wf = true) {o : Nat}
    (ho : ∀ off n, storeRange s i = some (off, n) → o < off ∨ off + n ≤ o) : t.mem.read o = s.mem.read o := by
  cases he with
  | stored _ n off v hr _ =>
    have := ho off n hr
    rw [State.setMem_mem, Memory.read_writeLE hm, if_neg (by omega)]
  | wroteReg | jumped | branched | didNothing | halted | raised => rfl

/-! ### A store that the next cycle fetches -/

/-- The store instructions, with their operands and their width (R268 to R271). -/
def IsStore (i : Instr) (rs1 rs2 : RegIdx) (imm : BitVec 12) (n : Nat) : Prop :=
  (i = .sb rs1 rs2 imm ∧ n = 1) ∨ (i = .sh rs1 rs2 imm ∧ n = 2) ∨
    (i = .sw rs1 rs2 imm ∧ n = 4) ∨ (i = .sd rs1 rs2 imm ∧ n = 8)

/-- Every store has the same shape of effect (R268 to R271). -/
theorem IsStore.exec_eq {i : Instr} {rs1 rs2 : RegIdx} {imm : BitVec 12} {n : Nat} (h : IsStore i rs1 rs2 imm n)
    (s : State) : exec i s = s.storeAt (s.storeAddress rs1 imm) n (s.reg rs2) := by
  rcases h with ⟨rfl, rfl⟩ | ⟨rfl, rfl⟩ | ⟨rfl, rfl⟩ | ⟨rfl, rfl⟩ <;> rfl

/-- The empty word is no store (R91). -/
theorem IsStore.ne_zero {w : InstrWord} {rs1 rs2 : RegIdx} {imm : BitVec 12} {n : Nat}
    (h : IsStore (decode w) rs1 rs2 imm n) : w ≠ 0#32 := by
  rintro rfl
  rcases h with ⟨h, -⟩ | ⟨h, -⟩ | ⟨h, -⟩ | ⟨h, -⟩ <;> cases h

/-- A store effect that ends without a fault has passed the translator and has written its bytes (R56, R260). -/
theorem State.storeAt_of_no_fault {s u : State} {va : Word} {n : Nat} {v : Word} (h : s.storeAt va n v = .next u)
    (hu : u.fault = none) :
    s.offset va + n ≤ s.cfg.capacity ∧ u = s.setMem (s.mem.writeLE (s.offset va) n v) := by
  rcases s.storeAt_cases va n v with ⟨off, ht, hs⟩ | ⟨f, -, hs⟩
  · obtain ⟨-, -, hb, rfl⟩ := (s.translate_ok_iff va n off).1 ht
    cases hs.symm.trans h
    exact ⟨hb, rfl⟩
  · cases hs.symm.trans h
    cases hu

/-! The end of a cycle leaves the parameters, the memory and the fault. -/

@[simp] theorem State.afterCycle_cfg (u : State) (i : Instr) : (u.afterCycle i).cfg = u.cfg := by
  unfold State.afterCycle; split <;> rfl
@[simp] theorem State.afterCycle_mem (u : State) (i : Instr) : (u.afterCycle i).mem = u.mem := by
  unfold State.afterCycle; split <;> rfl
@[simp] theorem State.afterCycle_fault (u : State) (i : Instr) : (u.afterCycle i).fault = u.fault := by
  unfold State.afterCycle; split <;> rfl

/-- A step that runs a store without a fault: the access fitted, the pc is at the next instruction, the
parameters are as they were, and the bytes are stored (R143, R260). -/
theorem State.Fetches.step_store {s t : State} {w : InstrWord} {rs1 rs2 : RegIdx} {imm : BitVec 12} {n : Nat}
    (h : s.Fetches w) (hf : s.fault = none) (hi : IsStore (decode w) rs1 rs2 imm n)
    (hs : Sys2Proof.Machine.step s = .next t) (ht : t.fault = none) :
    let off := s.offset (s.zeroForce.storeAddress rs1 imm)
    off + n ≤ s.cfg.capacity ∧ t.pc = s.pc + 4 ∧ t.cfg = s.cfg ∧
      t.mem = s.mem.writeLE off n (s.zeroForce.reg rs2) := by
  obtain ⟨u, hu, -, hstep⟩ := h.step hf hi.ne_zero
  cases hstep.symm.trans hs
  rw [hi.exec_eq] at hu
  obtain ⟨hb, rfl⟩ := State.storeAt_of_no_fault hu (by simpa using ht)
  exact ⟨hb, by rw [State.afterCycle_pc]; rfl, by rw [State.afterCycle_cfg]; rfl,
    by rw [State.afterCycle_mem]; rfl⟩

/-- What is fetched at the next instruction after a store: the stored bytes where they overlap the four bytes
there, and the bytes as they were elsewhere (R75). -/
theorem State.fetches_of_stored {s t : State} {w' : InstrWord} {off n : Nat} {v : Word} (hm : s.mem.wf = true)
    (ha : s.pc.toNat % 4 = 0) (hpc : t.pc = s.pc + 4) (hcfg : t.cfg = s.cfg) (hmem : t.mem = s.mem.writeLE off n v)
    (hb : s.offset (s.pc + 4) + 4 ≤ s.cfg.capacity)
    (hw : ∀ k, k < 4 → w'.toNat / 256 ^ k % 256 =
      if off ≤ s.offset (s.pc + 4) + k ∧ s.offset (s.pc + 4) + k < off + n then
        v.toNat / 256 ^ (s.offset (s.pc + 4) + k - off) % 256
      else (s.mem.read (s.offset (s.pc + 4) + k)).toNat) : t.Fetches w' := by
  have hoff : t.offset t.pc = s.offset (s.pc + 4) := by rw [State.offset, hpc, hcfg]; rfl
  refine ⟨?_, by rw [hoff, hcfg]; exact hb, fun k hk => ?_⟩
  · rw [hpc]
    exact aligned_add (n := 4) (m := 4) (k := 4) (by decide) (by decide) le_rfl ha rfl
  · rw [hoff, hmem, Memory.read_writeLE hm, hw k hk]
    split
    · exact byteOf_toNat_pow v _
    · rfl

/-- The bytes of the low word of a value (R58). -/
theorem extractLsb'_32_byte (v : Word) {k : Nat} (hk : k < 4) :
    (v.extractLsb' 0 32).toNat / 256 ^ k % 256 = v.toNat / 256 ^ k % 256 := by
  rw [BitVec.extractLsb'_toNat, Nat.shiftRight_zero, show 2 ^ 32 = 256 ^ k * 256 ^ (4 - k) by
    rw [← Nat.pow_add, Nat.add_sub_cancel' hk.le]; rfl, Nat.mod_mul_right_div_self,
    Nat.mod_mod_of_dvd _ (dvd_pow_self 256 (by omega))]

/-! ### The obligations -/

/-- Settles O30: of the ways an effect ends only a store writes memory, inside its range. -/
theorem memoryFrame : Obligations.MemoryFrame := by
  intro i s t hm h
  refine ⟨fun hr o => ?_, fun off n hr o ho => ?_⟩
  · exact (exec_cases h).read_of_outside hm fun off n hr' => by cases hr.symm.trans hr'
  · exact (exec_cases h).read_of_outside hm fun off' n' hr' => by cases hr.symm.trans hr'; exact ho

/-- Settles O32: the three checks are the branches of the translator, and both units pass its fault on. -/
theorem translatorChecks : Obligations.TranslatorChecks := by
  intro s va n
  refine ⟨?_, fun f h => ⟨(s.memRead_error_iff va n f).2 h, fun v => (s.memWrite_error_iff va n v f).2 h⟩⟩
  have hsize : legalSize n = false ↔ n ≠ 1 ∧ n ≠ 2 ∧ n ≠ 4 ∧ n ≠ 8 := by
    simp [← Bool.not_eq_true, legalSize_iff_mem]
  simp only [State.translate, hsize]
  rfl

/-- Settles O33: the unit's recursion over the bytes is their weighted sum. -/
theorem loadUnitValue : Obligations.LoadUnitValue := by
  intro s va n
  refine ⟨fun off h => ⟨?_, ?_⟩, fun f => (s.memRead_error_iff va n f).2⟩
  · exact (s.memRead_ok_iff va n _).2 ⟨off, h, by rw [s.readLE_eq_bytesValue]⟩
  · exact s.readLE_eq_bytesValue off n ▸ s.mem.readLE_lt off n

/-- Settles O34: the bytes read back after the store are those of the value, and no other is touched. -/
theorem storeUnitEffect : Obligations.StoreUnitEffect := by
  intro s va n v hm
  refine ⟨fun off h => ⟨_, (s.memWrite_ok_iff va n v _).2 ⟨off, h, rfl⟩, ?_⟩,
    fun f => (s.memWrite_error_iff va n v f).2⟩
  exact State.bytesWrite_writeLE hm off n v

/-- Settles O35: where the checks pass, the load reads back the bytes just stored; where they fail, they fail for
both units. -/
theorem storeLoadRoundTrip : Obligations.StoreLoadRoundTrip := by
  intro s va n v hm
  refine ⟨fun hn ha hb => ?_, fun h => ?_⟩
  · have ht : s.translate va n = .ok (s.offset va) :=
      (s.translate_ok_iff va n _).2 ⟨(legalSize_iff_mem n).2 hn, ha, hb, rfl⟩
    refine ⟨_, (s.memWrite_ok_iff va n v _).2 ⟨_, ht, rfl⟩, (State.memRead_ok_iff _ va n _).2 ⟨_, ht, ?_⟩⟩
    rw [State.setMem_mem, Memory.readLE_writeLE hm]
  · obtain ⟨f, hf⟩ := (s.exists_translate_error_iff va n).2 (h.imp_right .inl)
    exact ⟨⟨f, (s.memWrite_error_iff va n v f).2 hf⟩, f, (s.memRead_error_iff va n f).2 hf⟩

/-- Settles O36: the load's address is aligned and in bounds, and its bytes lie inside those stored. -/
theorem narrowLoadOfWideStore : Obligations.NarrowLoadOfWideStore :=
  fun _ _ _ _ _ _ _ hc hm h hk hs hkm => State.memRead_of_memWrite hc hm h hk hs hkm

/-- Settles O48: the step leaves the pc at the next instruction and the store in memory, and the next fetch reads
the bytes there. -/
theorem storeIsFetchedNext : Obligations.StoreIsFetchedNext := by
  intro s t w w' rs1 rs2 imm n hf hm hw hi hs ht
  obtain ⟨hb, hpc, hcfg, hmem⟩ := hw.step_store hf hi hs ht
  refine ⟨hpc, fun hnext hbytes => State.fetches_of_stored hm hw.1 hpc hcfg hmem hnext hbytes, fun heq hn => ?_⟩
  rw [heq] at hb hmem
  refine State.fetches_of_stored hm hw.1 hpc hcfg hmem (by omega) fun k hk => ?_
  rw [if_pos (by omega), Nat.add_sub_cancel_left, extractLsb'_32_byte _ hk]

end Sys2Proof.Machine
end

section
/-!
PROOFS. Segment installation (spec 20_memory R63 to R70): what one copy places, that copies laid end to end place the
bytes laid end to end, and how many copies there are.
-/

namespace Sys2Proof.Machine

/-! ### One copy -/

/-- A hart that holds a fault is left as it is (R313). -/
theorem State.copyBytes_of_fault {s : State} {f : Fault} (h : s.fault = some f) (va : Word) (bytes : List Byte) :
    s.copyBytes va bytes = s := by
  simp only [State.copyBytes, h]

/-- A copy that does not fit faults (R68). -/
theorem State.copyBytes_of_not_fits {s : State} {va : Word} {bytes : List Byte} (hf : s.fault = none)
    (h : s.cfg.capacity < s.offset va + bytes.length) :
    s.copyBytes va bytes = s.raise (.outOfBounds va bytes.length) := by
  simp only [State.copyBytes, hf, if_pos h]

/-- A copy that fits is made (R69). -/
theorem State.copyBytes_of_fits {s : State} {va : Word} {bytes : List Byte} (hf : s.fault = none)
    (h : s.offset va + bytes.length ≤ s.cfg.capacity) :
    s.copyBytes va bytes = s.setMem (s.mem.copy (s.offset va) bytes) := by
  simp only [State.copyBytes, hf, if_neg (not_lt.2 h)]

/-- The copies of a list made in order, as installation makes them (R69). -/
def State.copyAll (s : State) (copies : List (Word × List Byte)) : State :=
  copies.foldl (fun t c => t.copyBytes c.1 c.2) s

/-- Installation makes the copies of its segment (R69). -/
theorem State.install_eq_copyAll (gate : Nat → Bool) (s : State) (seg : Segment) :
    s.install gate seg = s.copyAll (seg.copies gate s.cfg.pageSize) := rfl

@[simp] theorem State.copyAll_cons (s : State) (c : Word × List Byte) (copies : List (Word × List Byte)) :
    s.copyAll (c :: copies) = (s.copyBytes c.1 c.2).copyAll copies := rfl

/-- A hart that holds a fault takes no copy (R313). -/
theorem State.copyAll_of_fault {s : State} {f : Fault} (h : s.fault = some f) (copies : List (Word × List Byte)) :
    s.copyAll copies = s := by
  induction copies with
  | nil => rfl
  | cons c copies ih => rw [State.copyAll_cons, State.copyBytes_of_fault h, ih]

/-- Where copies end without a fault they began without one (R313). -/
theorem State.fault_of_copyAll {s : State} {copies : List (Word × List Byte)}
    (h : (s.copyAll copies).fault = none) : s.fault = none := by
  cases hf : s.fault with
  | none => rfl
  | some f => rw [State.copyAll_of_fault hf, hf] at h; cases h

/-! ### The bytes copies place -/

/-- From `s` to `t` each byte of `bytes` is placed at the offset of its own address from `va` up, and nothing else
changes. -/
structure State.Places (s t : State) (va : Word) (bytes : List Byte) : Prop where
  placed : ∀ k, k < bytes.length → t.mem.read (s.offset (va + BitVec.ofNat 64 k)) = bytes.getD k 0
  outside : ∀ o, (∀ k, k < bytes.length → s.offset (va + BitVec.ofNat 64 k) ≠ o) → t.mem.read o = s.mem.read o
  frame : t.setMem s.mem = s
  canonical : t.mem.wf = true

theorem State.Places.cfg_eq {s t : State} {va : Word} {bytes : List Byte} (h : s.Places t va bytes) :
    t.cfg = s.cfg := by
  rw [← t.setMem_cfg s.mem, h.frame]

/-- No copy places no byte. -/
theorem State.Places.nil {s : State} (h : s.mem.wf = true) (va : Word) : s.Places s va [] :=
  ⟨fun k hk => absurd hk k.not_lt_zero, fun _ _ => rfl, rfl, h⟩

/-- Addresses within 2^64 bytes of a base have offsets of their own (R50). -/
theorem State.offset_add_inj {s : State} {va : Word} {j k : Nat} (hj : j < 2 ^ 64) (hk : k < 2 ^ 64)
    (h : s.offset (va + BitVec.ofNat 64 j) = s.offset (va + BitVec.ofNat 64 k)) : j = k := by
  have h2 := add_left_cancel (sub_left_injective (BitVec.eq_of_toNat_eq h))
  have h3 := congrArg BitVec.toNat h2
  rwa [BitVec.toNat_ofNat, BitVec.toNat_ofNat, Nat.mod_eq_of_lt hj, Nat.mod_eq_of_lt hk] at h3

/-- One copy that does not fault places its bytes (R69). -/
theorem State.copyBytes_places {s : State} {va : Word} {bytes : List Byte} (hcap : s.cfg.capacity ≤ 2 ^ 64)
    (hm : s.mem.wf = true) (hf : s.fault = none) (h : (s.copyBytes va bytes).fault = none) :
    s.Places (s.copyBytes va bytes) va bytes := by
  by_cases hfit : s.offset va + bytes.length ≤ s.cfg.capacity
  · have hoff (k : Nat) (hk : k < bytes.length) : s.offset (va + BitVec.ofNat 64 k) = s.offset va + k :=
      State.offset_add (by omega)
    rw [State.copyBytes_of_fits hf hfit]
    refine ⟨fun k hk => ?_, fun o ho => ?_, rfl, Memory.copy_wf hm _ _⟩
    · rw [State.setMem_mem, hoff k hk, Memory.read_copy hm, if_pos (Nat.le_add_right _ _),
        Nat.add_sub_cancel_left]
      simp [hk]
    · rw [State.setMem_mem, Memory.read_copy hm]
      split
      · have hlen : bytes.length ≤ o - s.offset va := by
          by_contra hlt
          exact ho (o - s.offset va) (by omega) (by rw [hoff _ (by omega)]; omega)
        rw [List.getElem?_eq_none hlen, Option.getD_none]
      · rfl
  · rw [State.copyBytes_of_not_fits hf (not_le.1 hfit)] at h
    cases h

/-- Copies laid end to end place the bytes laid end to end, as long as they do not wrap onto themselves (R69). -/
theorem State.Places.append {s t u : State} {va : Word} {a b : List Byte} (hlen : a.length + b.length ≤ 2 ^ 64)
    (h : s.Places t va a) (h' : t.Places u (va + BitVec.ofNat 64 a.length) b) : s.Places u va (a ++ b) := by
  have hoff (k : Nat) : t.offset (va + BitVec.ofNat 64 a.length + BitVec.ofNat 64 k) =
      s.offset (va + BitVec.ofNat 64 (a.length + k)) := by
    rw [State.offset, State.offset, h.cfg_eq, BitVec.ofNat_add, BitVec.add_assoc]
  refine ⟨fun k hk => ?_, fun o ho => ?_, ?_, h'.canonical⟩
  · rw [List.length_append] at hk
    by_cases hka : k < a.length
    · rw [List.getD_append _ _ _ _ hka, ← h.placed k hka]
      refine h'.outside _ fun j hj heq => ?_
      rw [hoff] at heq
      have := State.offset_add_inj (by omega) (by omega) heq
      omega
    · obtain ⟨j, rfl⟩ := Nat.exists_eq_add_of_le (not_lt.1 hka)
      rw [List.getD_append_right _ _ _ _ (Nat.le_add_right _ _), Nat.add_sub_cancel_left, ← hoff]
      exact h'.placed j (by omega)
  · rw [h'.outside o fun k hk => hoff k ▸ ho _ (by rw [List.length_append]; omega),
      h.outside o fun k hk => ho k (by rw [List.length_append]; omega)]
  · calc u.setMem s.mem = (u.setMem t.mem).setMem s.mem := rfl
      _ = s := by rw [h'.frame, h.frame]

/-- The first bytes placed and then the rest place them all. -/
theorem State.Places.take_drop {s t u : State} {va : Word} {bytes : List Byte} {i : Nat} (hi : i ≤ bytes.length)
    (hlen : bytes.length ≤ 2 ^ 64) (h : s.Places t va (bytes.take i))
    (h' : t.Places u (va + BitVec.ofNat 64 i) (bytes.drop i)) : s.Places u va bytes := by
  have hi' : (bytes.take i).length = i := List.length_take_of_le hi
  have hall := h.append (b := bytes.drop i) (by rw [hi', List.length_drop]; omega) (by rwa [hi'])
  rwa [List.take_append_drop] at hall

/-- What is placed, counted from a base below the first byte. -/
theorem State.Places.of_drop {s t : State} {va : Word} {bytes : List Byte} {i : Nat}
    (h : s.Places t (va + BitVec.ofNat 64 i) (bytes.drop i)) :
    (∀ k, k < bytes.length ∧ i ≤ k → t.mem.read (s.offset (va + BitVec.ofNat 64 k)) = bytes.getD k 0) ∧
      ∀ o, (∀ k, k < bytes.length ∧ i ≤ k → s.offset (va + BitVec.ofNat 64 k) ≠ o) →
        t.mem.read o = s.mem.read o := by
  have haddr (j : Nat) : va + BitVec.ofNat 64 (i + j) = va + BitVec.ofNat 64 i + BitVec.ofNat 64 j := by
    rw [BitVec.ofNat_add, BitVec.add_assoc]
  refine ⟨fun k ⟨hk, hik⟩ => ?_, fun o ho => h.outside o fun j hj => ?_⟩
  · obtain ⟨j, rfl⟩ := Nat.exists_eq_add_of_le hik
    rw [haddr, h.placed j (by rw [List.length_drop]; omega)]
    simp [List.getD]
  · rw [List.length_drop] at hj
    exact haddr j ▸ ho (i + j) ⟨by omega, by omega⟩

/-! ### The chunks of a segment -/

/-- The chunks of bytes that are not empty: the first page, then the chunks of the rest (R67). -/
theorem pageChunks_of_ne_nil {pageSize fuel : Nat} {va : Word} {bytes : List Byte} (h : bytes ≠ []) :
    pageChunks pageSize (fuel + 1) va bytes =
      (va, bytes.take pageSize) ::
        pageChunks pageSize fuel (va + BitVec.ofNat 64 pageSize) (bytes.drop pageSize) := by
  simp [pageChunks, h]

/-- No bytes have no chunks. -/
@[simp] theorem pageChunks_nil (pageSize fuel : Nat) (va : Word) : pageChunks pageSize fuel va [] = [] := by
  cases fuel <;> rfl

/-- The chunks of some bytes place them all (R67, R69). -/
theorem State.copyAll_pageChunks_places {pageSize fuel : Nat} {s : State} {va : Word} {bytes : List Byte}
    (hp : 1 ≤ pageSize) (hcap : s.cfg.capacity ≤ 2 ^ 64) (hm : s.mem.wf = true) (hfuel : bytes.length ≤ fuel)
    (hlen : bytes.length ≤ 2 ^ 64) (h : (s.copyAll (pageChunks pageSize fuel va bytes)).fault = none) :
    s.Places (s.copyAll (pageChunks pageSize fuel va bytes)) va bytes := by
  induction fuel generalizing s va bytes with
  | zero =>
    obtain rfl := List.eq_nil_of_length_eq_zero (Nat.le_zero.1 hfuel)
    exact .nil hm va
  | succ fuel ih =>
    by_cases hb : bytes = []
    · subst hb
      exact .nil hm va
    · rw [pageChunks_of_ne_nil hb] at h ⊢
      have hs : s.fault = none := State.fault_of_copyAll h
      rw [State.copyAll_cons] at h ⊢
      have hfirst := State.copyBytes_places hcap hm hs (State.fault_of_copyAll h)
      rcases le_total bytes.length pageSize with hle | hle
      · rw [List.drop_eq_nil_of_le hle, pageChunks_nil]
        rwa [List.take_of_length_le hle] at hfirst ⊢
      · have hrest := ih (by rw [hfirst.cfg_eq]; exact hcap) hfirst.canonical
          (by rw [List.length_drop]; omega) (by rw [List.length_drop]; omega) h
        exact hfirst.take_drop hle hlen hrest

/-- The number of chunks is the number of bytes by pages, rounded up (R67). -/
theorem pageChunks_length {pageSize fuel : Nat} (hp : 1 ≤ pageSize) (va : Word) {bytes : List Byte}
    (hfuel : bytes.length ≤ fuel) :
    (pageChunks pageSize fuel va bytes).length = (bytes.length + pageSize - 1) / pageSize := by
  induction fuel generalizing va bytes with
  | zero =>
    obtain rfl := List.eq_nil_of_length_eq_zero (Nat.le_zero.1 hfuel)
    exact (Nat.div_eq_of_lt (by simp; omega)).symm
  | succ fuel ih =>
    by_cases hb : bytes = []
    · subst hb
      exact (Nat.div_eq_of_lt (by simp; omega)).symm
    · have hpos := List.length_pos_iff.2 hb
      rw [pageChunks_of_ne_nil hb, List.length_cons, ih _ (by rw [List.length_drop]; omega), List.length_drop]
      have hrest : (bytes.length - pageSize + pageSize - 1) / pageSize = (bytes.length - 1) / pageSize := by
        rcases le_total pageSize bytes.length with hle | hle
        · rw [Nat.sub_add_cancel hle]
        · rw [Nat.div_eq_of_lt (by omega), Nat.div_eq_of_lt (by omega)]
      rw [hrest, ← Nat.add_div_right _ hp, Nat.sub_add_comm hpos]

/-- Bytes of a whole number of pages have whole pages as their chunks (R70). -/
theorem length_of_mem_pageChunks {pageSize fuel : Nat} {va : Word} {bytes : List Byte}
    (hmod : bytes.length % pageSize = 0) {c : Word × List Byte} (hc : c ∈ pageChunks pageSize fuel va bytes) :
    c.2.length = pageSize := by
  induction fuel generalizing va bytes with
  | zero => cases hc
  | succ fuel ih =>
    by_cases hb : bytes = []
    · rw [hb, pageChunks_nil] at hc
      cases hc
    · rw [pageChunks_of_ne_nil hb] at hc
      have hle : pageSize ≤ bytes.length :=
        Nat.le_of_dvd (List.length_pos_iff.2 hb) (Nat.dvd_of_mod_eq_zero hmod)
      rcases List.mem_cons.1 hc with rfl | hc
      · exact List.length_take_of_le hle
      · exact ih (by rw [List.length_drop, ← Nat.mod_eq_sub_mod hle, hmod]) hc

/-! ### The copies of a segment -/

/-- The chunks after the lead-in of a segment (R67). -/
def Segment.chunks (seg : Segment) (pageSize : Nat) : List (Word × List Byte) :=
  pageChunks pageSize seg.data.length (seg.base + BitVec.ofNat 64 (seg.lead pageSize))
    (seg.data.drop (seg.lead pageSize))

/-- A lead-in that is copied comes before the chunks (R65, R69). -/
theorem Segment.copies_of_lead {seg : Segment} {gate : Nat → Bool} {pageSize : Nat} (hl : seg.lead pageSize ≠ 0)
    (hg : gate seg.flags = true) :
    seg.copies gate pageSize = (seg.base, seg.data.take (seg.lead pageSize)) :: seg.chunks pageSize := by
  simp only [Segment.copies, if_pos (And.intro hl hg)]
  rfl

/-- Without a lead-in that is copied there are only the chunks (R65, R69). -/
theorem Segment.copies_of_no_lead {seg : Segment} {gate : Nat → Bool} {pageSize : Nat}
    (h : ¬ (seg.lead pageSize ≠ 0 ∧ gate seg.flags = true)) : seg.copies gate pageSize = seg.chunks pageSize := by
  simp only [Segment.copies, if_neg h]
  rfl

/-- The lead-in is inside the segment (R65). -/
theorem Segment.lead_le (seg : Segment) (pageSize : Nat) : seg.lead pageSize ≤ seg.size := Nat.min_le_right _ _

/-- The number of the first byte that is copied: the lead-in is left out where the gate does not let it (R65). -/
def Segment.start (seg : Segment) (gate : Nat → Bool) (pageSize : Nat) : Nat :=
  if gate seg.flags = true then 0 else seg.lead pageSize

/-- The bytes that are copied: those past the lead-in, and all where the gate lets it (R65, R67). -/
theorem Segment.start_le_iff (seg : Segment) (gate : Nat → Bool) (pageSize k : Nat) :
    seg.start gate pageSize ≤ k ↔ seg.lead pageSize ≤ k ∨ gate seg.flags = true := by
  unfold Segment.start
  split <;> simp [*]

/-- The chunks of a segment place every byte past the lead-in (R67, R69). -/
theorem State.copyAll_chunks_places {s : State} {seg : Segment} {pageSize : Nat} (hp : 1 ≤ pageSize)
    (hcap : s.cfg.capacity ≤ 2 ^ 64) (hm : s.mem.wf = true) (hlen : seg.data.length ≤ 2 ^ 64)
    (h : (s.copyAll (seg.chunks pageSize)).fault = none) :
    s.Places (s.copyAll (seg.chunks pageSize)) (seg.base + BitVec.ofNat 64 (seg.lead pageSize))
      (seg.data.drop (seg.lead pageSize)) :=
  State.copyAll_pageChunks_places hp hcap hm (by rw [List.length_drop]; omega)
    (by rw [List.length_drop]; omega) h

/-- An installation without a fault places the bytes from the first one that is copied (R69). -/
theorem State.install_places {gate : Nat → Bool} {s : State} {seg : Segment} (hc : s.cfg.Valid)
    (hm : s.mem.wf = true) (hf : s.fault = none) (hdata : seg.data.length = seg.size) (hsize : seg.size ≤ 2 ^ 64)
    (h : (s.install gate seg).fault = none) :
    s.Places (s.install gate seg)
      (seg.base + BitVec.ofNat 64 (seg.start gate s.cfg.pageSize))
      (seg.data.drop (seg.start gate s.cfg.pageSize)) := by
  obtain ⟨-, hcap, hp⟩ := hc
  rw [State.install_eq_copyAll] at h ⊢
  unfold Segment.start
  by_cases hg : gate seg.flags = true
  · rw [if_pos hg, BitVec.add_zero, List.drop_zero]
    by_cases hl : seg.lead s.cfg.pageSize = 0
    · rw [Segment.copies_of_no_lead (by simp [hl])] at h ⊢
      simpa [hl] using State.copyAll_chunks_places hp hcap hm (hdata ▸ hsize) h
    · rw [Segment.copies_of_lead hl hg, State.copyAll_cons] at h ⊢
      have hlead := State.copyBytes_places hcap hm hf (State.fault_of_copyAll h)
      have hrest := State.copyAll_chunks_places hp (by rwa [hlead.cfg_eq]) hlead.canonical (hdata ▸ hsize) h
      exact hlead.take_drop (hdata ▸ seg.lead_le _) (hdata ▸ hsize) hrest
  · rw [if_neg hg]
    rw [Segment.copies_of_no_lead (fun hlg => hg hlg.2)] at h ⊢
    exact State.copyAll_chunks_places hp hcap hm (hdata ▸ hsize) h

/-- The number of chunks after the lead-in (R67). -/
theorem Segment.chunks_length {seg : Segment} {pageSize : Nat} (hp : 1 ≤ pageSize)
    (hdata : seg.data.length = seg.size) :
    (seg.chunks pageSize).length = (seg.size - seg.lead pageSize + pageSize - 1) / pageSize := by
  rw [Segment.chunks, pageChunks_length hp _ (by rw [List.length_drop]; omega), List.length_drop, hdata]

/-- A page-aligned base has no lead-in (R64, R65). -/
theorem Segment.lead_of_aligned {seg : Segment} {pageSize : Nat} (h : seg.base.toNat % pageSize = 0) :
    seg.lead pageSize = 0 := by
  simp [Segment.lead, Segment.pad, h]

/-! ### The obligations -/

/-- Settles O56: the copies lie end to end, so they place the bytes from the first one copied. -/
theorem installPlacesBytes : Obligations.InstallPlacesBytes := by
  intro gate s seg hc hm hf hdata hsize h
  have hplaces := State.install_places hc hm hf hdata hsize h
  obtain ⟨hplaced, houtside⟩ := hplaces.of_drop
  simp only [Segment.start_le_iff, hdata] at hplaced houtside
  exact ⟨hplaced, houtside, hplaces.frame⟩

/-- Settles O57: the chunks are counted page by page, and an aligned base has no lead-in before them. -/
theorem chunkCountLaw : Obligations.ChunkCountLaw := by
  intro gate seg pageSize hp hdata
  refine ⟨fun hbase hsize => ?_, ?_⟩
  · have hl := Segment.lead_of_aligned hbase
    rw [Segment.copies_of_no_lead (by simp [hl])]
    refine ⟨?_, fun c hc => length_of_mem_pageChunks ?_ hc⟩
    · obtain ⟨q, hq⟩ := Nat.dvd_of_mod_eq_zero hsize
      rw [Segment.chunks_length hp hdata, hl, hq, Nat.sub_zero, Nat.add_sub_assoc hp, Nat.mul_add_div hp,
        Nat.div_eq_of_lt (Nat.sub_lt hp one_pos), Nat.mul_div_cancel_left q hp, Nat.add_zero]
    · rw [hl, List.drop_zero, hdata, hsize]
  · split
    next hlg =>
      rw [Segment.copies_of_lead hlg.1 hlg.2, List.length_cons, Segment.chunks_length hp hdata, Nat.add_comm]
    next hlg => rw [Segment.copies_of_no_lead hlg, Segment.chunks_length hp hdata, Nat.zero_add]

/-- Settles O58: the bounds check comes before the copy, and the fault it records stops every later one. -/
theorem copyOutsideImageFaults : Obligations.CopyOutsideImageFaults := by
  intro s va bytes hf h
  rw [State.copyBytes_of_not_fits hf h]
  exact ⟨rfl, State.copyBytes_of_fault rfl⟩

end Sys2Proof.Machine
end


section
/-!
PROOFS. The decoder and the encoder (spec 30_encoding R90 to R105): the two round trips, the three classes of words,
the encodings outside the profile, and the immediates as signed numbers.
-/

namespace Sys2Proof

/-! ### decode by the row of the word (R91 to R93) -/

/-- The empty word is in no row of the decoder (R93). -/
theorem decodeRow_zero : decodeRow 0#32 = none := rfl

/-- A word in a row decodes to that row's instruction. -/
theorem decode_of_row {w : InstrWord} {i : Instr} (h : decodeRow w = some i) : decode w = i := by
  have hw : w ≠ 0#32 := by rintro rfl; cases h
  rw [Machine.decode_eq_decoder hw, decoder, h]

/-- A non-empty word in no row decodes to ILLEGAL (R92). -/
theorem decode_of_no_row {w : InstrWord} (hw : w ≠ 0#32) (h : decodeRow w = none) : decode w = .illegal w := by
  rw [Machine.decode_eq_decoder hw, decoder, h]

/-- The three things a word can be (R93). -/
theorem decode_cases (w : InstrWord) :
    (w = 0#32 ∧ decode w = .emptyFetch) ∨ (∃ i, decodeRow w = some i ∧ decode w = i) ∨
      (w ≠ 0#32 ∧ decodeRow w = none ∧ decode w = .illegal w) := by
  by_cases hw : w = 0#32
  · subst hw
    exact .inl ⟨rfl, rfl⟩
  · cases h : decodeRow w with
    | some i => exact .inr (.inl ⟨i, rfl, decode_of_row h⟩)
    | none => exact .inr (.inr ⟨hw, rfl, decode_of_no_row hw h⟩)

/-! ### A word from its fields (R95): each format's word of the fields of `w` is `w` -/

theorem encI_of_fields {w : InstrWord} {f3 : BitVec 3} {op : BitVec 7} (ho : opcodeOf w = op)
    (h3 : funct3Of w = f3) : encI (imm12IOf w) (rs1Of w) f3 (rdOf w) op = w := by
  subst ho h3
  unfold encI imm12IOf rs1Of funct3Of rdOf opcodeOf
  repeat rw [BitVec.extractLsb'_append_extractLsb'_eq_extractLsb' (by rfl)]
  exact BitVec.extractLsb'_eq_self

/-- The R-format divides the upper twelve bits of the I-format (R95). -/
theorem encR_of_fields {w : InstrWord} {f7 : BitVec 7} {f3 : BitVec 3} {op : BitVec 7} (ho : opcodeOf w = op)
    (h3 : funct3Of w = f3) (h7 : funct7Of w = f7) : encR f7 (rs2Of w) (rs1Of w) f3 (rdOf w) op = w := by
  have hi : f7 ++ rs2Of w = imm12IOf w := h7 ▸ BitVec.extractLsb'_append_extractLsb'_eq_extractLsb' (by rfl)
  exact (congrArg (encI · _ _ _ _) hi).trans (encI_of_fields ho h3)

/-- The I-shift64 format divides the upper twelve bits of the I-format (R95). -/
theorem encShift6_of_fields {w : InstrWord} {f6 : BitVec 6} {f3 : BitVec 3} {op : BitVec 7} (ho : opcodeOf w = op)
    (h3 : funct3Of w = f3) (h6 : funct6Of w = f6) : encShift6 f6 (shamt6Of w) (rs1Of w) f3 (rdOf w) op = w := by
  have hi : f6 ++ shamt6Of w = imm12IOf w := h6 ▸ BitVec.extractLsb'_append_extractLsb'_eq_extractLsb' (by rfl)
  exact (congrArg (encI · _ _ _ _) hi).trans (encI_of_fields ho h3)

/-- The I-fence format divides the upper twelve bits of the I-format (R95). -/
theorem encFence_of_fields {w : InstrWord} {f3 : BitVec 3} {op : BitVec 7} (ho : opcodeOf w = op)
    (h3 : funct3Of w = f3) : encFence (fmOf w) (predOf w) (succOf w) (rs1Of w) f3 (rdOf w) op = w := by
  have hi : fmOf w ++ predOf w ++ succOf w = imm12IOf w := by
    unfold fmOf predOf succOf imm12IOf
    repeat rw [BitVec.extractLsb'_append_extractLsb'_eq_extractLsb' (by rfl)]
  exact (congrArg (encI · _ _ _ _) hi).trans (encI_of_fields ho h3)

theorem encS_of_fields {w : InstrWord} {f3 : BitVec 3} {op : BitVec 7} (ho : opcodeOf w = op)
    (h3 : funct3Of w = f3) : encS (imm12SOf w) (rs2Of w) (rs1Of w) f3 op = w := by
  have hi7 : (imm12SOf w).extractLsb' 5 7 = funct7Of w := BitVec.extractLsb'_append_eq_left
  have hi5 : (imm12SOf w).extractLsb' 0 5 = rdOf w := by
    unfold imm12SOf
    rw [BitVec.extractLsb'_append_eq_of_add_le (by decide), BitVec.extractLsb'_eq_self, rdOf]
  rw [encS_eq_encR, hi7, hi5]
  exact encR_of_fields ho h3 rfl

/-- The branch word of an offset given in the pieces of R98. -/
theorem encB_of_pieces (b12 b11 : BitVec 1) (b10 : BitVec 6) (b4 : BitVec 4) (rs2 rs1 : BitVec 5) (f3 : BitVec 3)
    (op : BitVec 7) :
    encB (b12 ++ b11 ++ b10 ++ b4 ++ 0#1) rs2 rs1 f3 op = b12 ++ b10 ++ rs2 ++ rs1 ++ f3 ++ b4 ++ b11 ++ op := by
  obtain ⟨e12, e11, e10, e4⟩ :
      (b12 ++ b11 ++ b10 ++ b4 ++ 0#1 : BitVec 13).extractLsb' 12 1 = b12 ∧
      (b12 ++ b11 ++ b10 ++ b4 ++ 0#1 : BitVec 13).extractLsb' 11 1 = b11 ∧
      (b12 ++ b11 ++ b10 ++ b4 ++ 0#1 : BitVec 13).extractLsb' 5 6 = b10 ∧
      (b12 ++ b11 ++ b10 ++ b4 ++ 0#1 : BitVec 13).extractLsb' 1 4 = b4 := by
    refine ⟨?_, ?_, ?_, ?_⟩ <;> apply BitVec.eq_of_toNat_eq <;> simp only [toNat_extract_eq, toNat_append_eq] <;>
      omega
  rw [encB, e12, e11, e10, e4]

theorem encB_of_fields {w : InstrWord} {f3 : BitVec 3} {op : BitVec 7} (ho : opcodeOf w = op)
    (h3 : funct3Of w = f3) : encB (offset13Of w) (rs2Of w) (rs1Of w) f3 op = w := by
  subst ho h3
  rw [offset13Of, encB_of_pieces]
  unfold rs2Of rs1Of funct3Of opcodeOf
  repeat rw [BitVec.extractLsb'_append_extractLsb'_eq_extractLsb' (by rfl)]
  exact BitVec.extractLsb'_eq_self

theorem encU_of_fields {w : InstrWord} {op : BitVec 7} (ho : opcodeOf w = op) :
    encU (imm20Of w) (rdOf w) op = w := by
  subst ho
  unfold encU imm20Of rdOf opcodeOf
  repeat rw [BitVec.extractLsb'_append_extractLsb'_eq_extractLsb' (by rfl)]
  exact BitVec.extractLsb'_eq_self

/-- The jump word of an offset given in the pieces of R100. -/
theorem encJ_of_pieces (b20 : BitVec 1) (b19 : BitVec 8) (b11 : BitVec 1) (b10 : BitVec 10) (rd : BitVec 5)
    (op : BitVec 7) :
    encJ (b20 ++ b19 ++ b11 ++ b10 ++ 0#1) rd op = b20 ++ b10 ++ b11 ++ b19 ++ rd ++ op := by
  obtain ⟨e20, e19, e11, e10⟩ :
      (b20 ++ b19 ++ b11 ++ b10 ++ 0#1 : BitVec 21).extractLsb' 20 1 = b20 ∧
      (b20 ++ b19 ++ b11 ++ b10 ++ 0#1 : BitVec 21).extractLsb' 12 8 = b19 ∧
      (b20 ++ b19 ++ b11 ++ b10 ++ 0#1 : BitVec 21).extractLsb' 11 1 = b11 ∧
      (b20 ++ b19 ++ b11 ++ b10 ++ 0#1 : BitVec 21).extractLsb' 1 10 = b10 := by
    refine ⟨?_, ?_, ?_, ?_⟩ <;> apply BitVec.eq_of_toNat_eq <;> simp only [toNat_extract_eq, toNat_append_eq] <;>
      omega
  rw [encJ, e20, e19, e11, e10]

theorem encJ_of_fields {w : InstrWord} {op : BitVec 7} (ho : opcodeOf w = op) :
    encJ (offset21Of w) (rdOf w) op = w := by
  subst ho
  rw [offset21Of, encJ_of_pieces]
  unfold rdOf opcodeOf
  repeat rw [BitVec.extractLsb'_append_extractLsb'_eq_extractLsb' (by rfl)]
  exact BitVec.extractLsb'_eq_self

/-- A branch offset read from a word is even (R98). -/
theorem offset13Of_even (w : InstrWord) : (offset13Of w).extractLsb' 0 1 = 0#1 := by
  unfold offset13Of
  rw [BitVec.extractLsb'_append_eq_of_add_le (by decide), BitVec.extractLsb'_eq_self]

/-- A jump offset read from a word is even (R100). -/
theorem offset21Of_even (w : InstrWord) : (offset21Of w).extractLsb' 0 1 = 0#1 := by
  unfold offset21Of
  rw [BitVec.extractLsb'_append_eq_of_add_le (by decide), BitVec.extractLsb'_eq_self]

/-! ### What a row decodes to has the word it was decoded from -/

/-- A well-formed instruction whose word is `w`. -/
def Instr.HasWord (i : Instr) (w : InstrWord) : Prop := i.wf = true ∧ encode i = w

theorem decodeLoad_hasWord {w : InstrWord} {i : Instr} (ho : opcodeOf w = 0b0000011#7)
    (h : decodeLoad w = some i) : i.HasWord w := by
  unfold decodeLoad at h
  split at h <;> cases h <;> exact ⟨rfl, encI_of_fields ho ‹_›⟩

theorem decodeMiscMem_hasWord {w : InstrWord} {i : Instr} (ho : opcodeOf w = 0b0001111#7)
    (h : decodeMiscMem w = some i) : i.HasWord w := by
  unfold decodeMiscMem at h
  split at h <;> cases h
  exact ⟨rfl, encFence_of_fields ho ‹_›⟩

theorem decodeOpImm_hasWord {w : InstrWord} {i : Instr} (ho : opcodeOf w = 0b0010011#7)
    (h : decodeOpImm w = some i) : i.HasWord w := by
  unfold decodeOpImm at h
  split at h
  case h_7 | h_8 => split at h <;> cases h <;> exact ⟨rfl, encShift6_of_fields ho ‹_› ‹_›⟩
  all_goals cases h <;> exact ⟨rfl, encI_of_fields ho ‹_›⟩

theorem decodeOpImm32_hasWord {w : InstrWord} {i : Instr} (ho : opcodeOf w = 0b0011011#7)
    (h : decodeOpImm32 w = some i) : i.HasWord w := by
  unfold decodeOpImm32 at h
  split at h
  case h_2 | h_3 => split at h <;> cases h <;> exact ⟨rfl, encR_of_fields ho ‹_› ‹_›⟩
  all_goals cases h <;> exact ⟨rfl, encI_of_fields ho ‹_›⟩

theorem decodeStore_hasWord {w : InstrWord} {i : Instr} (ho : opcodeOf w = 0b0100011#7)
    (h : decodeStore w = some i) : i.HasWord w := by
  unfold decodeStore at h
  split at h <;> cases h <;> exact ⟨rfl, encS_of_fields ho ‹_›⟩

theorem decodeOp_hasWord {w : InstrWord} {i : Instr} (ho : opcodeOf w = 0b0110011#7)
    (h : decodeOp w = some i) : i.HasWord w := by
  unfold decodeOp at h
  repeat' split at h
  all_goals cases h <;> exact ⟨rfl, encR_of_fields ho ‹_› ‹_›⟩

theorem decodeOp32_hasWord {w : InstrWord} {i : Instr} (ho : opcodeOf w = 0b0111011#7)
    (h : decodeOp32 w = some i) : i.HasWord w := by
  unfold decodeOp32 at h
  repeat' split at h
  all_goals cases h <;> exact ⟨rfl, encR_of_fields ho ‹_› ‹_›⟩

theorem decodeBranch_hasWord {w : InstrWord} {i : Instr} (ho : opcodeOf w = 0b1100011#7)
    (h : decodeBranch w = some i) : i.HasWord w := by
  unfold decodeBranch at h
  split at h <;> cases h <;> exact ⟨beq_iff_eq.2 (offset13Of_even w), encB_of_fields ho ‹_›⟩

theorem decodeJalr_hasWord {w : InstrWord} {i : Instr} (ho : opcodeOf w = 0b1100111#7)
    (h : decodeJalr w = some i) : i.HasWord w := by
  unfold decodeJalr at h
  split at h <;> cases h
  exact ⟨rfl, encI_of_fields ho ‹_›⟩

theorem decodeSystem_hasWord {w : InstrWord} {i : Instr} (h : decodeSystem w = some i) : i.HasWord w := by
  unfold decodeSystem at h
  split at h <;> cases h <;> exact ⟨rfl, rfl⟩

/-- The decoder drops no bit of a word in a row (R93, R95). -/
theorem decodeRow_hasWord {w : InstrWord} {i : Instr} (h : decodeRow w = some i) : i.HasWord w := by
  unfold decodeRow at h
  split at h
  · exact decodeLoad_hasWord ‹_› h
  · exact decodeMiscMem_hasWord ‹_› h
  · exact decodeOpImm_hasWord ‹_› h
  · cases h; exact ⟨rfl, encU_of_fields ‹_›⟩
  · exact decodeOpImm32_hasWord ‹_› h
  · exact decodeStore_hasWord ‹_› h
  · exact decodeOp_hasWord ‹_› h
  · cases h; exact ⟨rfl, encU_of_fields ‹_›⟩
  · exact decodeOp32_hasWord ‹_› h
  · exact decodeBranch_hasWord ‹_› h
  · exact decodeJalr_hasWord ‹_› h
  · cases h; exact ⟨beq_iff_eq.2 (offset21Of_even w), encJ_of_fields ‹_›⟩
  · exact decodeSystem_hasWord h
  · cases h

/-- Every word is the word of what it decodes to, the empty one and those of ILLEGAL among them (R92). -/
theorem decode_hasWord (w : InstrWord) : (decode w).HasWord w := by
  rcases decode_cases w with ⟨rfl, h⟩ | ⟨i, hr, h⟩ | ⟨hw, hr, h⟩
  · exact ⟨rfl, rfl⟩
  · exact h ▸ decodeRow_hasWord hr
  · rw [h]
    exact ⟨by simp [Instr.wf, hw, hr], rfl⟩

/-! ### Every well-formed instruction is read back from its word -/

/-- Each format's fields are read back from its word (R94 to R101), and the opcode and function fields among them
select the instruction's own row (R102, R103). -/
theorem decode_encode {i : Instr} (hi : i.wf = true) : decode (encode i) = i := by
  cases i with
  | emptyFetch => rfl
  | ecall | ebreak => rfl
  | illegal w =>
    simp only [Instr.wf, Bool.and_eq_true, bne_iff_ne, Option.isNone_iff_eq_none] at hi
    obtain ⟨hw, hr⟩ := hi
    exact decode_of_no_row hw hr
  | lui | auipc => exact decode_of_row (by simp [encode, decodeRow])
  | addi | slti | sltiu | xori | ori | andi =>
    exact decode_of_row (by simp [encode, decodeRow, decodeOpImm, iForm])
  | slli | srli | srai => exact decode_of_row (by simp [encode, decodeRow, decodeOpImm, shift6Form])
  | add | sub | sll | slt | sltu | xor | srl | sra | or | and =>
    exact decode_of_row (by simp [encode, decodeRow, decodeOp, rForm])
  | addiw => exact decode_of_row (by simp [encode, decodeRow, decodeOpImm32, iForm])
  | slliw | srliw | sraiw => exact decode_of_row (by simp [encode, decodeRow, decodeOpImm32, shift5Form])
  | addw | subw | sllw | srlw | sraw => exact decode_of_row (by simp [encode, decodeRow, decodeOp32, rForm])
  | jal =>
    exact decode_of_row (by simp [encode, decodeRow, encJ_offset21 _ _ _ (beq_iff_eq.1 hi)])
  | jalr => exact decode_of_row (by simp [encode, decodeRow, decodeJalr, iForm])
  | beq | bne | blt | bge | bltu | bgeu =>
    exact decode_of_row (by
      simp [encode, decodeRow, decodeBranch, bForm, encB_offset13 _ _ _ _ _ (beq_iff_eq.1 hi)])
  | lb | lh | lw | ld | lbu | lhu | lwu =>
    exact decode_of_row (by simp [encode, decodeRow, decodeLoad, iForm])
  | sb | sh | sw | sd => exact decode_of_row (by simp [encode, decodeRow, decodeStore, sForm])
  | fence => exact decode_of_row (by simp [encode, decodeRow, decodeMiscMem])

/-! ### The word of a row (R93) -/

/-- A field under ones in a row's mask is the field of the row's match value. -/
theorem extract_of_and_eq {w mask pat : InstrWord} (h : w &&& mask = pat) {s n : Nat}
    (hm : mask.extractLsb' s n = BitVec.allOnes n) : w.extractLsb' s n = pat.extractLsb' s n := by
  rw [← h, BitVec.extractLsb'_and, hm, BitVec.and_allOnes]

/-- A word in the row of a mnemonic other than the empty fetch is in the decoder's row of that mnemonic: the fields
the decoder looks at are all under the mask (R102, R103). -/
theorem decodeRow_mnemonic_of_matches {m : Mnemonic} {w : InstrWord} (hm : m ≠ .emptyFetch)
    (h : m.matchesWord w = true) : (decodeRow w).map Instr.mnemonic = some m := by
  cases m
  case emptyFetch => exact absurd rfl hm
  case illegal | other => cases h
  case ecall | ebreak =>
    obtain rfl := (BitVec.and_allOnes (x := w)).symm.trans (beq_iff_eq.1 h)
    rfl
  case lui | auipc | jal =>
    have ho : opcodeOf w = _ := extract_of_and_eq (beq_iff_eq.1 h) (by decide)
    simp only [decodeRow, ho]
    rfl
  case slli | srli | srai =>
    have ho : opcodeOf w = _ := extract_of_and_eq (beq_iff_eq.1 h) (by decide)
    have h3 : funct3Of w = _ := extract_of_and_eq (beq_iff_eq.1 h) (by decide)
    have h6 : funct6Of w = _ := extract_of_and_eq (beq_iff_eq.1 h) (by decide)
    simp only [decodeRow, decodeOpImm, ho, h3, h6]
    rfl
  case add | sub | sll | slt | sltu | xor | srl | sra | or | and | slliw | srliw | sraiw | addw | subw | sllw | srlw |
      sraw =>
    have ho : opcodeOf w = _ := extract_of_and_eq (beq_iff_eq.1 h) (by decide)
    have h3 : funct3Of w = _ := extract_of_and_eq (beq_iff_eq.1 h) (by decide)
    have h7 : funct7Of w = _ := extract_of_and_eq (beq_iff_eq.1 h) (by decide)
    simp only [decodeRow, decodeOp, decodeOp32, decodeOpImm32, ho, h3, h7]
    rfl
  all_goals
    have ho : opcodeOf w = _ := extract_of_and_eq (beq_iff_eq.1 h) (by decide)
    have h3 : funct3Of w = _ := extract_of_and_eq (beq_iff_eq.1 h) (by decide)
    simp only [decodeRow, decodeLoad, decodeMiscMem, decodeOpImm, decodeOpImm32, decodeStore, decodeBranch,
      decodeJalr, ho, h3]
    rfl

/-- A word in the row of a mnemonic decodes to that mnemonic, so it is in no other row (R93). -/
theorem decode_mnemonic_of_matches {m : Mnemonic} {w : InstrWord} (h : m.matchesWord w = true) :
    (decode w).mnemonic = m := by
  by_cases hm : m = .emptyFetch
  · subst hm
    obtain rfl := (BitVec.and_allOnes (x := w)).symm.trans (beq_iff_eq.1 h)
    rfl
  · obtain ⟨i, hi, rfl⟩ := Option.map_eq_some_iff.1 (decodeRow_mnemonic_of_matches hm h)
    rw [decode_of_row hi]

namespace Laws.EncodeInRow

/-- The family as one statement. -/
theorem statement : ∀ i : Instr, Statement i
  | .emptyFetch => emptyFetch
  | .lui .. => lui _ _
  | .auipc .. => auipc _ _
  | .addi .. => addi _ _ _
  | .slti .. => slti _ _ _
  | .sltiu .. => sltiu _ _ _
  | .xori .. => xori _ _ _
  | .ori .. => ori _ _ _
  | .andi .. => andi _ _ _
  | .slli .. => slli _ _ _
  | .srli .. => srli _ _ _
  | .srai .. => srai _ _ _
  | .add .. => add _ _ _
  | .sub .. => sub _ _ _
  | .sll .. => sll _ _ _
  | .slt .. => slt _ _ _
  | .sltu .. => sltu _ _ _
  | .xor .. => xor _ _ _
  | .srl .. => srl _ _ _
  | .sra .. => sra _ _ _
  | .or .. => or _ _ _
  | .and .. => and _ _ _
  | .addiw .. => addiw _ _ _
  | .slliw .. => slliw _ _ _
  | .srliw .. => srliw _ _ _
  | .sraiw .. => sraiw _ _ _
  | .addw .. => addw _ _ _
  | .subw .. => subw _ _ _
  | .sllw .. => sllw _ _ _
  | .srlw .. => srlw _ _ _
  | .sraw .. => sraw _ _ _
  | .jal .. => jal _ _
  | .jalr .. => jalr _ _ _
  | .beq .. => beq _ _ _
  | .bne .. => bne _ _ _
  | .blt .. => blt _ _ _
  | .bge .. => bge _ _ _
  | .bltu .. => bltu _ _ _
  | .bgeu .. => bgeu _ _ _
  | .lb .. => lb _ _ _
  | .lh .. => lh _ _ _
  | .lw .. => lw _ _ _
  | .ld .. => ld _ _ _
  | .lbu .. => lbu _ _ _
  | .lhu .. => lhu _ _ _
  | .lwu .. => lwu _ _ _
  | .sb .. => sb _ _ _
  | .sh .. => sh _ _ _
  | .sw .. => sw _ _ _
  | .sd .. => sd _ _ _
  | .fence .. => fence _ _ _ _ _
  | .ecall => ecall
  | .ebreak => ebreak
  | .illegal .. => illegal _

end Laws.EncodeInRow

/-- Every mnemonic of an instruction but ILLEGAL has a row (R93). -/
theorem Instr.row_ne_none {i : Instr} (h : i.mnemonic ≠ .illegal) : i.mnemonic.row ≠ none := by
  cases i
  case illegal => exact absurd rfl h
  all_goals exact Option.some_ne_none _

/-- A word that does not decode to ILLEGAL is in the row of what it decodes to (R93). -/
theorem matchesWord_decode {w : InstrWord} (h : (decode w).mnemonic ≠ .illegal) :
    (decode w).mnemonic.matchesWord w = true := by
  obtain ⟨hwf, hw⟩ := decode_hasWord w
  obtain ⟨hrow, -⟩ := Laws.EncodeInRow.statement (decode w) hwf
  rw [hw] at hrow
  unfold Mnemonic.matchesWord
  split
  · exact beq_iff_eq.2 (hrow _ _ ‹_›)
  · exact absurd ‹_› (Instr.row_ne_none h)

/-- A word that decodes to ILLEGAL decodes to the ILLEGAL of itself (R93). -/
theorem decode_eq_illegal_of_mnemonic {w : InstrWord} (h : (decode w).mnemonic = .illegal) :
    decode w = .illegal w := by
  rcases decode_cases w with ⟨rfl, -⟩ | ⟨i, hr, hd⟩ | ⟨-, -, hd⟩
  · cases h
  · rw [hd] at h
    cases i <;> cases h
    exact absurd hr (decodeRow_ne_illegal w _)
  · exact hd

/-- A word in no row is not the empty one, and decodes to ILLEGAL (R93). -/
theorem decode_eq_illegal_of_no_match {w : InstrWord} (h : ∀ m : Mnemonic, m.matchesWord w = false) :
    w ≠ 0#32 ∧ decode w = .illegal w := by
  refine ⟨?_, decode_eq_illegal_of_mnemonic ?_⟩
  · rintro rfl
    cases h .emptyFetch
  · by_contra hm
    cases (matchesWord_decode hm).symm.trans (h _)

/-! ### Encodings outside the profile (R104) -/

/-- The map of major opcodes (R102). -/
def majorOpcodes : List (BitVec 7) :=
  [0b0000011#7, 0b0001111#7, 0b0010011#7, 0b0010111#7, 0b0011011#7, 0b0100011#7, 0b0110011#7, 0b0110111#7,
    0b0111011#7, 0b1100011#7, 0b1100111#7, 0b1101111#7, 0b1110011#7]

/-- A word whose major opcode is outside the map is in no row (R102). -/
theorem decodeRow_of_not_major {w : InstrWord} (h : opcodeOf w ∉ majorOpcodes) : decodeRow w = none := by
  unfold decodeRow
  split
  case h_14 => rfl
  all_goals exact absurd (by simp [majorOpcodes, *]) h

/-- The two low bits of every major opcode of the map are 11, so a word with other low bits is in no row (R104). -/
theorem not_major_of_low_bits {w : InstrWord} (h : w.extractLsb' 0 2 ≠ 0b11#2) : opcodeOf w ∉ majorOpcodes := by
  have hlow : w.extractLsb' 0 2 = (opcodeOf w).extractLsb' 0 2 := by
    apply BitVec.eq_of_toNat_eq; simp only [opcodeOf, toNat_extract_eq]; omega
  have hmap : ∀ op ∈ majorOpcodes, op.extractLsb' 0 2 = 0b11#2 := by decide
  exact fun hm => h (hlow.trans (hmap _ hm))

/-- An M encoding is in no row (R104). -/
theorem decodeRow_of_mul {w : InstrWord} (ho : opcodeOf w = 0b0110011#7 ∨ opcodeOf w = 0b0111011#7)
    (h7 : funct7Of w = 0b0000001#7) : decodeRow w = none := by
  rcases ho with ho | ho
  · simp [decodeRow, ho, decodeOp, h7]
  · simp [decodeRow, ho, decodeOp32, h7]

/-- MISC-MEM has FENCE alone (R103). -/
theorem decodeRow_of_miscMem {w : InstrWord} (ho : opcodeOf w = 0b0001111#7) (h3 : funct3Of w ≠ 0b000#3) :
    decodeRow w = none := by
  simp [decodeRow, ho, decodeMiscMem]

/-- SYSTEM has two words (R103). -/
theorem decodeRow_of_system {w : InstrWord} (ho : opcodeOf w = 0b1110011#7) (hc : w ≠ 0x00000073#32)
    (hb : w ≠ 0x00100073#32) : decodeRow w = none := by
  simp [decodeRow, ho, decodeSystem]

end Sys2Proof

namespace Sys2Proof.Machine

/-- `raise` records the fault and changes nothing else (R312). -/
theorem State.raise_faultWrite (s : State) (f : Fault) : s.FaultWrite (s.raise f) f :=
  ⟨fun _ => rfl, rfl, rfl, rfl, rfl, rfl, rfl, rfl, rfl, rfl, rfl⟩

/-! ### The immediates (R96 to R100) -/

/-- A one-bit number is its bit, negatively. -/
theorem toInt_bit (b : BitVec 1) : b.toInt = -b.toNat := by
  revert b; decide

/-- The number of a concatenation whose left part, which is not empty, has the sign. -/
theorem toInt_append_of_ne_zero {m n : Nat} (hm : m ≠ 0) (x : BitVec m) (y : BitVec n) :
    (x ++ y).toInt = 2 ^ n * x.toInt + y.toNat := by
  rw [BitVec.toInt_append, if_neg (by simpa using hm)]

/-- Under a sign bit a field counts as it is, and the bit counts for one more than the field can hold, negatively. -/
theorem toInt_bit_append {n : Nat} (b : BitVec 1) (x : BitVec n) : (b ++ x).toInt = x.toNat - 2 ^ n * b.toNat := by
  rw [toInt_append_of_ne_zero one_ne_zero, toInt_bit]
  ring

theorem immI_toInt (w : InstrWord) :
    (immI (imm12IOf w)).toInt = (w.extractLsb' 20 11).toNat - 2048 * (w.extractLsb' 31 1).toNat := by
  have hi : imm12IOf w = w.extractLsb' 31 1 ++ w.extractLsb' 20 11 := by
    rw [BitVec.extractLsb'_append_extractLsb'_eq_extractLsb' (by rfl), imm12IOf]
  rw [immI, BitVec.toInt_signExtend_of_le (by decide), hi, toInt_bit_append]
  rfl

theorem immS_toInt (w : InstrWord) :
    (immS (imm12SOf w)).toInt =
      32 * (w.extractLsb' 25 6).toNat + (w.extractLsb' 7 5).toNat - 2048 * (w.extractLsb' 31 1).toNat := by
  have h7 : w.extractLsb' 25 7 = w.extractLsb' 31 1 ++ w.extractLsb' 25 6 := by
    rw [BitVec.extractLsb'_append_extractLsb'_eq_extractLsb' (by rfl)]
  rw [immS, BitVec.toInt_signExtend_of_le (by decide), imm12SOf, toInt_append_of_ne_zero (by decide), h7,
    toInt_bit_append]
  omega

theorem immB_toInt (w : InstrWord) :
    (immB (offset13Of w)).toInt =
      2048 * (w.extractLsb' 7 1).toNat + 32 * (w.extractLsb' 25 6).toNat + 2 * (w.extractLsb' 8 4).toNat -
        4096 * (w.extractLsb' 31 1).toNat := by
  rw [immB, BitVec.toInt_signExtend_of_le (by decide), offset13Of, toInt_append_of_ne_zero (by decide),
    toInt_append_of_ne_zero (by decide), toInt_append_of_ne_zero (by decide), toInt_bit_append, BitVec.toNat_ofNat]
  omega

theorem immU_toInt (w : InstrWord) :
    (immU (imm20Of w)).toInt = 4096 * (w.extractLsb' 12 19).toNat - 2147483648 * (w.extractLsb' 31 1).toNat := by
  have hi : imm20Of w = w.extractLsb' 31 1 ++ w.extractLsb' 12 19 := by
    rw [BitVec.extractLsb'_append_extractLsb'_eq_extractLsb' (by rfl), imm20Of]
  rw [immU, BitVec.toInt_signExtend_of_le (by decide), toInt_append_of_ne_zero (by decide), hi,
    toInt_bit_append, BitVec.toNat_ofNat]
  omega

theorem immJ_toInt (w : InstrWord) :
    (immJ (offset21Of w)).toInt =
      4096 * (w.extractLsb' 12 8).toNat + 2048 * (w.extractLsb' 20 1).toNat + 2 * (w.extractLsb' 21 10).toNat -
        1048576 * (w.extractLsb' 31 1).toNat := by
  rw [immJ, BitVec.toInt_signExtend_of_le (by decide), offset21Of, toInt_append_of_ne_zero (by decide),
    toInt_append_of_ne_zero (by decide), toInt_append_of_ne_zero (by decide), toInt_bit_append, BitVec.toNat_ofNat]
  omega

/-! ### The obligations -/

/-- Settles O1: each format's fields are read back from its word, and they select the row of the instruction. -/
theorem decodeEncodeRoundTrip : Obligations.DecodeEncodeRoundTrip := fun _ => decode_encode

/-- Settles O2: the word of the fields read from a word is the word itself. -/
theorem encodeDecodeRoundTrip : Obligations.EncodeDecodeRoundTrip := decode_hasWord

/-- Settles O3: a row's mask covers every field the decoder looks at, so a word of the row decodes to its mnemonic;
and the word of what any other word decodes to is in the row of that. -/
theorem wordClassesPartition : Obligations.WordClassesPartition := by
  intro w
  refine ⟨?_, fun _ => decode_mnemonic_of_matches, decode_eq_illegal_of_no_match, matchesWord_decode⟩
  rintro rfl
  exact ⟨rfl, rfl⟩

/-- Settles O4: none of these words is in a row of the decoder. -/
theorem outsideProfileIsIllegal : Obligations.OutsideProfileIsIllegal := by
  intro w hw
  refine ⟨fun h => decode_of_no_row hw (decodeRow_of_not_major h),
    fun h => decode_of_no_row hw (decodeRow_of_not_major (not_major_of_low_bits h)),
    fun ho h7 => decode_of_no_row hw (decodeRow_of_mul ho h7),
    fun ho h3 => decode_of_no_row hw (decodeRow_of_miscMem ho h3),
    fun ho hc hb => decode_of_no_row hw (decodeRow_of_system ho hc hb), ?_,
    fun h => (decode_eq_illegal_of_no_match h).2, fun s => ⟨_, rfl, s.raise_faultWrite _⟩⟩
  rintro rfl
  rfl

/-- Settles O5: the sums are the positional values under the sign bit, and the ranges are those of the fields. -/
theorem immediateValues : Obligations.ImmediateValues := by
  intro w
  refine ⟨immI_toInt w, immS_toInt w, immB_toInt w, immU_toInt w, immJ_toInt w, ?_⟩
  rw [immI_toInt, immS_toInt, immB_toInt, immJ_toInt]
  omega

end Sys2Proof.Machine
end

section
/-!
PROOFS. The cycle and the run (spec 40_cycle R130 to R148; 60_exceptions R311 to R316): the bubble, what an effect
can reach, a step as the effect of its word, fetch faults, the count, the snapshot, and the ends of a run.
-/

namespace Sys2Proof.Machine

/-! ### What an effect can reach -/

/-- Only ECALL's effect sets the halt flag (R291). -/
theorem EffectOf.halted_of_ne_ecall {i : Instr} {s t : State} (he : EffectOf i s t) (hi : i ≠ .ecall) :
    t.halted = s.halted := by
  cases he with
  | halted h _ => exact absurd h hi
  | wroteReg | jumped | branched | didNothing | stored | raised => rfl

/-- An effect that is none of those of R311 raises no fault. -/
theorem EffectOf.fault_of_not_mayFault {i : Instr} {s t : State} (he : EffectOf i s t) (hm : mayFault i = false) :
    t.fault = s.fault := by
  cases he with
  | raised _ hm' _ _ => cases hm.symm.trans hm'
  | wroteReg | jumped | branched | didNothing | stored | halted => rfl

/-- The effect of an instruction appends no event (R138). -/
theorem exec_events {i : Instr} {s t : State} (h : exec i s = .next t) : t.events = s.events := by
  obtain ⟨u, hu, -, -, -, hevents, -⟩ := (exec_effectRoutine i).frame s
  cases hu.symm.trans h
  exact hevents

/-! ### Fetch faults -/

/-- A misaligned access of a legal size faults with its address (R52). -/
theorem State.translate_of_misaligned (s : State) {va : Word} {n : Nat} (hn : legalSize n = true)
    (ha : va.toNat % n ≠ 0) : s.translate va n = .error (.misaligned va n) := by
  simp [State.translate, hn, ha]

/-- An aligned access of a legal size that does not lie in the image faults with its address (R53). -/
theorem State.translate_of_outOfBounds {s : State} {va : Word} {n : Nat} (hn : legalSize n = true)
    (ha : va.toNat % n = 0) (hb : s.cfg.capacity < s.offset va + n) :
    s.translate va n = .error (.outOfBounds va n) := by
  simp [State.translate, hn, ha, hb]

/-! ### How a cycle ends, for every decoder -/

/-- From `s` to `t` the count goes up by one where no fault is held at the end and stays where one is (R140, R312),
and no event but one snapshot is appended (R137). -/
structure State.CycleEnd (s t : State) : Prop where
  counted : t.fault = none → t.count = s.count + 1
  notCounted : t.fault ≠ none → t.count = s.count
  events : t.events = s.events ∨ ∃ pc x, t.events = s.events ++ [.snapshot pc x]

/-- Execute answers a next state and ends the cycle, for every decoder (R136 to R140). -/
theorem State.executeStage_cycleEnd (D : Decoder) {s : State} (hf : s.fault = none) :
    ∃ t, s.executeStage D = .next t ∧ s.CycleEnd t := by
  cases hd : s.dl with
  | none => exact ⟨_, State.executeStage_none D hd, fun _ => rfl, fun h => absurd hf h, .inl rfl⟩
  | some d =>
    obtain ⟨u, hu, -, -, hcount, hevents, -⟩ := (D.2 d.word).frame (s.snapshotStage d)
    obtain ⟨-, -, -, -, -, -, hfault, hev, -, hdone, hstop⟩ := u.afterEffect_frame d
    rw [State.snapshotStage_count] at hcount
    refine ⟨u.afterEffect d, ?_, fun h => ?_, fun h => ?_, ?_⟩
    · rw [State.executeStage_some D hd, show D.effect d.word (s.snapshotStage d) = .next u from hu]
    · rw [(hdone (hfault.symm.trans h)).1, hcount]
    · rw [hstop (hfault ▸ h), hcount]
    · rw [hev, hevents]
      exact (s.snapshotStage_events d).imp_right fun h => ⟨_, _, h⟩

/-- Decode touches the decode latch only (R134, R135). -/
theorem State.decodeStage_eq_setDl (D : Decoder) (s : State) : ∃ d, s.decodeStage D = s.setDl d := by
  unfold State.decodeStage
  split
  · exact ⟨s.dl, rfl⟩
  · exact ⟨_, rfl⟩

/-- A state without a fault has a cycle, for every decoder: its fetch faults, or execute ends it (R142, R145). -/
theorem State.cycle_cycleEnd (D : Decoder) {s : State} (hf : s.fault = none) :
    ∃ t, s.cycle D = .next t ∧ s.CycleEnd t := by
  cases ht : s.translate s.pc 4 with
  | error f => exact ⟨_, State.cycle_fetch_error D hf ht, nofun, fun _ => rfl, .inl rfl⟩
  | ok off =>
    obtain ⟨w, hw⟩ : ∃ w, s.Fetches w := ⟨_, State.fetches_of_translate ht⟩
    rw [hw.cycle D hf]
    obtain ⟨d, hd⟩ := (s.fetched w).decodeStage_eq_setDl D
    rw [hd]
    obtain ⟨t, ht, hcounted, hnot, hevents⟩ := State.executeStage_cycleEnd D (s := (s.fetched w).setDl d) hf
    exact ⟨t, ht, hcounted, hnot, hevents⟩

/-! ### The run loop, for every decoder -/

/-- The back-edge test finds the halt flag set (R146). -/
theorem runLoop_of_halted (D : Decoder) (fuel : Nat) {s : State} (hf : s.fault = none) (hh : s.halted = true) :
    runLoop D fuel s = .halted s := by
  unfold runLoop
  simp [hf, hh]

/-- One turn of the loop (R130). -/
theorem runLoop_succ (D : Decoder) (fuel : Nat) {s t : State} (hf : s.fault = none) (hh : s.halted = false)
    (hc : s.cycle D = .next t) : runLoop D (fuel + 1) s = runLoop D fuel t := by
  conv_lhs => unfold runLoop
  simp [hf, hh, hc]

/-- Every event of `t` is one of `s` or a snapshot. -/
def State.OnlySnapshotsAdded (s t : State) : Prop := ∀ e ∈ t.events, e ∈ s.events ∨ ∃ pc x, e = .snapshot pc x

theorem State.CycleEnd.onlySnapshotsAdded {s t : State} (h : s.CycleEnd t) : s.OnlySnapshotsAdded t := by
  intro e he
  rcases h.events with h | ⟨pc, x, h⟩
  · exact .inl (h ▸ he)
  · rw [h, List.mem_append, List.mem_singleton] at he
    exact he.imp_right fun h => ⟨pc, x, h⟩

theorem State.OnlySnapshotsAdded.trans {s t u : State} (h : s.OnlySnapshotsAdded t) (h' : t.OnlySnapshotsAdded u) :
    s.OnlySnapshotsAdded u :=
  fun e he => (h' e he).elim (h e) .inr

/-- What a run of the loop from `s` may end in (R146): it refuses nowhere, and only a state that holds a fault ends
it as faulted. -/
def RunResult.EndOf (s : State) : RunResult → Prop
  | .halted t => t.halted = true ∧ t.fault = none
  | .faulted t => t.fault ≠ none ∧ s.OnlySnapshotsAdded t
  | .outOfFuel _ => True
  | .refused _ => False

theorem RunResult.EndOf.of_onlySnapshotsAdded {s t : State} {r : RunResult} (h : r.EndOf t)
    (hst : s.OnlySnapshotsAdded t) : r.EndOf s := by
  cases r with
  | faulted u => exact ⟨h.1, hst.trans h.2⟩
  | halted | outOfFuel | refused => exact h

/-- The loop ends as R146 says, since each of its cycles answers a next state. -/
theorem runLoop_endOf (D : Decoder) (fuel : Nat) (s : State) : (runLoop D fuel s).EndOf s := by
  fun_induction runLoop D fuel s with
  | case1 fuel s f hf => exact ⟨by simp [hf], fun _ => .inl⟩
  | case2 fuel s hf hh => exact ⟨hh, hf⟩
  | case3 s hf hh => trivial
  | case4 s hf hh fuel t hc ih =>
    obtain ⟨t', hc', hend⟩ := State.cycle_cycleEnd D hf
    cases hc.symm.trans hc'
    exact ih.of_onlySnapshotsAdded hend.onlySnapshotsAdded
  | case5 s hf hh fuel f hc =>
    obtain ⟨t, hc', -⟩ := State.cycle_cycleEnd D hf
    cases hc.symm.trans hc'
  | case6 s hf hh fuel r hc =>
    obtain ⟨t, hc', -⟩ := State.cycle_cycleEnd D hf
    cases hc.symm.trans hc'

/-! ### ECALL -/

/-- The step of an ECALL of the halt class halts without a fault, counts one and moves on by 4 (R291). -/
theorem State.Fetches.step_ecall {s : State} (h : s.Fetches 0x00000073#32) (hf : s.fault = none)
    (hc : Mnemonic.ecall ∈ s.cfg.haltClass) :
    ∃ t, Sys2Proof.Machine.step s = .next t ∧ t.halted = true ∧ t.fault = none ∧ t.count = s.count + 1 ∧
      t.pc = s.pc + 4 := by
  obtain ⟨u, hu, he, hs⟩ := h.step hf (by decide)
  rw [show decode 0x00000073#32 = .ecall from rfl] at hu he hs
  have huf : u.fault = none := (he.fault_of_not_mayFault rfl).trans hf
  refine ⟨_, hs, (exec_afterCycle_halted hu huf).2 (.inr hc), by rw [State.afterCycle_fault, huf],
    (exec_afterCycle_count hu huf :), ?_⟩
  rw [State.afterCycle_pc, he.pc_of_not_control rfl]
  rfl

/-- A run of the loop whose first cycle runs such an ECALL ends at the next back edge (R146, R291). -/
theorem State.Fetches.runLoop_ecall {s : State} (h : s.Fetches 0x00000073#32) (hf : s.fault = none)
    (hh : s.halted = false) (hc : Mnemonic.ecall ∈ s.cfg.haltClass) (fuel : Nat) :
    ∃ t, runLoop Decoder.rv64i (fuel + 1) s = .halted t ∧ t.count = s.count + 1 ∧ t.pc = s.pc + 4 := by
  obtain ⟨t, hs, hhalted, hfault, hcount, hpc⟩ := h.step_ecall hf hc
  exact ⟨t, (runLoop_succ _ fuel hf hh hs).trans (runLoop_of_halted _ fuel hfault hhalted), hcount, hpc⟩

/-! ### The obligations -/

/-- Settles O27: the empty word is not decoded, and execute with an empty latch only counts. -/
theorem emptyWordIsBubble : Obligations.EmptyWordIsBubble :=
  ⟨fun _ => rfl, fun D _ => State.decodeStage_empty D, fun D _ => State.executeStage_none D,
    fun _ hf hl hw => ⟨fun D => hw.cycle_bubble D hf hl, hw.cycle_bubble _ hf hl⟩⟩

/-- Settles O29: of the ways an effect ends only a control transfer's write the pc. -/
theorem pcFrame : Obligations.PcFrame := fun _ _ _ h hc => (exec_cases h).pc_of_not_control hc

/-- Settles O31: every effect is a routine of R138, and of the ways it ends only ECALL's sets the halt flag and only
those of R311 raise. -/
theorem effectChannel : Obligations.EffectChannel := by
  intro i s t h
  obtain ⟨u, hu, hfl, hdl, hcount, hevents, hcfg, htrace, -⟩ := (exec_effectRoutine i).frame s
  cases hu.symm.trans h
  exact ⟨hfl, hdl, hcount, hevents, hcfg, htrace, (exec_cases h).halted_of_ne_ecall,
    (exec_cases h).fault_of_not_mayFault⟩

/-- Settles O38: the inversion of a step that fetches a non-empty word, as an equation. -/
theorem stepRunsDecodedInstruction : Obligations.StepRunsDecodedInstruction := by
  rintro s w i hf hw h0 rfl
  obtain ⟨u, hu, -, hs⟩ := hw.step hf h0
  rw [hs, hu]

/-- Settles O39: a fault held stops the step, and without one the cycle ends in a next state. -/
theorem stepAnswersUnlessFaulted : Obligations.StepAnswersUnlessFaulted := by
  refine fun s => ⟨fun f hf => step_faulted hf, fun hf => ?_⟩
  obtain ⟨t, ht, -⟩ := State.cycle_cycleEnd Decoder.rv64i hf
  exact ⟨t, ht⟩

/-- Settles O40: the fetch is a read of four bytes at the pc, and its fault is raised after zero-force. -/
theorem fetchFaultState : Obligations.FetchFaultState :=
  fun s hf => ⟨fun ha => step_fetch_error hf (s.translate_of_misaligned rfl ha),
    fun ha hb => step_fetch_error hf (State.translate_of_outOfBounds rfl ha hb)⟩

/-- Settles O42: only the end of a cycle that completes counts. -/
theorem countRule : Obligations.CountRule := by
  intro s t h
  obtain ⟨hf, -⟩ := step_cases h
  obtain ⟨u, hu, hend⟩ := State.cycle_cycleEnd Decoder.rv64i hf
  cases hu.symm.trans h
  exact ⟨hend.counted, hend.notCounted⟩

/-- Settles O43: the snapshot is taken before the effect, which appends no event. -/
theorem snapshotRule : Obligations.SnapshotRule := by
  intro s t w hf hl hw hs
  rcases hw.step_next_cases hf hl hs with ⟨rfl, rfl⟩ | ⟨h0, u, hu, rfl⟩
  · rw [if_neg fun h => h.1 rfl, List.append_nil]
    rfl
  · obtain ⟨-, -, -, -, -, -, -, hevents, -⟩ := u.afterCycle_frame (decode w)
    rw [hevents, exec_events hu]
    simp only [ne_eq, h0, not_false_eq_true, true_and]
    rfl

/-- Settles O59: the loop ends as R146 says, and only a halted run has the report appended. -/
theorem runOutcomes : Obligations.RunOutcomes := by
  intro fuel trace t0 t1 draw s t
  have hend := runLoop_endOf Decoder.rv64i fuel { s with trace := trace }
  unfold State.run State.runWith
  cases hr : runLoop Decoder.rv64i fuel { s with trace := trace } with
  | halted u =>
    rw [hr] at hend
    refine ⟨?_, nofun, nofun⟩
    rintro ⟨⟩
    exact ⟨hend.1, hend.2, u.events, rfl⟩
  | faulted u =>
    rw [hr] at hend
    refine ⟨nofun, ?_, nofun⟩
    rintro ⟨⟩
    exact hend
  | outOfFuel u => exact ⟨nofun, nofun, nofun⟩
  | refused r =>
    rw [hr] at hend
    exact hend.elim

/-- Settles O60: the first cycle sets the halt flag, so the next back-edge test ends the run. -/
theorem loneEcallRun : Obligations.LoneEcallRun := by
  intro fuel trace t0 t1 draw s entry hc hl hw
  obtain ⟨t, hloop, hcount, hpc⟩ :=
    State.Fetches.runLoop_ecall (s := { s with trace := trace }) hw hl.noFault hl.notHalted hc fuel
  have hone : t.count = 1 := hcount.trans (congrArg (· + 1) hl.countZero)
  refine ⟨t.report t0 t1 draw, ?_, hone, hpc.trans (congrArg (· + 4) hl.atEntry), ?_⟩
  · rw [State.run, State.runWith, hloop]
  · simp [State.report, hone]

end Sys2Proof.Machine
end

section
/-!
PROOFS. Integer computation (spec 41_ref_integer R170 to R203): the words of its instructions and the value each one
writes to rd, and the register frame of every instruction.
-/

namespace Sys2Proof

/-! ### The word of an instruction (R93) -/

/-- The word of a well-formed instruction that is not ILLEGAL encodes it. -/
theorem encodes_encode (i : Instr) (hi : i.wf = true) (hm : i.mnemonic ≠ .illegal) :
    Machine.Encodes (encode i) i := by
  have hd : decode (encode i) = i := decode_encode hi
  have hr : (decode (encode i)).mnemonic.matchesWord (encode i) = true := matchesWord_decode (hd.symm ▸ hm)
  rw [hd] at hr
  exact ⟨hd, hr⟩

/-! ### Shift words with another funct6 or funct7 are ILLEGAL (R101, R103)

The fields select the arm of the decoder's matches; it is the last one, `none`, by the inequalities of the premises. -/

/-- The major opcode of the empty word is zero (R91). -/
theorem ne_zero_of_opcode {w : InstrWord} {op : BitVec 7} (ho : opcodeOf w = op) (hop : op ≠ 0) : w ≠ 0#32 := by
  rintro rfl
  exact hop ho.symm

/-- OP-IMM has SLLI alone at funct3 001 (R103, R182). -/
theorem decode_of_slli_funct6 {w : InstrWord} (ho : opcodeOf w = 0b0010011#7) (h3 : funct3Of w = 0b001#3)
    (h6 : funct6Of w ≠ 0b000000#6) : decode w = .illegal w :=
  decode_of_no_row (ne_zero_of_opcode ho (by decide)) (by simp only [decodeRow, ho, decodeOpImm, h3])

/-- OP-IMM has SRLI and SRAI alone at funct3 101 (R103, R183, R184). -/
theorem decode_of_srli_funct6 {w : InstrWord} (ho : opcodeOf w = 0b0010011#7) (h3 : funct3Of w = 0b101#3)
    (h6 : funct6Of w ≠ 0b000000#6) (h6' : funct6Of w ≠ 0b010000#6) : decode w = .illegal w :=
  decode_of_no_row (ne_zero_of_opcode ho (by decide)) (by simp only [decodeRow, ho, decodeOpImm, h3])

/-- OP-IMM-32 has SLLIW alone at funct3 001 (R103, R196). -/
theorem decode_of_slliw_funct7 {w : InstrWord} (ho : opcodeOf w = 0b0011011#7) (h3 : funct3Of w = 0b001#3)
    (h7 : funct7Of w ≠ 0b0000000#7) : decode w = .illegal w :=
  decode_of_no_row (ne_zero_of_opcode ho (by decide)) (by simp only [decodeRow, ho, decodeOpImm32, h3])

/-- OP-IMM-32 has SRLIW and SRAIW alone at funct3 101 (R103, R197, R198). -/
theorem decode_of_srliw_funct7 {w : InstrWord} (ho : opcodeOf w = 0b0011011#7) (h3 : funct3Of w = 0b101#3)
    (h7 : funct7Of w ≠ 0b0000000#7) (h7' : funct7Of w ≠ 0b0100000#7) : decode w = .illegal w :=
  decode_of_no_row (ne_zero_of_opcode ho (by decide)) (by simp only [decodeRow, ho, decodeOpImm32, h3])

/-- Bit 25 of a word is the low bit of its funct7 (R95), so with it set no W shift has that funct7. -/
theorem funct7Of_ne_of_bit25 {w : InstrWord} (h : w.getLsbD 25 = true) {f7 : BitVec 7} (hf : f7.getLsbD 0 = false) :
    funct7Of w ≠ f7 := by
  rintro rfl
  have h0 : (funct7Of w).getLsbD 0 = w.getLsbD 25 := by rw [funct7Of, BitVec.getLsbD_extractLsb']; rfl
  cases h.symm.trans (h0.symm.trans hf)

end Sys2Proof

namespace Sys2Proof.Machine

/-! ### An effect that writes one register (R170) -/

/-- A register write changes that register and nothing else (R22). -/
theorem State.setReg_regWrite (s : State) (rd : RegIdx) (v : Word) : s.RegWrite (s.setReg rd v) rd v :=
  ⟨by simp, fun r hr => by simp [hr], rfl, rfl, rfl, rfl, rfl, rfl, rfl, rfl, rfl, rfl⟩

/-- An instruction whose effect is a register write computes the value it writes. -/
theorem computes_of_writeReg {i : Instr} {rd : RegIdx} {f value : State → Word}
    (h : ∀ s, exec i s = s.writeReg rd (f s)) (hv : ∀ s, f s = value s) : Computes i rd value :=
  fun s => ⟨_, h s, hv s ▸ s.setReg_regWrite rd (f s)⟩

/-- An instruction whose effect is a register write leaves a value with the bits of the one it writes. -/
theorem exists_regWrite_of_writeReg {i : Instr} {s : State} {rd : RegIdx} {v : Word} {bit : Nat → Bool}
    (h : exec i s = s.writeReg rd v) (hbit : ∀ k < 64, v.getLsbD k = bit k) :
    ∃ t, exec i s = .next t ∧ s.RegWrite t rd (t.reg rd) ∧ ∀ k < 64, (t.reg rd).getLsbD k = bit k := by
  have hv : (s.setReg rd v).reg rd = v := by simp
  exact ⟨_, h, hv.symm ▸ s.setReg_regWrite rd v, hv.symm ▸ hbit⟩

/-! ### Immediates (R96, R99) -/

/-- The unsigned number of a 64-bit value given as an integer. -/
theorem toNat_ofInt64 (n : Int) : ((BitVec.ofInt 64 n).toNat : Int) = n % 2 ^ 64 := by
  rw [BitVec.toNat_ofInt]
  omega

theorem immI_eq_ofInt (imm : BitVec 12) : immI imm = BitVec.ofInt 64 imm.toInt := rfl

theorem immU_eq_ofInt (imm20 : BitVec 20) : immU imm20 = BitVec.ofInt 64 (4096 * imm20.toInt) := by
  have h : (imm20 ++ 0#12).toInt = 4096 * imm20.toInt := by
    rw [toInt_append_of_ne_zero (by decide), BitVec.toNat_ofNat]
    omega
  exact congrArg (BitVec.ofInt 64) h

/-- Sign extension keeps the signed number (R96). -/
theorem toInt_immI (imm : BitVec 12) : (immI imm).toInt = imm.toInt := BitVec.toInt_signExtend_of_le (by decide)

/-- The immediate read as an unsigned number is its signed number modulo 2^64 (R178). -/
theorem toNat_immI (imm : BitVec 12) : ((immI imm).toNat : Int) = imm.toInt % 2 ^ 64 := toNat_ofInt64 _

/-- Bits 11 and up of the immediate operand are bit 11 of the field (R96). -/
theorem getLsbD_immI (imm : BitVec 12) {k : Nat} (hk : k < 64) : (immI imm).getLsbD k = imm.getLsbD (min k 11) := by
  rw [immI, BitVec.getLsbD_signExtend]
  by_cases h : k < 12
  · simp [hk, h, Nat.min_eq_left (Nat.le_of_lt_succ h)]
  · simp [hk, h, Nat.min_eq_right (show 11 ≤ k by omega), BitVec.msb_eq_getLsbD_last]

/-! ### 64-bit results as numbers (R171, R172) -/

theorem add_immI_eq_ofInt (a : Word) (imm : BitVec 12) : a + immI imm = BitVec.ofInt 64 (a.toInt + imm.toInt) := by
  rw [BitVec.ofInt_add, BitVec.ofInt_toInt, immI_eq_ofInt]

theorem add_eq_ofNat (a b : Word) : a + b = BitVec.ofNat 64 (a.toNat + b.toNat) := by
  rw [BitVec.ofNat_add, BitVec.ofNat_toNat, BitVec.ofNat_toNat, BitVec.setWidth_eq, BitVec.setWidth_eq]

theorem sub_eq_ofInt (a b : Word) : a - b = BitVec.ofInt 64 (a.toNat - b.toNat) := by
  apply BitVec.eq_of_toNat_eq
  rw [BitVec.toNat_sub, BitVec.toNat_ofInt]
  omega

theorem shiftLeft_eq_ofNat (a : Word) (k : Nat) : a <<< k = BitVec.ofNat 64 (a.toNat * 2 ^ k) := by
  apply BitVec.eq_of_toNat_eq
  rw [BitVec.toNat_shiftLeft, Nat.shiftLeft_eq, BitVec.toNat_ofNat]

theorem ushiftRight_eq_ofNat (a : Word) (k : Nat) : a >>> k = BitVec.ofNat 64 (a.toNat / 2 ^ k) := by
  rw [← Nat.shiftRight_eq_div_pow, ← BitVec.toNat_ushiftRight, BitVec.ofNat_toNat, BitVec.setWidth_eq]

theorem sshiftRight_eq_ofInt (a : Word) (k : Nat) : a.sshiftRight k = BitVec.ofInt 64 (a.toInt / 2 ^ k) := by
  rw [BitVec.sshiftRight_eq, Int.shiftRight_eq_div_pow, Nat.cast_pow, Nat.cast_ofNat]

theorem shiftAmount6_eq_mod (v : Word) : shiftAmount6 v = v.toNat % 64 := by
  simp [shiftAmount6]

theorem shiftAmount5_eq_mod (v : Word) : shiftAmount5 v = v.toNat % 32 := by
  simp [shiftAmount5]

/-! ### Comparisons (R171) -/

theorem boolWord_ltSigned (a b : Word) : boolWord (ltSigned a b) = if a.toInt < b.toInt then 1 else 0 := by
  simp only [boolWord, ltSigned_eq_true_iff]

theorem boolWord_ltUnsigned (a b : Word) : boolWord (ltUnsigned a b) = if a.toNat < b.toNat then 1 else 0 := by
  simp only [boolWord, ltUnsigned_eq_true_iff]

/-! ### W results (R173) -/

/-- The low word of an integer, sign-extended, whatever 64 bits hold of it. -/
theorem sext32_ofInt (n : Int) : sext32 (BitVec.ofInt 64 n) = wordResult n := by
  have h : ((BitVec.ofInt 64 n).extractLsb' 0 32).toInt = n.bmod (2 ^ 32) := by
    rw [BitVec.toInt_extractLsb', Nat.shiftRight_zero, toNat_ofInt64, ← Int.emod_bmod,
      Int.emod_emod_of_dvd n (by decide), Int.emod_bmod]
  exact congrArg (BitVec.ofInt 64) h

theorem sext32_ofNat (n : Nat) : sext32 (BitVec.ofNat 64 n) = wordResult n := by
  rw [← BitVec.ofInt_natCast, sext32_ofInt]

/-- The low word read as a signed number (R9). -/
theorem toInt_sext32 (a : Word) : (sext32 a).toInt = (a.toNat : Int).bmod (2 ^ 32) := by
  rw [sext32, BitVec.toInt_signExtend_of_le (by decide), BitVec.toInt_extractLsb', Nat.shiftRight_zero]

/-- The low word read as an unsigned number (R173). -/
theorem toNat_zext32 (a : Word) : (zext32 a).toNat = a.toNat % 2 ^ 32 := by
  rw [zext32, BitVec.toNat_setWidth_of_le (by decide), toNat_extract_eq, pow_zero, Nat.div_one]

theorem sext32_shiftLeft (a : Word) (k : Nat) : sext32 (a <<< k) = wordResult (a.toNat * 2 ^ k) := by
  rw [shiftLeft_eq_ofNat, sext32_ofNat]
  push_cast
  rfl

theorem sext32_zext32_ushiftRight (a : Word) (k : Nat) :
    sext32 (zext32 a >>> k) = wordResult (a.toNat % 2 ^ 32 / 2 ^ k) := by
  rw [ushiftRight_eq_ofNat, sext32_ofNat, toNat_zext32]
  push_cast
  rfl

theorem sext32_sext32_sshiftRight (a : Word) (k : Nat) :
    sext32 ((sext32 a).sshiftRight k) = wordResult ((a.toNat : Int).bmod (2 ^ 32) / 2 ^ k) := by
  rw [sshiftRight_eq_ofInt, sext32_ofInt, toInt_sext32]

/-! ### The register frame (R170, R230, R260) -/

/-- The effect of an instruction changes no register but its destination. -/
theorem EffectOf.reg_of_ne_dest {i : Instr} {s t : State} (he : EffectOf i s t) {r : RegIdx}
    (hr : destOf i ≠ some r) : t.reg r = s.reg r := by
  have hother : ∀ (rd : RegIdx) (v : Word), destOf i = some rd → (s.setReg rd v).reg r = s.reg r := by
    intro rd v hd
    have hne : r ≠ rd := fun h => hr (h ▸ hd)
    simp [hne]
  cases he with
  | wroteReg rd v hd _ => exact hother rd v hd
  | jumped rd v _ hd _ => exact hother rd v hd
  | branched | didNothing | stored | halted | raised => rfl

/-! ### The obligations: the words are those of `encode` (O1, O3), and each effect is one register write -/

/-- Settles O7: the U-immediate is 4096 times the field, signed. -/
theorem upperImmediateResults : Obligations.UpperImmediateResults := by
  intro rd imm20
  refine ⟨encodes_encode (.lui rd imm20) rfl nofun, encodes_encode (.auipc rd imm20) rfl nofun,
    computes_of_writeReg (fun _ => rfl) fun _ => immU_eq_ofInt imm20,
    computes_of_writeReg (fun _ => rfl) fun s => ?_, fun s d hd => ?_⟩
  · rw [immU_eq_ofInt, BitVec.ofInt_add, BitVec.ofInt_natCast, BitVec.ofNat_toNat, BitVec.setWidth_eq]
  · rw [State.instrAddr, hd]

/-- Settles O8: the 64-bit sum and difference are those of the numbers, modulo 2^64. -/
theorem addSubResults : Obligations.AddSubResults := by
  intro rd rs1 rs2 imm
  exact ⟨encodes_encode (.addi rd rs1 imm) rfl nofun, encodes_encode (.add rd rs1 rs2) rfl nofun,
    encodes_encode (.sub rd rs1 rs2) rfl nofun,
    computes_of_writeReg (fun _ => rfl) fun _ => add_immI_eq_ofInt _ imm,
    computes_of_writeReg (fun _ => rfl) fun _ => add_eq_ofNat _ _,
    computes_of_writeReg (fun _ => rfl) fun _ => sub_eq_ofInt _ _⟩

/-- Settles O9: the comparisons are those of the signed or the unsigned numbers, the immediate's among them. -/
theorem setLessResults : Obligations.SetLessResults := by
  intro rd rs1 rs2 imm
  refine ⟨encodes_encode (.slti rd rs1 imm) rfl nofun, encodes_encode (.sltiu rd rs1 imm) rfl nofun,
    encodes_encode (.slt rd rs1 rs2) rfl nofun, encodes_encode (.sltu rd rs1 rs2) rfl nofun,
    computes_of_writeReg (fun _ => rfl) fun s => ?_,
    computes_of_writeReg (fun _ => rfl) fun s => ?_,
    computes_of_writeReg (fun _ => rfl) fun _ => boolWord_ltSigned _ _,
    computes_of_writeReg (fun _ => rfl) fun _ => boolWord_ltUnsigned _ _⟩
  · rw [boolWord_ltSigned, toInt_immI]
  · simp only [boolWord_ltUnsigned, ← toNat_immI, Int.ofNat_lt]

/-- Settles O10: the operations are bitwise, and so is sign extension. -/
theorem logicImmediateResults : Obligations.LogicImmediateResults := by
  intro rd rs1 imm
  refine ⟨encodes_encode (.xori rd rs1 imm) rfl nofun, encodes_encode (.ori rd rs1 imm) rfl nofun,
    encodes_encode (.andi rd rs1 imm) rfl nofun, fun s =>
      ⟨exists_regWrite_of_writeReg rfl fun k hk => ?_, exists_regWrite_of_writeReg rfl fun k hk => ?_,
        exists_regWrite_of_writeReg rfl fun k hk => ?_⟩⟩
  · rw [BitVec.getLsbD_xor, getLsbD_immI imm hk]
  · rw [BitVec.getLsbD_or, getLsbD_immI imm hk]
  · rw [BitVec.getLsbD_and, getLsbD_immI imm hk]

/-- Settles O11: shifts are products and quotients by powers of two, and funct6 selects the row. -/
theorem shiftImmediateResults : Obligations.ShiftImmediateResults := by
  intro rd rs1 shamt
  refine ⟨encodes_encode (.slli rd rs1 shamt) rfl nofun, encodes_encode (.srli rd rs1 shamt) rfl nofun,
    encodes_encode (.srai rd rs1 shamt) rfl nofun,
    computes_of_writeReg (fun _ => rfl) fun _ => shiftLeft_eq_ofNat _ _,
    computes_of_writeReg (fun _ => rfl) fun _ => ushiftRight_eq_ofNat _ _,
    computes_of_writeReg (fun _ => rfl) fun _ => sshiftRight_eq_ofInt _ _, fun f6 h0 => ?_, fun f6 h0 h1 => ?_⟩
  · have h6 := encShift6_funct6 f6 shamt rs1 0b001#3 rd 0b0010011#7
    exact decode_of_slli_funct6 (encShift6_opcode ..) (encShift6_funct3 ..) (h6.trans_ne h0)
  · have h6 := encShift6_funct6 f6 shamt rs1 0b101#3 rd 0b0010011#7
    exact decode_of_srli_funct6 (encShift6_opcode ..) (encShift6_funct3 ..) (h6.trans_ne h0) (h6.trans_ne h1)

/-- Settles O12: the same shifts, by the low 6 bits of rs2. -/
theorem shiftRegisterResults : Obligations.ShiftRegisterResults := by
  intro rd rs1 rs2
  refine ⟨encodes_encode (.sll rd rs1 rs2) rfl nofun, encodes_encode (.srl rd rs1 rs2) rfl nofun,
    encodes_encode (.sra rd rs1 rs2) rfl nofun,
    computes_of_writeReg (fun _ => rfl) fun s => ?_,
    computes_of_writeReg (fun _ => rfl) fun s => ?_,
    computes_of_writeReg (fun _ => rfl) fun s => ?_⟩
  · rw [shiftLeft_eq_ofNat, shiftAmount6_eq_mod]
  · rw [ushiftRight_eq_ofNat, shiftAmount6_eq_mod]
  · rw [sshiftRight_eq_ofInt, shiftAmount6_eq_mod]

/-- Settles O13: the operations are bitwise. -/
theorem logicRegisterResults : Obligations.LogicRegisterResults := by
  intro rd rs1 rs2
  exact ⟨encodes_encode (.xor rd rs1 rs2) rfl nofun, encodes_encode (.or rd rs1 rs2) rfl nofun,
    encodes_encode (.and rd rs1 rs2) rfl nofun, fun s =>
      ⟨exists_regWrite_of_writeReg rfl fun _ _ => BitVec.getLsbD_xor,
        exists_regWrite_of_writeReg rfl fun _ _ => BitVec.getLsbD_or,
        exists_regWrite_of_writeReg rfl fun _ _ => BitVec.getLsbD_and⟩⟩

/-- Settles O14: a W result is the low word of the 64-bit one, and funct7 selects the row of a shift. -/
theorem wordImmediateResults : Obligations.WordImmediateResults := by
  intro rd rs1 imm shamt
  refine ⟨encodes_encode (.addiw rd rs1 imm) rfl nofun, encodes_encode (.slliw rd rs1 shamt) rfl nofun,
    encodes_encode (.srliw rd rs1 shamt) rfl nofun, encodes_encode (.sraiw rd rs1 shamt) rfl nofun,
    fun f7 h0 => ?_, fun f7 h0 h1 => ?_, fun w ho h3 h25 => ?_,
    computes_of_writeReg (fun _ => rfl) fun s => ?_,
    computes_of_writeReg (fun _ => rfl) fun _ => sext32_shiftLeft _ _,
    computes_of_writeReg (fun _ => rfl) fun _ => sext32_zext32_ushiftRight _ _,
    computes_of_writeReg (fun _ => rfl) fun _ => sext32_sext32_sshiftRight _ _⟩
  · have h7 := encR_funct7 f7 shamt rs1 0b001#3 rd 0b0011011#7
    exact decode_of_slliw_funct7 (encR_opcode ..) (encR_funct3 ..) (h7.trans_ne h0)
  · have h7 := encR_funct7 f7 shamt rs1 0b101#3 rd 0b0011011#7
    exact decode_of_srliw_funct7 (encR_opcode ..) (encR_funct3 ..) (h7.trans_ne h0) (h7.trans_ne h1)
  · rcases h3 with h3 | h3
    · exact decode_of_slliw_funct7 ho h3 (funct7Of_ne_of_bit25 h25 rfl)
    · exact decode_of_srliw_funct7 ho h3 (funct7Of_ne_of_bit25 h25 rfl) (funct7Of_ne_of_bit25 h25 rfl)
  · rw [add_immI_eq_ofInt, sext32_ofInt]

/-- Settles O15: the same, with the shift amount in the low 5 bits of rs2. -/
theorem wordRegisterResults : Obligations.WordRegisterResults := by
  intro rd rs1 rs2
  refine ⟨encodes_encode (.addw rd rs1 rs2) rfl nofun, encodes_encode (.subw rd rs1 rs2) rfl nofun,
    encodes_encode (.sllw rd rs1 rs2) rfl nofun, encodes_encode (.srlw rd rs1 rs2) rfl nofun,
    encodes_encode (.sraw rd rs1 rs2) rfl nofun,
    computes_of_writeReg (fun _ => rfl) fun s => ?_,
    computes_of_writeReg (fun _ => rfl) fun s => ?_,
    computes_of_writeReg (fun _ => rfl) fun s => ?_,
    computes_of_writeReg (fun _ => rfl) fun s => ?_,
    computes_of_writeReg (fun _ => rfl) fun s => ?_⟩
  · rw [add_eq_ofNat, sext32_ofNat, Nat.cast_add]
  · rw [sub_eq_ofInt, sext32_ofInt]
  · rw [sext32_shiftLeft, shiftAmount5_eq_mod]
  · rw [sext32_zext32_ushiftRight, shiftAmount5_eq_mod]
  · rw [sext32_sext32_sshiftRight, shiftAmount5_eq_mod]

/-- Settles O28: a register is written only by the two ends of an effect that have a destination. -/
theorem registerFrame : Obligations.RegisterFrame := fun _ _ _ h _ hr => (exec_cases h).reg_of_ne_dest hr

end Sys2Proof.Machine
end

section
/-!
PROOFS. Control transfer (spec 42_ref_control R230 to R238): the words of the jumps and branches, their offsets and
targets, the effect of each on every state, and the fault of a misaligned target at the next fetch.
-/

namespace Sys2Proof

/-! ### The words (R95, R98, R100) -/

/-- A zero appended below a field is bit 0. -/
theorem extractLsb'_append_zero_bit {n : Nat} (x : BitVec n) : (x ++ 0#1).extractLsb' 0 1 = 0#1 := by
  rw [BitVec.extractLsb'_append_eq_of_add_le (by decide), BitVec.extractLsb'_eq_self]

/-- The J-format word encodes JAL with the offset in the pieces of R100. -/
theorem encodes_jal (rd : RegIdx) (b20 : BitVec 1) (b19 : BitVec 8) (b11 : BitVec 1) (b10 : BitVec 10) :
    Machine.Encodes (b20 ++ b10 ++ b11 ++ b19 ++ rd ++ 0b1101111#7 : InstrWord)
      (.jal rd (b20 ++ b19 ++ b11 ++ b10 ++ 0#1)) := by
  rw [← encJ_of_pieces]
  exact encodes_encode (.jal rd _) (beq_iff_eq.2 (extractLsb'_append_zero_bit _)) nofun

/-- JALR is at funct3 000 alone (R103, R232). -/
theorem decode_of_jalr_funct3 {w : InstrWord} (ho : opcodeOf w = 0b1100111#7) (h3 : funct3Of w ≠ 0b000#3) :
    decode w = .illegal w :=
  decode_of_no_row (ne_zero_of_opcode ho (by decide)) (by simp only [decodeRow, ho, decodeJalr])

/-- The B-format word encodes each branch at its funct3, with the offset in the pieces of R98. -/
theorem encodes_branch {i : Instr} {f3 : BitVec 3} {rs1 rs2 : RegIdx} {b12 b11 : BitVec 1} {b10 : BitVec 6}
    {b4 : BitVec 4} (hword : encode i = encB (b12 ++ b11 ++ b10 ++ b4 ++ 0#1) rs2 rs1 f3 0b1100011#7)
    (hwf : i.wf = ((b12 ++ b11 ++ b10 ++ b4 ++ 0#1 : BitVec 13).extractLsb' 0 1 == 0#1))
    (hm : i.mnemonic ≠ .illegal) :
    Machine.Encodes (b12 ++ b10 ++ rs2 ++ rs1 ++ f3 ++ b4 ++ b11 ++ 0b1100011#7 : InstrWord) i := by
  rw [← encB_of_pieces, ← hword]
  exact encodes_encode i (hwf.trans (beq_iff_eq.2 (extractLsb'_append_zero_bit _))) hm

end Sys2Proof

namespace Sys2Proof.Machine

/-! ### Offsets and targets as numbers (R98, R100, R230) -/

/-- An offset with a zero below its field, which is not empty, is even, and one bit more than the field bounds it. -/
theorem toInt_append_zero_bit_range {n : Nat} (x : BitVec (n + 1)) :
    (x ++ 0#1).toInt % 2 = 0 ∧ -2 ^ (n + 1) ≤ (x ++ 0#1).toInt ∧ (x ++ 0#1).toInt ≤ 2 ^ (n + 1) - 2 := by
  have h : (x ++ 0#1).toInt = 2 * x.toInt := BitVec.toInt_append_zero
  have hlo : -2 ^ n ≤ x.toInt := x.le_toInt
  have hhi : x.toInt < 2 ^ n := x.toInt_lt
  rw [h, pow_succ]
  omega

theorem add_signExtend_eq_ofInt {n : Nat} (a : Word) (off : BitVec n) :
    a + off.signExtend 64 = BitVec.ofInt 64 (a.toNat + off.toInt) := by
  rw [BitVec.ofInt_add, BitVec.ofInt_natCast, BitVec.ofNat_toNat, BitVec.setWidth_eq, BitVec.signExtend]

/-- Clearing bit 0 rounds down to an even number (R232). -/
theorem ofInt_clear_bit_zero (n : Int) :
    BitVec.ofInt 64 n &&& ~~~1#64 = BitVec.ofInt 64 (2 * (n / 2)) := by
  have hmask : ~~~1#64 = BitVec.allOnes 64 <<< 1 := by decide
  have hn := toNat_ofInt64 n
  have he := toNat_ofInt64 (2 * (n / 2))
  rw [hmask, ← BitVec.shiftLeft_ushiftRight]
  apply BitVec.eq_of_toNat_eq
  rw [BitVec.toNat_shiftLeft, BitVec.toNat_ushiftRight, Nat.shiftLeft_eq, Nat.shiftRight_eq_div_pow]
  omega

/-! ### The next fetch at a bad target (R132, R230) -/

/-- A step whose pc is 2 mod 4 faults as misaligned: reduction modulo 2^64 keeps the remainder. -/
theorem step_misaligned {u : State} {n : Int} (hpc : u.pc = BitVec.ofInt 64 n) (hf : u.fault = none)
    (hn : n % 4 = 2) : ∃ v, step u = .next v ∧ v.fault = some (.misaligned u.pc 4) := by
  have ha : u.pc.toNat % 4 ≠ 0 := by
    have := toNat_ofInt64 n
    rw [hpc]
    omega
  exact ⟨_, step_fetch_error hf (u.translate_of_misaligned rfl ha), rfl⟩

/-! ### The effect of a jump (R231, R232) -/

/-- A jump writes its link and the pc, and nothing else (R230). -/
theorem State.setReg_setPc_regPcWrite (s : State) (rd : RegIdx) (v target : Word) :
    s.RegPcWrite ((s.setReg rd v).setPc target) rd v target :=
  ⟨by simp, fun r hr => by simp [hr], rfl, rfl, rfl, rfl, rfl, rfl, rfl, rfl, rfl, rfl⟩

theorem State.instrAddr_of_dl {s : State} {d : Descriptor} (hd : s.dl = some d) : s.instrAddr = d.addr := by
  rw [State.instrAddr, hd]

/-- An instruction whose effect is a jump to `n`: the link and the pc it leaves, and the fault of a target of 2 mod 4
at the next fetch. -/
theorem exists_regPcWrite_of_jumpAndLink {i : Instr} {s : State} {d : Descriptor} {rd : RegIdx} {n : Int}
    (hd : s.dl = some d) (h : exec i s = s.jumpAndLink rd (BitVec.ofInt 64 n)) :
    ∃ t, exec i s = .next t ∧ s.RegPcWrite t rd (BitVec.ofNat 64 (d.addr.toNat + 4)) (BitVec.ofInt 64 n) ∧
      ∀ u : State, u.pc = t.pc → u.fault = none → n % 4 = 2 →
        ∃ v, step u = .next v ∧ v.fault = some (.misaligned t.pc 4) := by
  have hlink : s.instrAddr + 4 = BitVec.ofNat 64 (d.addr.toNat + 4) := by
    rw [State.instrAddr_of_dl hd]
    exact add_eq_ofNat d.addr 4
  refine ⟨_, h, hlink ▸ s.setReg_setPc_regPcWrite rd _ _, fun u hpc hf hn => ?_⟩
  exact hpc ▸ step_misaligned hpc hf hn

/-! ### The effect of a branch (R233 to R238) -/

/-- A write of the pc changes nothing else, and a write of the pc it holds nothing at all (R24). -/
theorem State.setPc_pcWrite (s : State) (target : Word) : s.PcWrite (s.setPc target) target :=
  ⟨fun _ => rfl, rfl, rfl, rfl, rfl, rfl, rfl, rfl, rfl, rfl, rfl⟩

/-- An instruction whose effect is a branch on `c` branches where `c` says. -/
theorem branches_of_branchIf {i : Instr} {off : BitVec 13} {c : State → Bool} {taken : State → Prop}
    (h : ∀ s, exec i s = s.branchIf (c s) (immB off)) (hc : ∀ s, c s = true ↔ taken s) : Branches i off taken := by
  intro s d hd
  have htarget : s.instrAddr + immB off = BitVec.ofInt 64 (d.addr.toNat + off.toInt) := by
    rw [State.instrAddr_of_dl hd]
    exact add_signExtend_eq_ofInt d.addr off
  rw [h]
  by_cases ht : taken s
  · exact ⟨_, if_pos ((hc s).2 ht), fun _ => htarget ▸ s.setPc_pcWrite _, absurd ht⟩
  · exact ⟨s, s.branchIf_of_false (Bool.eq_false_iff.2 (mt (hc s).1 ht)) _, fun h => absurd h ht,
      fun _ => s.setPc_pcWrite s.pc⟩

theorem not_ltSigned_iff (a b : Word) : (!ltSigned a b) = true ↔ b.toInt ≤ a.toInt := by
  rw [Bool.not_eq_true', ← Bool.not_eq_true, ltSigned_eq_true_iff, not_lt]

theorem not_ltUnsigned_iff (a b : Word) : (!ltUnsigned a b) = true ↔ b.toNat ≤ a.toNat := by
  rw [Bool.not_eq_true', ← Bool.not_eq_true, ltUnsigned_eq_true_iff, not_lt]

/-! ### The jump to itself (R231) -/

/-- What is fetched depends on the pc, the memory and the parameters only (R132). -/
theorem State.Fetches.congr {s t : State} {w : InstrWord} (h : s.Fetches w) (hpc : t.pc = s.pc)
    (hmem : t.mem = s.mem) (hcfg : t.cfg = s.cfg) : t.Fetches w := by
  simpa only [State.Fetches, State.offset, hpc, hmem, hcfg] using h

/-- The step of `jal x0, 0` does not fault, and ends where it can be fetched again (R231). -/
theorem State.Fetches.step_jal_self {s : State} (h : s.Fetches 0x0000006F#32) (hf : s.fault = none) :
    ∃ t, Sys2Proof.Machine.step s = .next t ∧ t.fault = none ∧ t.Fetches 0x0000006F#32 ∧
      (Mnemonic.jal ∉ s.cfg.haltClass → t.halted = s.halted) := by
  obtain ⟨u, hu, he, hs⟩ := h.step hf (by decide)
  rw [show decode 0x0000006F#32 = .jal 0 0 from rfl] at hu he hs
  have huf : u.fault = none := (he.fault_of_not_mayFault rfl).trans hf
  have hhalted := exec_afterCycle_halted hu huf
  cases hu
  refine ⟨_, hs, by rw [State.afterCycle_fault, huf], h.congr ?_ ?_ ?_, fun hc => ?_⟩
  · rw [State.afterCycle_pc]
    exact BitVec.add_zero s.pc
  · rw [State.afterCycle_mem]
    rfl
  · rw [State.afterCycle_cfg]
    rfl
  · rw [Bool.eq_iff_iff, hhalted]
    exact or_iff_left hc

/-! ### The obligations -/

/-- Settles O16: the target is the sum of the address and the offset as numbers, and `jal x0, 0` moves neither the pc
nor memory. -/
theorem jalResult : Obligations.JalResult := by
  refine ⟨fun rd b20 b19 b11 b10 => ⟨encodes_jal rd b20 b19 b11 b10, toInt_append_zero_bit_range _,
    fun s d hd => exists_regPcWrite_of_jumpAndLink hd ?_⟩, fun s hf hw => hw.step_jal_self hf⟩
  rw [← add_signExtend_eq_ofInt, ← State.instrAddr_of_dl hd]
  rfl

/-- Settles O17: clearing bit 0 rounds the sum down, and a sum of 2 or 3 mod 4 rounds to 2. -/
theorem jalrResult : Obligations.JalrResult := by
  intro rd rs1 imm
  refine ⟨encodes_encode (.jalr rd rs1 imm) rfl nofun, fun f3 h3 => ?_, fun s d hd => ?_⟩
  · have h := encI_funct3 imm rs1 f3 rd 0b1100111#7
    exact decode_of_jalr_funct3 (encI_opcode ..) (h.trans_ne h3)
  · have htarget : exec (.jalr rd rs1 imm) s =
        s.jumpAndLink rd (BitVec.ofInt 64 (2 * (((s.reg rs1).toInt + imm.toInt) / 2))) := by
      rw [← ofInt_clear_bit_zero, ← add_immI_eq_ofInt]
      rfl
    obtain ⟨t, ht, hwrite, hnext⟩ := exists_regPcWrite_of_jumpAndLink hd htarget
    exact ⟨t, ht, hwrite, fun u hpc hf hn => hnext u hpc hf (by omega)⟩

/-- Settles O18: both compare for equality, and their targets are taken as JAL's are. -/
theorem branchEqualResults : Obligations.BranchEqualResults := by
  intro rs1 rs2 b12 b11 b10 b4
  exact ⟨encodes_branch rfl rfl nofun, encodes_branch rfl rfl nofun, toInt_append_zero_bit_range _,
    branches_of_branchIf (fun _ => rfl) fun _ => beq_iff_eq,
    branches_of_branchIf (fun _ => rfl) fun _ => bne_iff_ne,
    fun _ _ => step_misaligned⟩

/-- Settles O19: BLT and BLTU branch where the comparison holds, BGE and BGEU where it does not. -/
theorem branchOrderResults : Obligations.BranchOrderResults := by
  intro rs1 rs2 b12 b11 b10 b4
  exact ⟨encodes_branch rfl rfl nofun, encodes_branch rfl rfl nofun,
    encodes_branch rfl rfl nofun, encodes_branch rfl rfl nofun,
    branches_of_branchIf (fun _ => rfl) fun _ => ltSigned_eq_true_iff _ _,
    branches_of_branchIf (fun _ => rfl) fun _ => not_ltSigned_iff _ _,
    branches_of_branchIf (fun _ => rfl) fun _ => ltUnsigned_eq_true_iff _ _,
    branches_of_branchIf (fun _ => rfl) fun _ => not_ltUnsigned_iff _ _⟩

end Sys2Proof.Machine
end

section
/-!
PROOFS. Loads and stores (spec 43_ref_loadstore R260 to R271): their words, the outcome of an access that the
translator checks, the value a load delivers, the bytes a store leaves, and a stored word that is fetched later. And
the example words of the spec's decode table (95_test_vectors sections 2.3 and 2.6).
-/

namespace Sys2Proof

/-! ### The words (R95, R97, R103) -/

/-- The S-format word encodes each store at its funct3, with the offset in the two pieces of R97. -/
theorem encodes_store {i : Instr} {f3 : BitVec 3} {rs1 rs2 : RegIdx} {hi : BitVec 7} {lo : BitVec 5}
    (hword : encode i = encS (hi ++ lo) rs2 rs1 f3 0b0100011#7) (hwf : i.wf = true) (hm : i.mnemonic ≠ .illegal) :
    Machine.Encodes (hi ++ rs2 ++ rs1 ++ f3 ++ lo ++ 0b0100011#7 : InstrWord) i := by
  have h7 : (hi ++ lo).extractLsb' 5 7 = hi := BitVec.extractLsb'_append_eq_left
  have h5 : (hi ++ lo).extractLsb' 0 5 = lo := by
    rw [BitVec.extractLsb'_append_eq_of_add_le (by decide), BitVec.extractLsb'_eq_self]
  have h := encodes_encode i hwf hm
  rwa [hword, encS, h7, h5] at h

/-- LOAD has no instruction at funct3 111 (R103, R104). -/
theorem decode_of_load_funct3 {w : InstrWord} (ho : opcodeOf w = 0b0000011#7) (h3 : funct3Of w = 0b111#3) :
    decode w = .illegal w :=
  decode_of_no_row (ne_zero_of_opcode ho (by decide)) (by simp [decodeRow, ho, decodeLoad, h3])

/-- STORE has no instruction at funct3 100 and above (R103, R104). -/
theorem decode_of_store_funct3 {w : InstrWord} (ho : opcodeOf w = 0b0100011#7) (h3 : 4 ≤ (funct3Of w).toNat) :
    decode w = .illegal w := by
  have hne : ∀ f3 : BitVec 3, 4 ≤ f3.toNat → f3 ≠ 0b000#3 ∧ f3 ≠ 0b001#3 ∧ f3 ≠ 0b010#3 ∧ f3 ≠ 0b011#3 := by
    decide
  obtain ⟨h0, h1, h2, h3'⟩ := hne _ h3
  exact decode_of_no_row (ne_zero_of_opcode ho (by decide)) (by simp only [decodeRow, ho, decodeStore])

end Sys2Proof

namespace Sys2Proof.Machine

/-! ### The outcome of an access (R54, R260) -/

/-- The effective address of a load as a number, modulo 2^64 (R260). -/
theorem State.loadAddress_eq_ofInt (s : State) (rs1 : RegIdx) (imm : BitVec 12) :
    s.loadAddress rs1 imm = BitVec.ofInt 64 ((s.reg rs1).toInt + imm.toInt) := add_immI_eq_ofInt _ imm

/-- The effective address of a store: its immediate is extended as a load's is (R97, R260). -/
theorem State.storeAddress_eq_ofInt (s : State) (rs1 : RegIdx) (imm : BitVec 12) :
    s.storeAddress rs1 imm = BitVec.ofInt 64 ((s.reg rs1).toInt + imm.toInt) := add_immI_eq_ofInt _ imm

theorem State.FaultWrite.fault_ne_none {s t : State} {f : Fault} (h : s.FaultWrite t f) : t.fault ≠ none := by
  obtain ⟨-, -, -, hf, -⟩ := h
  exact hf.trans_ne nofun

/-- An effect that raises the translator's fault, and otherwise ends as `Done` says, has the two faults of an access
of a legal size in the order of the checks. -/
theorem State.exists_next_of_access {s : State} {va : Word} {n : Nat} {r : Result} {Done : State → Prop}
    (hn : legalSize n = true) (hfault : ∀ f, s.translate va n = .error f → r = .next (s.raise f))
    (hdone : s.translate va n = .ok (s.offset va) → ∃ t, r = .next t ∧ Done t) :
    ∃ t, r = .next t ∧
      if va.toNat % n ≠ 0 then s.FaultWrite t (.misaligned va n)
      else if s.cfg.capacity < s.offset va + n then s.FaultWrite t (.outOfBounds va n)
      else Done t := by
  split_ifs with ha hb
  · exact ⟨_, hfault _ (s.translate_of_misaligned hn ha), s.raise_faultWrite _⟩
  · exact ⟨_, hfault _ (State.translate_of_outOfBounds hn (not_not.1 ha) hb), s.raise_faultWrite _⟩
  · exact hdone ((s.translate_ok_iff va n _).2 ⟨hn, not_not.1 ha, not_lt.1 hb, rfl⟩)

/-! ### Loads -/

/-- A load raises the translator's fault before it writes its register (R260). -/
theorem State.loadInto_of_error {s : State} {va : Word} {n : Nat} {f : Fault} (h : s.translate va n = .error f)
    (rd : RegIdx) (extend : Word → Word) : s.loadInto rd va n extend = .next (s.raise f) := by
  rw [State.loadInto, (s.memRead_error_iff va n f).2 h]

/-- A load that passes the translator writes its register with the extension of the number the bytes spell (R55). -/
theorem State.loadInto_of_ok {s : State} {va : Word} {n off : Nat} (h : s.translate va n = .ok off) (rd : RegIdx)
    (extend : Word → Word) :
    s.loadInto rd va n extend = .next (s.setReg rd (extend (BitVec.ofNat 64 (s.bytesValue off n)))) := by
  rw [State.loadInto, (s.memRead_ok_iff va n _).2 ⟨off, h, rfl⟩, s.readLE_eq_bytesValue]

/-- The low `m` bits of a number, sign-extended (R9). -/
theorem signExtend_low_bits (m k : Nat) (hm : m ≤ 64) :
    ((BitVec.ofNat 64 k).extractLsb' 0 m).signExtend 64 = BitVec.ofInt 64 ((k : Int).bmod (2 ^ m)) := by
  rw [← BitVec.setWidth_eq_extractLsb' hm, BitVec.setWidth_ofNat_of_le hm, BitVec.signExtend, BitVec.toInt_ofNat']

/-- An instruction whose effect is a load of a legal size loads, signed or not as it extends. -/
theorem loads_of_loadInto {i : Instr} {rd rs1 : RegIdx} {imm : BitVec 12} {n : Nat} {signed : Bool}
    {extend : Word → Word} (hn : legalSize n = true)
    (h : ∀ s, exec i s = s.loadInto rd (s.loadAddress rs1 imm) n extend)
    (hext : ∀ k : Nat, extend (BitVec.ofNat 64 k) =
      if signed then BitVec.ofInt 64 (Int.bmod k (2 ^ (8 * n))) else BitVec.ofNat 64 k) :
    Loads i rd rs1 imm n signed := by
  intro s
  rw [h, State.loadAddress_eq_ofInt]
  refine State.exists_next_of_access hn (fun f hf => State.loadInto_of_error hf rd extend) fun ht => ?_
  exact ⟨_, State.loadInto_of_ok ht rd extend, hext _ ▸ s.setReg_regWrite rd _⟩

/-! ### Stores -/

/-- A store raises the translator's fault before it writes a byte (R260). -/
theorem State.storeAt_of_error {s : State} {va : Word} {n : Nat} {f : Fault} (h : s.translate va n = .error f)
    (v : Word) : s.storeAt va n v = .next (s.raise f) := by
  rw [State.storeAt, (s.memWrite_error_iff va n v f).2 h]

/-- A store that passes the translator writes its bytes (R56). -/
theorem State.storeAt_of_ok {s : State} {va : Word} {n off : Nat} (h : s.translate va n = .ok off) (v : Word) :
    s.storeAt va n v = .next (s.setMem (s.mem.writeLE off n v)) := by
  rw [State.storeAt, (s.memWrite_ok_iff va n v _).2 ⟨off, h, rfl⟩]

/-- The stores store the bytes of their width (R268 to R271). -/
theorem IsStore.stores {i : Instr} {rs1 rs2 : RegIdx} {imm : BitVec 12} {n : Nat} (h : IsStore i rs1 rs2 imm n) :
    Stores i rs1 rs2 imm n := by
  intro s hm
  have hn : legalSize n = true := by rcases h with ⟨-, rfl⟩ | ⟨-, rfl⟩ | ⟨-, rfl⟩ | ⟨-, rfl⟩ <;> rfl
  rw [h.exec_eq, State.storeAddress_eq_ofInt]
  refine State.exists_next_of_access hn (fun f hf => State.storeAt_of_error hf _) fun ht => ?_
  exact ⟨_, State.storeAt_of_ok ht _, State.bytesWrite_writeLE hm _ n _⟩

/-! ### A stored word that is fetched later (R75, R270) -/

/-- A word stored without a fault is fetched wherever the pc is at its address and the memory and the parameters are
those the store left. -/
theorem Stores.fetches {i : Instr} {rs1 rs2 : RegIdx} {imm : BitVec 12} {s t u : State} (h : Stores i rs1 rs2 imm 4)
    (hm : s.mem.wf = true) (hexec : exec i s = .next t) (ht : t.fault = none) (hcfg : u.cfg = t.cfg)
    (hmem : u.mem = t.mem) (hpc : u.pc = BitVec.ofInt 64 ((s.reg rs1).toInt + imm.toInt)) :
    u.Fetches ((s.reg rs2).extractLsb' 0 32) := by
  obtain ⟨t', ht', hout⟩ := h s hm
  cases ht'.symm.trans hexec
  rw [← hpc] at hout
  split_ifs at hout with ha hb
  · exact absurd ht hout.fault_ne_none
  · exact absurd ht hout.fault_ne_none
  · obtain ⟨hbytes, -, -, -, -, htcfg, -⟩ := hout
    have hucfg : u.cfg = s.cfg := hcfg.trans htcfg
    refine ⟨not_not.1 ha, ?_, fun k hk => ?_⟩
    · rw [State.offset, hucfg]
      exact not_lt.1 hb
    · rw [State.offset, hucfg, hmem, hbytes k hk, extractLsb'_32_byte _ hk]

/-! ### The obligations -/

/-- Settles O20: the unit's value is the number the bytes spell, and each load extends the bits of its width. -/
theorem signedLoadResults : Obligations.SignedLoadResults := by
  intro rd rs1 imm
  exact ⟨encodes_encode (.lb rd rs1 imm) rfl nofun, encodes_encode (.lh rd rs1 imm) rfl nofun,
    encodes_encode (.lw rd rs1 imm) rfl nofun,
    loads_of_loadInto rfl (fun _ => rfl) fun k => signExtend_low_bits 8 k (by decide),
    loads_of_loadInto rfl (fun _ => rfl) fun k => signExtend_low_bits 16 k (by decide),
    loads_of_loadInto rfl (fun _ => rfl) fun k => signExtend_low_bits 32 k (by decide)⟩

/-- Settles O21: these loads deliver the unit's value as it is. -/
theorem unsignedLoadResults : Obligations.UnsignedLoadResults := by
  intro rd rs1 imm
  exact ⟨encodes_encode (.ld rd rs1 imm) rfl nofun, encodes_encode (.lbu rd rs1 imm) rfl nofun,
    encodes_encode (.lhu rd rs1 imm) rfl nofun, encodes_encode (.lwu rd rs1 imm) rfl nofun,
    decode_of_load_funct3 (encI_opcode ..) (encI_funct3 ..),
    loads_of_loadInto rfl (fun _ => rfl) fun _ => rfl, loads_of_loadInto rfl (fun _ => rfl) fun _ => rfl,
    loads_of_loadInto rfl (fun _ => rfl) fun _ => rfl, loads_of_loadInto rfl (fun _ => rfl) fun _ => rfl⟩

/-- Settles O22: the four stores are one effect at four widths, and the bytes SW leaves are those of a fetch. -/
theorem storeResults : Obligations.StoreResults := by
  intro rs1 rs2 hi lo imm
  have hsw : Stores (.sw rs1 rs2 imm) rs1 rs2 imm 4 := IsStore.stores (.inr (.inr (.inl ⟨rfl, rfl⟩)))
  refine ⟨encodes_store rfl rfl nofun, encodes_store rfl rfl nofun, encodes_store rfl rfl nofun,
    encodes_store rfl rfl nofun, fun f3 h3 => decode_of_store_funct3 (encR_opcode ..) ?_,
    IsStore.stores (.inl ⟨rfl, rfl⟩), IsStore.stores (.inr (.inl ⟨rfl, rfl⟩)), hsw,
    IsStore.stores (.inr (.inr (.inr ⟨rfl, rfl⟩))),
    fun s t u hm _ hexec ht hcfg hmem hpc => hsw.fetches hm hexec ht hcfg hmem hpc⟩
  have hf3 := encR_funct3 hi rs2 rs1 f3 lo 0b0100011#7
  exact h3.trans_eq (congrArg BitVec.toNat hf3).symm

/-- Settles O6: six of the words are those of instructions, and the other two are in no row: a W shift with bit 25 set,
and a SYSTEM word other than ECALL and EBREAK. -/
theorem specWordsDecode : Obligations.SpecWordsDecode :=
  ⟨decode_encode (i := .emptyFetch) rfl, decode_encode (i := .add 1 0 0) rfl, decode_encode (i := .jal 0 0) rfl,
    decode_encode (i := .jalr 0 1 0) rfl, decode_encode (i := .srai 0 1 32) rfl,
    decode_encode (i := .sd 1 2 0xFF8) rfl, decode_of_slliw_funct7 rfl rfl (by decide),
    decode_of_no_row (by decide) (decodeRow_of_system rfl (by decide) (by decide))⟩

end Sys2Proof.Machine
end

section
/-!
PROOFS. The system instructions (spec 44_ref_system R290 to R293): their words, the effect of each on every state, and
the cycle that ECALL completes and EBREAK and ILLEGAL end with a fault.
-/

namespace Sys2Proof

/-! ### Words of MISC-MEM and SYSTEM that are no instruction (R103) -/

/-- MISC-MEM has no instruction at a funct3 other than 000 (R103, R290). -/
theorem decode_of_miscMem_funct3 {w : InstrWord} (ho : opcodeOf w = 0b0001111#7) (h3 : funct3Of w ≠ 0b000#3) :
    decode w = .illegal w :=
  decode_of_no_row (ne_zero_of_opcode ho (by decide)) (decodeRow_of_miscMem ho h3)

/-- SYSTEM has no instruction but ECALL and EBREAK (R103, R291, R292). -/
theorem decode_of_system {w : InstrWord} (ho : opcodeOf w = 0b1110011#7) (hc : w ≠ 0x00000073#32)
    (hb : w ≠ 0x00100073#32) : decode w = .illegal w :=
  decode_of_no_row (ne_zero_of_opcode ho (by decide)) (decodeRow_of_system ho hc hb)

end Sys2Proof

namespace Sys2Proof.Machine

/-! ### The effects -/

/-- A member of the halt class calls `finish()` (R141). -/
theorem State.finishAs_of_mem {s : State} {mn : Mnemonic} (h : mn ∈ s.cfg.haltClass) : s.finishAs mn = s.finish :=
  if_pos (List.contains_iff_mem.2 h)

/-- ECALL, where the halt class holds it, sets the halt flag (R291). -/
theorem exec_ecall_of_mem {s : State} (hc : Mnemonic.ecall ∈ s.cfg.haltClass) : exec .ecall s = .next s.finish :=
  congrArg Host.Outcome.next (State.finishAs_of_mem hc)

/-- EBREAK raises its fault with the descriptor's address (R292). -/
theorem exec_ebreak_of_dl {s : State} {d : Descriptor} (hd : s.dl = some d) :
    exec .ebreak s = .next (s.raise (.unmodelled .ebreak d.addr)) := by
  rw [← State.instrAddr_of_dl hd]
  rfl

/-- ILLEGAL raises its fault with its word and the descriptor's address (R293). -/
theorem exec_illegal_of_dl {s : State} {d : Descriptor} (hd : s.dl = some d) (w : InstrWord) :
    exec (.illegal w) s = .next (s.raise (.illegalInstruction w d.addr)) := by
  rw [← State.instrAddr_of_dl hd]
  rfl

/-! ### The cycle -/

/-- Before the effect runs a cycle has changed no register but `x[0]` (R131). -/
theorem State.atEffect_reg_of_ne_zero (s : State) (w : InstrWord) {r : RegIdx} (hr : r ≠ 0) :
    (s.atEffect w).reg r = s.reg r := by
  rw [State.atEffect_reg, State.zeroForce, State.setReg_reg, if_neg hr]

/-- A mnemonic outside the call/return class has no snapshot taken (R137). -/
theorem State.snapshots_of_not_mem {s : State} {i : Instr} (h : i.mnemonic ∉ s.cfg.callReturnClass) :
    s.snapshots i = [] := if_neg fun hi => h hi.2

/-- A cycle whose effect only raises a fault ends where the effect ran, with that fault (R312). -/
theorem State.Fetches.step_of_raise {s : State} {w : InstrWord} {f : Fault} (h : s.Fetches w) (hf : s.fault = none)
    (hw : w ≠ 0#32) (hexec : exec (decode w) (s.atEffect w) = .next ((s.atEffect w).raise f)) :
    Sys2Proof.Machine.step s = .next ((s.atEffect w).raise f) := by
  obtain ⟨u, hu, -, hs⟩ := h.step hf hw
  cases hu.symm.trans hexec
  rw [hs, State.afterCycle_of_fault rfl]

/-- A cycle of an ECALL of the halt class: the effect sets the halt flag, then the descriptor is retired and counted
(R139, R140, R291). -/
theorem State.Fetches.step_ecall_eq {s : State} (h : s.Fetches 0x00000073#32) (hf : s.fault = none)
    (hc : Mnemonic.ecall ∈ s.cfg.haltClass) :
    Sys2Proof.Machine.step s = .next ((s.atEffect 0x00000073#32).finish.setDl none).countStep := by
  obtain ⟨u, hu, -, hs⟩ := h.step hf (by decide)
  cases hu.symm.trans (exec_ecall_of_mem (s := s.atEffect 0x00000073#32) hc)
  rw [hs, State.afterCycle_of_none (show (s.atEffect 0x00000073#32).finish.fault = none from hf)]
  rfl

/-- A run whose first cycle runs such an ECALL ends halted with the report (R130, R146, R291). -/
theorem State.Fetches.run_ecall {s : State} (h : s.Fetches 0x00000073#32) (hf : s.fault = none)
    (hh : s.halted = false) (hc : Mnemonic.ecall ∈ s.cfg.haltClass) (fuel : Nat) (trace : Bool) (t0 t1 draw : Rat) :
    ∃ e, State.run (fuel + 1) trace t0 t1 draw s = .halted e ∧ e.pc = s.pc + 4 ∧ e.count = s.count + 1 ∧
      Event.report (t1 - t0) (s.count + 1) (mips (s.count + 1) (t1 - t0) draw) ∈ e.events := by
  obtain ⟨t, hloop, hcount, hpc⟩ := State.Fetches.runLoop_ecall (s := { s with trace := trace }) h hf hh hc fuel
  refine ⟨t.report t0 t1 draw, ?_, hpc, hcount, ?_⟩
  · rw [State.run, State.runWith, hloop]
  · simp [State.report, hcount]

/-! ### The obligations -/

/-- Settles O23: the word is FENCE's, MISC-MEM has no other row, and the effect is empty. -/
theorem fenceIsNoOperation : Obligations.FenceIsNoOperation := by
  intro fm pred succ rs1 rd
  refine ⟨encodes_encode (.fence fm pred succ rs1 rd) rfl nofun, fun f3 h3 => ?_, fun _ => rfl⟩
  have h := encFence_funct3 fm pred succ rs1 f3 rd 0b0001111#7
  exact decode_of_miscMem_funct3 (encFence_opcode ..) (h.trans_ne h3)

/-- Settles O24: the cycle ends with the halt flag set and no fault, so the next back-edge test ends the run. -/
theorem ecallHalts : Obligations.EcallHalts :=
  ⟨encodes_encode .ecall rfl nofun, fun _ => decode_of_system, fun _ => exec_ecall_of_mem,
    fun s hc hf hw => ⟨_, hw.step_ecall_eq hf hc, rfl, rfl, rfl, rfl, hf, rfl,
      fun _ => s.atEffect_reg_of_ne_zero 0x00000073#32,
      fun fuel trace t0 t1 draw hh => hw.run_ecall hf hh hc fuel trace t0 t1 draw⟩⟩

/-- Settles O25: the effect raises the fault, and the cycle ends there with nothing retired or counted. -/
theorem ebreakStops : Obligations.EbreakStops :=
  ⟨encodes_encode .ebreak rfl nofun, fun _ _ => exec_ebreak_of_dl,
    fun s hf hw => ⟨_, hw.step_of_raise hf (by decide) (exec_ebreak_of_dl rfl), rfl, rfl, rfl, rfl, rfl,
      fun _ => s.atEffect_reg_of_ne_zero 0x00100073#32⟩⟩

/-- Settles O26: a word in no row decodes to ILLEGAL, whose effect raises the fault; the snapshot alone could have
changed the events before it. -/
theorem illegalWordFaults : Obligations.IllegalWordFaults := by
  refine ⟨fun w _ _ hd => exec_illegal_of_dl hd w, fun s w hf hw h0 hm => ?_⟩
  obtain ⟨-, hd⟩ := decode_eq_illegal_of_no_match hm
  have hexec : exec (decode w) (s.atEffect w) = .next ((s.atEffect w).raise (.illegalInstruction w s.pc)) := by
    rw [hd]
    exact exec_illegal_of_dl (s := s.atEffect w) rfl w
  refine ⟨_, hw.step_of_raise hf h0 hexec, rfl, rfl, rfl, rfl, fun _ => s.atEffect_reg_of_ne_zero w, rfl, fun hc => ?_⟩
  calc s.events ++ s.snapshots (decode w)
      = s.events ++ [] := by rw [State.snapshots_of_not_mem (hd ▸ hc)]
    _ = s.events := List.append_nil _

end Sys2Proof.Machine
end

section
/-!
PROOFS. Where a fault or a refusal ends what runs (spec 60_exceptions R312 to R314): the state a fault of the execute
stage leaves behind, and the segment that refuses the boot.
-/

namespace Sys2Proof.Machine

/-! ### A fault in the execute stage (R312, R313) -/

/-- An effect that ends with a fault, from a state without one, did nothing but raise it (R312). -/
theorem EffectOf.eq_raise {i : Instr} {s u : State} {f : Fault} (he : EffectOf i s u) (hs : s.fault = none)
    (hu : u.fault = some f) : u = s.raise f := by
  cases he with
  | raised => cases hu; rfl
  | wroteReg | jumped | branched | didNothing | stored | halted => cases hs.symm.trans hu

/-- A step whose effect faults ends in the state the effect ran in, with the fault (R312). -/
theorem State.Fetches.step_fault_eq {s t : State} {w : InstrWord} {f : Fault} (h : s.Fetches w) (hf : s.fault = none)
    (hw : w ≠ 0#32) (hs : Sys2Proof.Machine.step s = .next t) (ht : t.fault = some f) :
    t = (s.atEffect w).raise f := by
  obtain ⟨u, -, he, hstep⟩ := h.step hf hw
  cases hstep.symm.trans hs
  rw [State.afterCycle_fault] at ht
  rw [State.afterCycle_of_fault ht, he.eq_raise hf ht]

/-! ### The segment that refuses the boot (R313, R314) -/

/-- A hart that holds a fault has no segment installed (R313). -/
theorem installAll_of_fault {s : State} {f : Fault} (hf : s.fault = some f) (gate : Nat → Bool)
    (segs : List Segment) : installAll gate segs s = .hart s := by
  cases segs <;> simp only [installAll, hf]

/-- A segment whose data length is its size is installed before the others (R69). -/
theorem installAll_cons_of_length_eq {s : State} {seg : Segment} (hf : s.fault = none)
    (hlen : seg.data.length = seg.size) (gate : Nat → Bool) (segs : List Segment) :
    installAll gate (seg :: segs) s = installAll gate segs (s.install gate seg) := by
  simp only [installAll, installSegment, hf, hlen, if_true]

/-- A segment whose data length is not its size is refused where it is reached (R314). -/
theorem installAll_cons_of_length_ne {s : State} {seg : Segment} (hf : s.fault = none)
    (hlen : seg.data.length ≠ seg.size) (gate : Nat → Bool) (segs : List Segment) :
    installAll gate (seg :: segs) s = .refused seg := by
  simp only [installAll, installSegment, hf, hlen, if_false]

/-- The installation of a list goes on with its rest in the hart that its first part gives (R340). -/
theorem installAll_append {gate : Nat → Bool} {before : List Segment} {s t : State}
    (h : installAll gate before s = .hart t) (rest : List Segment) :
    installAll gate (before ++ rest) s = installAll gate rest t := by
  induction before generalizing s with
  | nil => cases h; rfl
  | cons seg before ih =>
    cases hf : s.fault with
    | some f =>
      cases (installAll_of_fault hf gate _).symm.trans h
      rw [installAll_of_fault hf, installAll_of_fault hf]
    | none =>
      by_cases hlen : seg.data.length = seg.size
      · rw [installAll_cons_of_length_eq hf hlen] at h
        exact (installAll_cons_of_length_eq hf hlen gate _).trans (ih h)
      · cases (installAll_cons_of_length_ne hf hlen gate _).symm.trans h

/-- A refused segment has a data length that is not its size, and those before it install without a fault (R314). -/
theorem exists_before_of_installAll_refused {gate : Nat → Bool} {segs : List Segment} {s : State} {seg : Segment}
    (h : installAll gate segs s = .refused seg) :
    ∃ before after t, segs = before ++ seg :: after ∧ seg.data.length ≠ seg.size ∧
      installAll gate before s = .hart t ∧ t.fault = none := by
  induction segs generalizing s with
  | nil => cases h
  | cons first rest ih =>
    cases hf : s.fault with
    | some f => cases (installAll_of_fault hf gate _).symm.trans h
    | none =>
      by_cases hlen : first.data.length = first.size
      · rw [installAll_cons_of_length_eq hf hlen] at h
        obtain ⟨before, after, t, rfl, hne, ht, htf⟩ := ih h
        exact ⟨first :: before, after, t, rfl, hne, (installAll_cons_of_length_eq hf hlen gate _).trans ht, htf⟩
      · cases (installAll_cons_of_length_ne hf hlen gate _).symm.trans h
        exact ⟨[], rest, s, rfl, hlen, rfl, hf⟩

/-- Only the installation loop refuses a boot (R314, R340). -/
theorem boot_eq_refused_iff (gate : Nat → Bool) (p : BootParams) (seg : Segment) :
    boot gate p = .refused seg ↔ installAll gate p.segments p.construct = .refused seg := by
  unfold boot
  cases installAll gate p.segments p.construct with
  | refused bad => rfl
  | hart s => cases hf : s.fault <;> simp [hf]

/-! ### The obligations -/

/-- Settles O41: such a step ends in the state the effect ran in, where the fetch has moved the pc and filled both
latches and no register but `x[0]` differs. -/
theorem executeFaultState : Obligations.ExecuteFaultState := by
  intro s t w f hf hw h0 hs ht
  cases hw.step_fault_eq hf h0 hs ht
  have hzero : (s.atEffect w).reg 0 = 0 := by
    rw [State.atEffect_reg, State.zeroForce, State.setReg_reg, if_pos rfl]
  exact ⟨rfl, rfl, rfl, hzero, fun _ => s.atEffect_reg_of_ne_zero w, rfl, rfl, rfl⟩

/-- Settles O55: the loop refuses the first segment of the wrong length that it reaches without a fault. -/
theorem bootRefusesBadSegment : Obligations.BootRefusesBadSegment := by
  intro gate p seg
  rw [boot_eq_refused_iff]
  refine ⟨exists_before_of_installAll_refused, ?_⟩
  rintro ⟨before, after, t, hsegs, hlen, ht, htf⟩
  rw [hsegs, installAll_append ht, installAll_cons_of_length_ne htf hlen]

end Sys2Proof.Machine
end

section
/-!
PROOFS. The hart that boot returns without a fault (spec 70_reset_and_hazards R340 to R345): installation gives the
constructed hart another memory and nothing else, and the last two steps set the stack pointer and the pc.
-/

namespace Sys2Proof.Machine

/-! ### What installation gives (R69, R340) -/

/-- A copy that does not fault only replaces the memory (R69). -/
theorem State.exists_setMem_of_copyBytes {s : State} {va : Word} {bytes : List Byte}
    (h : (s.copyBytes va bytes).fault = none) : ∃ m, s.copyBytes va bytes = s.setMem m := by
  cases hf : s.fault with
  | some f => rw [State.copyBytes_of_fault hf, hf] at h; cases h
  | none =>
    by_cases hfit : s.offset va + bytes.length ≤ s.cfg.capacity
    · exact ⟨_, State.copyBytes_of_fits hf hfit⟩
    · rw [State.copyBytes_of_not_fits hf (not_le.1 hfit)] at h
      cases h

/-- Copies that end without a fault only replace the memory (R69). -/
theorem State.exists_setMem_of_copyAll {s : State} {copies : List (Word × List Byte)}
    (h : (s.copyAll copies).fault = none) : ∃ m, s.copyAll copies = s.setMem m := by
  induction copies generalizing s with
  | nil => exact ⟨_, rfl⟩
  | cons c copies ih =>
    rw [State.copyAll_cons] at h ⊢
    obtain ⟨m, hm⟩ := State.exists_setMem_of_copyBytes (State.fault_of_copyAll h)
    obtain ⟨m', hm'⟩ := ih h
    exact ⟨m', by rw [hm', hm]; rfl⟩

/-- The installation loop only replaces the memory of a hart that it returns without a fault (R69, R340). -/
theorem exists_setMem_of_installAll {gate : Nat → Bool} {segs : List Segment} {s t : State}
    (h : installAll gate segs s = .hart t) (ht : t.fault = none) : ∃ m, t = s.setMem m := by
  induction segs generalizing s with
  | nil => cases h; exact ⟨_, rfl⟩
  | cons seg segs ih =>
    cases hf : s.fault with
    | some f =>
      cases (installAll_of_fault hf gate _).symm.trans h
      cases hf.symm.trans ht
    | none =>
      by_cases hlen : seg.data.length = seg.size
      · rw [installAll_cons_of_length_eq hf hlen] at h
        obtain ⟨m', rfl⟩ := ih h
        obtain ⟨m, hm⟩ : ∃ m, s.install gate seg = s.setMem m := State.exists_setMem_of_copyAll ht
        exact ⟨m', by rw [hm]; rfl⟩
      · cases (installAll_cons_of_length_ne hf hlen gate _).symm.trans h

/-! ### The hart that boot returns (R340 to R343) -/

@[simp] theorem State.setStackPointer_reg (s : State) (j : RegIdx) :
    s.setStackPointer.reg j = if j = 2 then s.cfg.loadBase + BitVec.ofNat 64 s.cfg.capacity else s.reg j :=
  s.setReg_reg 2 j _

/-- A hart that boot returns without a fault is the installed one with its stack pointer and pc set (R340). -/
theorem exists_installAll_of_boot {gate : Nat → Bool} {p : BootParams} {s : State} (h : boot gate p = .hart s)
    (hs : s.fault = none) :
    ∃ t, installAll gate p.segments p.construct = .hart t ∧ t.fault = none ∧
      s = t.setStackPointer.setPc p.entryPc := by
  unfold boot at h
  cases hi : installAll gate p.segments p.construct with
  | refused seg => simp only [hi] at h; cases h
  | hart t =>
    cases hf : t.fault with
    | some f =>
      simp only [hi, hf] at h
      cases h
      cases hf.symm.trans hs
    | none =>
      simp only [hi, hf] at h
      cases h
      exact ⟨t, rfl, hf, rfl⟩

/-- A hart that boot returns without a fault is the constructed one with another memory, the stack pointer and the
pc set (R340). -/
theorem exists_setMem_of_boot {gate : Nat → Bool} {p : BootParams} {s : State} (h : boot gate p = .hart s)
    (hs : s.fault = none) : ∃ m, s = (p.construct.setMem m).setStackPointer.setPc p.entryPc := by
  obtain ⟨t, hi, ht, rfl⟩ := exists_installAll_of_boot h hs
  obtain ⟨m, rfl⟩ := exists_setMem_of_installAll hi ht
  exact ⟨m, rfl⟩

/-! ### The obligation -/

/-- Settles O53: the constructed hart has the parameters, the registers and the premises on the latch, the count and
the events, a new memory changes none of them, and the last two steps give the stack pointer and the pc. -/
theorem bootEstablishesLaunch : Obligations.BootEstablishesLaunch := by
  intro gate p s h hs
  obtain ⟨m, rfl⟩ := exists_setMem_of_boot h hs
  refine ⟨?_, fun r hr => ?_, rfl⟩
  · exact
      { noFault := hs
        notHalted := rfl
        latchIsEmpty := rfl
        countZero := rfl
        noEvents := rfl
        stackSet := by rw [State.setPc_reg, State.setStackPointer_reg, if_pos rfl]; rfl
        atEntry := rfl }
  · rw [State.setPc_reg, State.setStackPointer_reg, if_neg hr]; rfl

end Sys2Proof.Machine
end
